-- ==== Sys2Proof/Word.lean ====
section
/-! DEFINITION. The words the pipeline handles: the 64-bit command word (30_encoding.md R90) and the 16-bit value of a
poke (20_memory.md R72). Every value is unsigned (00_scope.md R10). -/

namespace Sys2Proof

/-- One command, "one 64-bit value" that "is not split into bytes" (R77, R90). -/
abbrev CommandWord := BitVec 64

/-- The value of a poke and the width of the control and pattern registers (R72, R30). -/
abbrev Word16 := BitVec 16

/-- A pixel or line position as a command carries it, a 12-bit natural (R99). -/
abbrev Position := BitVec 12

/-- A depth tag (R160). -/
abbrev DepthTag := BitVec 16

/-- A raw value or a colour index, `0..63` (R39, R40). -/
abbrev ColourIndex := BitVec 6

end Sys2Proof
end

