-- ==== Sys2Proof/Syntax.lean ====
section
/-! DEFINITION. The command set: one constructor per row of spec/opcode_table.json (30_encoding.md R101). Fields stand in
the order of the command word, most significant first. -/

namespace Sys2Proof

/-- A command of the pipeline. A poke carries the pixel position `pix` at which it happens and the 16-bit value `val`
(R91); every poke reads `pix`, and only the control and colour pokes use it (R102). -/
inductive Instr where
  /-- `POKE.BPLCON0`, offset `0x100`: primary bitplane control register (R140) -/
  | pokeBplcon0 (pix : Position) (val : Word16)
  /-- `POKE.BPLCON1`, offset `0x102`: secondary bitplane control register, the scroll offsets (R141) -/
  | pokeBplcon1 (pix : Position) (val : Word16)
  /-- `POKE.BPLCON2`, offset `0x104`: tertiary bitplane control register, the priorities (R142) -/
  | pokeBplcon2 (pix : Position) (val : Word16)
  /-- `POKE.BPL1DAT`, offset `0x110`: data word of bitplane 1 (R120) -/
  | pokeBpl1dat (pix : Position) (val : Word16)
  /-- `POKE.BPL2DAT`, offset `0x112`: data word of bitplane 2 (R120) -/
  | pokeBpl2dat (pix : Position) (val : Word16)
  /-- `POKE.BPL3DAT`, offset `0x114`: data word of bitplane 3 (R120) -/
  | pokeBpl3dat (pix : Position) (val : Word16)
  /-- `POKE.BPL4DAT`, offset `0x116`: data word of bitplane 4 (R120) -/
  | pokeBpl4dat (pix : Position) (val : Word16)
  /-- `POKE.BPL5DAT`, offset `0x118`: data word of bitplane 5 (R120) -/
  | pokeBpl5dat (pix : Position) (val : Word16)
  /-- `POKE.BPL6DAT`, offset `0x11A`: data word of bitplane 6 (R120) -/
  | pokeBpl6dat (pix : Position) (val : Word16)
  /-- `POKE.SPR0POS`, offset `0x140`: sprite 0: position register (R180) -/
  | pokeSpr0pos (pix : Position) (val : Word16)
  /-- `POKE.SPR0CTL`, offset `0x142`: sprite 0: control register (R181) -/
  | pokeSpr0ctl (pix : Position) (val : Word16)
  /-- `POKE.SPR0DATA`, offset `0x144`: sprite 0: first pattern word, arms the sprite (R182) -/
  | pokeSpr0data (pix : Position) (val : Word16)
  /-- `POKE.SPR0DATB`, offset `0x146`: sprite 0: second pattern word (R183) -/
  | pokeSpr0datb (pix : Position) (val : Word16)
  /-- `POKE.SPR1POS`, offset `0x148`: sprite 1: position register (R180) -/
  | pokeSpr1pos (pix : Position) (val : Word16)
  /-- `POKE.SPR1CTL`, offset `0x14A`: sprite 1: control register (R181) -/
  | pokeSpr1ctl (pix : Position) (val : Word16)
  /-- `POKE.SPR1DATA`, offset `0x14C`: sprite 1: first pattern word, arms the sprite (R182) -/
  | pokeSpr1data (pix : Position) (val : Word16)
  /-- `POKE.SPR1DATB`, offset `0x14E`: sprite 1: second pattern word (R183) -/
  | pokeSpr1datb (pix : Position) (val : Word16)
  /-- `POKE.SPR2POS`, offset `0x150`: sprite 2: position register (R180) -/
  | pokeSpr2pos (pix : Position) (val : Word16)
  /-- `POKE.SPR2CTL`, offset `0x152`: sprite 2: control register (R181) -/
  | pokeSpr2ctl (pix : Position) (val : Word16)
  /-- `POKE.SPR2DATA`, offset `0x154`: sprite 2: first pattern word, arms the sprite (R182) -/
  | pokeSpr2data (pix : Position) (val : Word16)
  /-- `POKE.SPR2DATB`, offset `0x156`: sprite 2: second pattern word (R183) -/
  | pokeSpr2datb (pix : Position) (val : Word16)
  /-- `POKE.SPR3POS`, offset `0x158`: sprite 3: position register (R180) -/
  | pokeSpr3pos (pix : Position) (val : Word16)
  /-- `POKE.SPR3CTL`, offset `0x15A`: sprite 3: control register (R181) -/
  | pokeSpr3ctl (pix : Position) (val : Word16)
  /-- `POKE.SPR3DATA`, offset `0x15C`: sprite 3: first pattern word, arms the sprite (R182) -/
  | pokeSpr3data (pix : Position) (val : Word16)
  /-- `POKE.SPR3DATB`, offset `0x15E`: sprite 3: second pattern word (R183) -/
  | pokeSpr3datb (pix : Position) (val : Word16)
  /-- `POKE.SPR4POS`, offset `0x160`: sprite 4: position register (R180) -/
  | pokeSpr4pos (pix : Position) (val : Word16)
  /-- `POKE.SPR4CTL`, offset `0x162`: sprite 4: control register (R181) -/
  | pokeSpr4ctl (pix : Position) (val : Word16)
  /-- `POKE.SPR4DATA`, offset `0x164`: sprite 4: first pattern word, arms the sprite (R182) -/
  | pokeSpr4data (pix : Position) (val : Word16)
  /-- `POKE.SPR4DATB`, offset `0x166`: sprite 4: second pattern word (R183) -/
  | pokeSpr4datb (pix : Position) (val : Word16)
  /-- `POKE.SPR5POS`, offset `0x168`: sprite 5: position register (R180) -/
  | pokeSpr5pos (pix : Position) (val : Word16)
  /-- `POKE.SPR5CTL`, offset `0x16A`: sprite 5: control register (R181) -/
  | pokeSpr5ctl (pix : Position) (val : Word16)
  /-- `POKE.SPR5DATA`, offset `0x16C`: sprite 5: first pattern word, arms the sprite (R182) -/
  | pokeSpr5data (pix : Position) (val : Word16)
  /-- `POKE.SPR5DATB`, offset `0x16E`: sprite 5: second pattern word (R183) -/
  | pokeSpr5datb (pix : Position) (val : Word16)
  /-- `POKE.SPR6POS`, offset `0x170`: sprite 6: position register (R180) -/
  | pokeSpr6pos (pix : Position) (val : Word16)
  /-- `POKE.SPR6CTL`, offset `0x172`: sprite 6: control register (R181) -/
  | pokeSpr6ctl (pix : Position) (val : Word16)
  /-- `POKE.SPR6DATA`, offset `0x174`: sprite 6: first pattern word, arms the sprite (R182) -/
  | pokeSpr6data (pix : Position) (val : Word16)
  /-- `POKE.SPR6DATB`, offset `0x176`: sprite 6: second pattern word (R183) -/
  | pokeSpr6datb (pix : Position) (val : Word16)
  /-- `POKE.SPR7POS`, offset `0x178`: sprite 7: position register (R180) -/
  | pokeSpr7pos (pix : Position) (val : Word16)
  /-- `POKE.SPR7CTL`, offset `0x17A`: sprite 7: control register (R181) -/
  | pokeSpr7ctl (pix : Position) (val : Word16)
  /-- `POKE.SPR7DATA`, offset `0x17C`: sprite 7: first pattern word, arms the sprite (R182) -/
  | pokeSpr7data (pix : Position) (val : Word16)
  /-- `POKE.SPR7DATB`, offset `0x17E`: sprite 7: second pattern word (R183) -/
  | pokeSpr7datb (pix : Position) (val : Word16)
  /-- `POKE.COLOR00`, offset `0x180`: colour register 0, forwarded to the colour stage (R240) -/
  | pokeColor00 (pix : Position) (val : Word16)
  /-- `POKE.COLOR01`, offset `0x182`: colour register 1, forwarded to the colour stage (R240) -/
  | pokeColor01 (pix : Position) (val : Word16)
  /-- `POKE.COLOR02`, offset `0x184`: colour register 2, forwarded to the colour stage (R240) -/
  | pokeColor02 (pix : Position) (val : Word16)
  /-- `POKE.COLOR03`, offset `0x186`: colour register 3, forwarded to the colour stage (R240) -/
  | pokeColor03 (pix : Position) (val : Word16)
  /-- `POKE.COLOR04`, offset `0x188`: colour register 4, forwarded to the colour stage (R240) -/
  | pokeColor04 (pix : Position) (val : Word16)
  /-- `POKE.COLOR05`, offset `0x18A`: colour register 5, forwarded to the colour stage (R240) -/
  | pokeColor05 (pix : Position) (val : Word16)
  /-- `POKE.COLOR06`, offset `0x18C`: colour register 6, forwarded to the colour stage (R240) -/
  | pokeColor06 (pix : Position) (val : Word16)
  /-- `POKE.COLOR07`, offset `0x18E`: colour register 7, forwarded to the colour stage (R240) -/
  | pokeColor07 (pix : Position) (val : Word16)
  /-- `POKE.COLOR08`, offset `0x190`: colour register 8, forwarded to the colour stage (R240) -/
  | pokeColor08 (pix : Position) (val : Word16)
  /-- `POKE.COLOR09`, offset `0x192`: colour register 9, forwarded to the colour stage (R240) -/
  | pokeColor09 (pix : Position) (val : Word16)
  /-- `POKE.COLOR10`, offset `0x194`: colour register 10, forwarded to the colour stage (R240) -/
  | pokeColor10 (pix : Position) (val : Word16)
  /-- `POKE.COLOR11`, offset `0x196`: colour register 11, forwarded to the colour stage (R240) -/
  | pokeColor11 (pix : Position) (val : Word16)
  /-- `POKE.COLOR12`, offset `0x198`: colour register 12, forwarded to the colour stage (R240) -/
  | pokeColor12 (pix : Position) (val : Word16)
  /-- `POKE.COLOR13`, offset `0x19A`: colour register 13, forwarded to the colour stage (R240) -/
  | pokeColor13 (pix : Position) (val : Word16)
  /-- `POKE.COLOR14`, offset `0x19C`: colour register 14, forwarded to the colour stage (R240) -/
  | pokeColor14 (pix : Position) (val : Word16)
  /-- `POKE.COLOR15`, offset `0x19E`: colour register 15, forwarded to the colour stage (R240) -/
  | pokeColor15 (pix : Position) (val : Word16)
  /-- `POKE.COLOR16`, offset `0x1A0`: colour register 16, forwarded to the colour stage (R240) -/
  | pokeColor16 (pix : Position) (val : Word16)
  /-- `POKE.COLOR17`, offset `0x1A2`: colour register 17, forwarded to the colour stage (R240) -/
  | pokeColor17 (pix : Position) (val : Word16)
  /-- `POKE.COLOR18`, offset `0x1A4`: colour register 18, forwarded to the colour stage (R240) -/
  | pokeColor18 (pix : Position) (val : Word16)
  /-- `POKE.COLOR19`, offset `0x1A6`: colour register 19, forwarded to the colour stage (R240) -/
  | pokeColor19 (pix : Position) (val : Word16)
  /-- `POKE.COLOR20`, offset `0x1A8`: colour register 20, forwarded to the colour stage (R240) -/
  | pokeColor20 (pix : Position) (val : Word16)
  /-- `POKE.COLOR21`, offset `0x1AA`: colour register 21, forwarded to the colour stage (R240) -/
  | pokeColor21 (pix : Position) (val : Word16)
  /-- `POKE.COLOR22`, offset `0x1AC`: colour register 22, forwarded to the colour stage (R240) -/
  | pokeColor22 (pix : Position) (val : Word16)
  /-- `POKE.COLOR23`, offset `0x1AE`: colour register 23, forwarded to the colour stage (R240) -/
  | pokeColor23 (pix : Position) (val : Word16)
  /-- `POKE.COLOR24`, offset `0x1B0`: colour register 24, forwarded to the colour stage (R240) -/
  | pokeColor24 (pix : Position) (val : Word16)
  /-- `POKE.COLOR25`, offset `0x1B2`: colour register 25, forwarded to the colour stage (R240) -/
  | pokeColor25 (pix : Position) (val : Word16)
  /-- `POKE.COLOR26`, offset `0x1B4`: colour register 26, forwarded to the colour stage (R240) -/
  | pokeColor26 (pix : Position) (val : Word16)
  /-- `POKE.COLOR27`, offset `0x1B6`: colour register 27, forwarded to the colour stage (R240) -/
  | pokeColor27 (pix : Position) (val : Word16)
  /-- `POKE.COLOR28`, offset `0x1B8`: colour register 28, forwarded to the colour stage (R240) -/
  | pokeColor28 (pix : Position) (val : Word16)
  /-- `POKE.COLOR29`, offset `0x1BA`: colour register 29, forwarded to the colour stage (R240) -/
  | pokeColor29 (pix : Position) (val : Word16)
  /-- `POKE.COLOR30`, offset `0x1BC`: colour register 30, forwarded to the colour stage (R240) -/
  | pokeColor30 (pix : Position) (val : Word16)
  /-- `POKE.COLOR31`, offset `0x1BE`: colour register 31, forwarded to the colour stage (R240) -/
  | pokeColor31 (pix : Position) (val : Word16)
  /-- `POKE.UNMAPPED`: an even offset the register map gives no register (R246) -/
  | pokeUnmapped (reg : BitVec 9) (pix : Position) (val : Word16)
  /-- `DRAW`: draw `n` pixels, one cell each when `hires`, else two (R92, R124) -/
  | draw (hires : Bool) (n : Position)
  /-- `BEGIN`: start line `vpos` with the first bitplane DMA event at pixel `first` (R93, R220) -/
  | beginLine (first : Position) (vpos : Position)
  /-- `END`: finish line `vpos` with its display-window inputs (R94, R221) -/
  | endLine (vf hf : Bool) (hopen hclose : Position) (vpos : Position)
  /-- `INSPECT`: take the introspection snapshot (R242) -/
  | inspect
  /-- `RESET`: return to the power-on defaults (R244) -/
  | reset
  /-- `NOP` (R248) -/
  | nop
deriving DecidableEq, Repr

end Sys2Proof
end

