-- ==== Sys2Proof/WellFormed.lean ====
section
/-! DEFINITION. Which commands are well formed. The fields of every command but one are bounded by their types; an unmapped
poke names its register offset, which must be even (20_memory.md R78) and outside the register map (R71). -/

namespace Sys2Proof

/-- "A register offset must be even" (20_memory.md R78). -/
abbrev EvenOffset (reg : BitVec 9) : Prop := reg.getLsbD 0 = false

/-- The offsets the pipeline responds to (20_memory.md R71); of an even offset, whether it is one of the 73. -/
abbrev MappedOffset (reg : BitVec 9) : Prop :=
  reg = 0x100#9 ∨ reg = 0x102#9 ∨ reg = 0x104#9
    ∨ (0x110#9 ≤ reg ∧ reg ≤ 0x11A#9)
    ∨ (0x140#9 ≤ reg ∧ reg ≤ 0x17E#9)
    ∨ (0x180#9 ≤ reg ∧ reg ≤ 0x1BE#9)

/-- The well-formedness check: every constructor but `pokeUnmapped` has only fields that any value fills legally. -/
def Instr.wellFormed : Instr → Bool
  | .pokeUnmapped reg _ _ => decide (EvenOffset reg) && decide (¬ MappedOffset reg)
  | _ => true

/-- Well-formedness of a command. -/
abbrev Instr.WellFormed (i : Instr) : Prop := i.wellFormed = true

end Sys2Proof
end

