-- ==== Sys2Proof/Decode.lean ====
section
/-! DEFINITION. Decoding and encoding of command words (30_encoding.md). Decoding is total: every 64-bit word gives one
command or one named rejection (R96). The encoder is written from the same formats (R90 to R95). -/

namespace Sys2Proof

/-! ### Fields of a command word (R90 to R94) -/

/-- `CMD`, bits 63:60 (R90). -/
def fieldCmd (w : CommandWord) : BitVec 4 := w.extractLsb' 60 4
/-- `PIX` of format P and `HOPEN` of format E, bits 55:44 (R91, R94). -/
def fieldUpper (w : CommandWord) : Position := w.extractLsb' 44 12
/-- `REG` of format P, bits 40:32 (R91). -/
def fieldReg (w : CommandWord) : BitVec 9 := w.extractLsb' 32 9
/-- `VAL` of format P, bits 15:0 (R91). -/
def fieldVal (w : CommandWord) : Word16 := w.extractLsb' 0 16
/-- `H` of format D, bit 12 (R92). -/
def fieldHires (w : CommandWord) : Bool := w.getLsbD 12
/-- `N` of format D and `VPOS` of formats B and E, bits 11:0 (R92 to R94). -/
def fieldLower (w : CommandWord) : Position := w.extractLsb' 0 12
/-- `FIRST` of format B and `HCLOSE` of format E, bits 43:32 (R93, R94). -/
def fieldMiddle (w : CommandWord) : Position := w.extractLsb' 32 12
/-- `VF` of format E, bit 59 (R94). -/
def fieldVf (w : CommandWord) : Bool := w.getLsbD 59
/-- `HF` of format E, bit 58 (R94). -/
def fieldHf (w : CommandWord) : Bool := w.getLsbD 58

/-- Command codes (R90). -/
def cmdNop : BitVec 4 := 0x0#4
def cmdPoke : BitVec 4 := 0x1#4
def cmdDraw : BitVec 4 := 0x2#4
def cmdBegin : BitVec 4 := 0x3#4
def cmdEnd : BitVec 4 := 0x4#4
def cmdInspect : BitVec 4 := 0x5#4
def cmdReset : BitVec 4 := 0xF#4

/-- `FORMAT_FIELDS(cmd)`: the mask of the `CMD` bits and the named fields of the command's format (R96). -/
def formatFields (cmd : BitVec 4) : CommandWord :=
  if cmd = cmdPoke then 0xF0FFF1FF0000FFFF#64
  else if cmd = cmdDraw then 0xF000000000001FFF#64
  else if cmd = cmdBegin then 0xF0000FFF00000FFF#64
  else if cmd = cmdEnd then 0xFCFFFFFF00000FFF#64
  else 0xF000000000000000#64

/-! ### The register map -/

/-- What an even register offset selects (R100). -/
inductive Register where
  | bplcon0
  | bplcon1
  | bplcon2
  | bplDat (k : Fin 6)
  | sprPos (x : Fin 8)
  | sprCtl (x : Fin 8)
  | sprData (x : Fin 8)
  | sprDatb (x : Fin 8)
  | color (n : Fin 32)
  | unmapped (reg : BitVec 9)
deriving DecidableEq, Repr

/-- The sprite register `t = reg[2:1]` of the sprite `x` (R100). -/
def spriteRegister (x : Fin 8) (t : Nat) : Register :=
  match t with
  | 0 => .sprPos x
  | 1 => .sprCtl x
  | 2 => .sprData x
  | _ => .sprDatb x

/-- `RegOf(reg)` for an even offset (R100). -/
def regOf (reg : BitVec 9) : Register :=
  let r := reg.toNat
  if r = 0x100 then .bplcon0
  else if r = 0x102 then .bplcon1
  else if r = 0x104 then .bplcon2
  else if 0x110 ≤ r ∧ r ≤ 0x11A then .bplDat (Fin.ofNat 6 ((r - 0x110) / 2))
  else if 0x140 ≤ r ∧ r ≤ 0x17E then spriteRegister (Fin.ofNat 8 ((r - 0x140) / 8)) (reg.extractLsb' 1 2).toNat
  else if 0x180 ≤ r ∧ r ≤ 0x1BE then .color (Fin.ofNat 32 ((r - 0x180) / 2))
  else .unmapped reg

/-- The data poke of bitplane `k + 1` (R101). -/
def pokeBplDat (k : Fin 6) (pix : Position) (val : Word16) : Instr :=
  match k with
  | 0 => .pokeBpl1dat pix val
  | 1 => .pokeBpl2dat pix val
  | 2 => .pokeBpl3dat pix val
  | 3 => .pokeBpl4dat pix val
  | 4 => .pokeBpl5dat pix val
  | 5 => .pokeBpl6dat pix val

/-- The position poke of sprite `k` (R101). -/
def pokeSprPos (k : Fin 8) (pix : Position) (val : Word16) : Instr :=
  match k with
  | 0 => .pokeSpr0pos pix val
  | 1 => .pokeSpr1pos pix val
  | 2 => .pokeSpr2pos pix val
  | 3 => .pokeSpr3pos pix val
  | 4 => .pokeSpr4pos pix val
  | 5 => .pokeSpr5pos pix val
  | 6 => .pokeSpr6pos pix val
  | 7 => .pokeSpr7pos pix val

/-- The control poke of sprite `k` (R101). -/
def pokeSprCtl (k : Fin 8) (pix : Position) (val : Word16) : Instr :=
  match k with
  | 0 => .pokeSpr0ctl pix val
  | 1 => .pokeSpr1ctl pix val
  | 2 => .pokeSpr2ctl pix val
  | 3 => .pokeSpr3ctl pix val
  | 4 => .pokeSpr4ctl pix val
  | 5 => .pokeSpr5ctl pix val
  | 6 => .pokeSpr6ctl pix val
  | 7 => .pokeSpr7ctl pix val

/-- The first pattern word poke of sprite `k` (R101). -/
def pokeSprData (k : Fin 8) (pix : Position) (val : Word16) : Instr :=
  match k with
  | 0 => .pokeSpr0data pix val
  | 1 => .pokeSpr1data pix val
  | 2 => .pokeSpr2data pix val
  | 3 => .pokeSpr3data pix val
  | 4 => .pokeSpr4data pix val
  | 5 => .pokeSpr5data pix val
  | 6 => .pokeSpr6data pix val
  | 7 => .pokeSpr7data pix val

/-- The second pattern word poke of sprite `k` (R101). -/
def pokeSprDatb (k : Fin 8) (pix : Position) (val : Word16) : Instr :=
  match k with
  | 0 => .pokeSpr0datb pix val
  | 1 => .pokeSpr1datb pix val
  | 2 => .pokeSpr2datb pix val
  | 3 => .pokeSpr3datb pix val
  | 4 => .pokeSpr4datb pix val
  | 5 => .pokeSpr5datb pix val
  | 6 => .pokeSpr6datb pix val
  | 7 => .pokeSpr7datb pix val

/-- The poke of colour register `k` (R101). -/
def pokeColor (k : Fin 32) (pix : Position) (val : Word16) : Instr :=
  match k with
  | 0 => .pokeColor00 pix val
  | 1 => .pokeColor01 pix val
  | 2 => .pokeColor02 pix val
  | 3 => .pokeColor03 pix val
  | 4 => .pokeColor04 pix val
  | 5 => .pokeColor05 pix val
  | 6 => .pokeColor06 pix val
  | 7 => .pokeColor07 pix val
  | 8 => .pokeColor08 pix val
  | 9 => .pokeColor09 pix val
  | 10 => .pokeColor10 pix val
  | 11 => .pokeColor11 pix val
  | 12 => .pokeColor12 pix val
  | 13 => .pokeColor13 pix val
  | 14 => .pokeColor14 pix val
  | 15 => .pokeColor15 pix val
  | 16 => .pokeColor16 pix val
  | 17 => .pokeColor17 pix val
  | 18 => .pokeColor18 pix val
  | 19 => .pokeColor19 pix val
  | 20 => .pokeColor20 pix val
  | 21 => .pokeColor21 pix val
  | 22 => .pokeColor22 pix val
  | 23 => .pokeColor23 pix val
  | 24 => .pokeColor24 pix val
  | 25 => .pokeColor25 pix val
  | 26 => .pokeColor26 pix val
  | 27 => .pokeColor27 pix val
  | 28 => .pokeColor28 pix val
  | 29 => .pokeColor29 pix val
  | 30 => .pokeColor30 pix val
  | _ => .pokeColor31 pix val

/-- The poke of a register (R101). -/
def pokeOf (r : Register) (pix : Position) (val : Word16) : Instr :=
  match r with
  | .bplcon0 => .pokeBplcon0 pix val
  | .bplcon1 => .pokeBplcon1 pix val
  | .bplcon2 => .pokeBplcon2 pix val
  | .bplDat k => pokeBplDat k pix val
  | .sprPos x => pokeSprPos x pix val
  | .sprCtl x => pokeSprCtl x pix val
  | .sprData x => pokeSprData x pix val
  | .sprDatb x => pokeSprDatb x pix val
  | .color n => pokeColor n pix val
  | .unmapped reg => .pokeUnmapped reg pix val

/-! ### Decoding -/

/-- Why a word is no command. Each raises `ILLEGAL_COMMAND` with the word as its info (R96). -/
inductive DecodeError where
  /-- `CMD` is one of `0x6` to `0xE` (R97) -/
  | reservedCommand
  /-- a bit outside the named fields of the format is set (R98) -/
  | reservedBits
  /-- a POKE with an odd `REG` (R96) -/
  | oddRegister
deriving DecidableEq, Repr

/-- `Decode(w)` (R96): the checks in the order written, the first that fails deciding. -/
def decode (w : CommandWord) : Except DecodeError Instr :=
  let cmd := fieldCmd w
  if 0x6#4 ≤ cmd ∧ cmd ≤ 0xE#4 then .error .reservedCommand
  else if w &&& ~~~(formatFields cmd) ≠ 0#64 then .error .reservedBits
  else if cmd = cmdPoke ∧ w.getLsbD 32 = true then .error .oddRegister
  else if cmd = cmdPoke then .ok (pokeOf (regOf (fieldReg w)) (fieldUpper w) (fieldVal w))
  else if cmd = cmdDraw then .ok (.draw (fieldHires w) (fieldLower w))
  else if cmd = cmdBegin then .ok (.beginLine (fieldMiddle w) (fieldLower w))
  else if cmd = cmdEnd then .ok (.endLine (fieldVf w) (fieldHf w) (fieldUpper w) (fieldMiddle w) (fieldLower w))
  else if cmd = cmdInspect then .ok .inspect
  else if cmd = cmdReset then .ok .reset
  else .ok .nop

/-- The decoder on a word given as a number of `nbits` bits, bit 0 its least significant. A command is one 64-bit word
(R90): a number of 64 bits or fewer is that word with the bits above `nbits` zero, and a longer one is no command. -/
def decodeTableWord (nbits w : Nat) : Option Instr :=
  if w % 2 ^ nbits < 2 ^ 64 then (decode (BitVec.ofNat 64 (w % 2 ^ nbits))).toOption else none

/-! ### Encoding -/

/-- Format P (R91). -/
def formatP (pix : Position) (reg : BitVec 9) (val : Word16) : CommandWord :=
  cmdPoke ++ 0#4 ++ pix ++ 0#3 ++ reg ++ 0#16 ++ val
/-- Format D (R92). -/
def formatD (hires : Bool) (n : Position) : CommandWord :=
  cmdDraw ++ 0#47 ++ BitVec.ofBool hires ++ n
/-- Format B (R93). -/
def formatB (first vpos : Position) : CommandWord :=
  cmdBegin ++ 0#16 ++ first ++ 0#20 ++ vpos
/-- Format E (R94). -/
def formatE (vf hf : Bool) (hopen hclose vpos : Position) : CommandWord :=
  cmdEnd ++ BitVec.ofBool vf ++ BitVec.ofBool hf ++ 0#2 ++ hopen ++ hclose ++ 0#20 ++ vpos
/-- Format Z (R95). -/
def formatZ (cmd : BitVec 4) : CommandWord := cmd ++ 0#60

/-- The word of a command: its format with every reserved field zero (R90 to R95, R103), each poke at the offset of the
opcode map (R101). -/
def encode : Instr → CommandWord
  | .pokeBplcon0 pix val => formatP pix 0x100#9 val
  | .pokeBplcon1 pix val => formatP pix 0x102#9 val
  | .pokeBplcon2 pix val => formatP pix 0x104#9 val
  | .pokeBpl1dat pix val => formatP pix 0x110#9 val
  | .pokeBpl2dat pix val => formatP pix 0x112#9 val
  | .pokeBpl3dat pix val => formatP pix 0x114#9 val
  | .pokeBpl4dat pix val => formatP pix 0x116#9 val
  | .pokeBpl5dat pix val => formatP pix 0x118#9 val
  | .pokeBpl6dat pix val => formatP pix 0x11A#9 val
  | .pokeSpr0pos pix val => formatP pix 0x140#9 val
  | .pokeSpr0ctl pix val => formatP pix 0x142#9 val
  | .pokeSpr0data pix val => formatP pix 0x144#9 val
  | .pokeSpr0datb pix val => formatP pix 0x146#9 val
  | .pokeSpr1pos pix val => formatP pix 0x148#9 val
  | .pokeSpr1ctl pix val => formatP pix 0x14A#9 val
  | .pokeSpr1data pix val => formatP pix 0x14C#9 val
  | .pokeSpr1datb pix val => formatP pix 0x14E#9 val
  | .pokeSpr2pos pix val => formatP pix 0x150#9 val
  | .pokeSpr2ctl pix val => formatP pix 0x152#9 val
  | .pokeSpr2data pix val => formatP pix 0x154#9 val
  | .pokeSpr2datb pix val => formatP pix 0x156#9 val
  | .pokeSpr3pos pix val => formatP pix 0x158#9 val
  | .pokeSpr3ctl pix val => formatP pix 0x15A#9 val
  | .pokeSpr3data pix val => formatP pix 0x15C#9 val
  | .pokeSpr3datb pix val => formatP pix 0x15E#9 val
  | .pokeSpr4pos pix val => formatP pix 0x160#9 val
  | .pokeSpr4ctl pix val => formatP pix 0x162#9 val
  | .pokeSpr4data pix val => formatP pix 0x164#9 val
  | .pokeSpr4datb pix val => formatP pix 0x166#9 val
  | .pokeSpr5pos pix val => formatP pix 0x168#9 val
  | .pokeSpr5ctl pix val => formatP pix 0x16A#9 val
  | .pokeSpr5data pix val => formatP pix 0x16C#9 val
  | .pokeSpr5datb pix val => formatP pix 0x16E#9 val
  | .pokeSpr6pos pix val => formatP pix 0x170#9 val
  | .pokeSpr6ctl pix val => formatP pix 0x172#9 val
  | .pokeSpr6data pix val => formatP pix 0x174#9 val
  | .pokeSpr6datb pix val => formatP pix 0x176#9 val
  | .pokeSpr7pos pix val => formatP pix 0x178#9 val
  | .pokeSpr7ctl pix val => formatP pix 0x17A#9 val
  | .pokeSpr7data pix val => formatP pix 0x17C#9 val
  | .pokeSpr7datb pix val => formatP pix 0x17E#9 val
  | .pokeColor00 pix val => formatP pix 0x180#9 val
  | .pokeColor01 pix val => formatP pix 0x182#9 val
  | .pokeColor02 pix val => formatP pix 0x184#9 val
  | .pokeColor03 pix val => formatP pix 0x186#9 val
  | .pokeColor04 pix val => formatP pix 0x188#9 val
  | .pokeColor05 pix val => formatP pix 0x18A#9 val
  | .pokeColor06 pix val => formatP pix 0x18C#9 val
  | .pokeColor07 pix val => formatP pix 0x18E#9 val
  | .pokeColor08 pix val => formatP pix 0x190#9 val
  | .pokeColor09 pix val => formatP pix 0x192#9 val
  | .pokeColor10 pix val => formatP pix 0x194#9 val
  | .pokeColor11 pix val => formatP pix 0x196#9 val
  | .pokeColor12 pix val => formatP pix 0x198#9 val
  | .pokeColor13 pix val => formatP pix 0x19A#9 val
  | .pokeColor14 pix val => formatP pix 0x19C#9 val
  | .pokeColor15 pix val => formatP pix 0x19E#9 val
  | .pokeColor16 pix val => formatP pix 0x1A0#9 val
  | .pokeColor17 pix val => formatP pix 0x1A2#9 val
  | .pokeColor18 pix val => formatP pix 0x1A4#9 val
  | .pokeColor19 pix val => formatP pix 0x1A6#9 val
  | .pokeColor20 pix val => formatP pix 0x1A8#9 val
  | .pokeColor21 pix val => formatP pix 0x1AA#9 val
  | .pokeColor22 pix val => formatP pix 0x1AC#9 val
  | .pokeColor23 pix val => formatP pix 0x1AE#9 val
  | .pokeColor24 pix val => formatP pix 0x1B0#9 val
  | .pokeColor25 pix val => formatP pix 0x1B2#9 val
  | .pokeColor26 pix val => formatP pix 0x1B4#9 val
  | .pokeColor27 pix val => formatP pix 0x1B6#9 val
  | .pokeColor28 pix val => formatP pix 0x1B8#9 val
  | .pokeColor29 pix val => formatP pix 0x1BA#9 val
  | .pokeColor30 pix val => formatP pix 0x1BC#9 val
  | .pokeColor31 pix val => formatP pix 0x1BE#9 val
  | .pokeUnmapped reg pix val => formatP pix reg val
  | .draw hires n => formatD hires n
  | .beginLine first vpos => formatB first vpos
  | .endLine vf hf hopen hclose vpos => formatE vf hf hopen hclose vpos
  | .inspect => formatZ cmdInspect
  | .reset => formatZ cmdReset
  | .nop => formatZ cmdNop

end Sys2Proof
end

