-- ==== Sys2Proof/Config.lean ====
section
/-! DEFINITION. The implementation parameters of 00_scope.md R7, "which the model takes as arguments", and the one value
no rule states. -/

namespace Sys2Proof

/-- What a reserved priority code 5, 6 or 7 does (42_playfield_resolver.md R162). -/
inductive PrioReservedPolicy where
  /-- the poke faults with `PRIORITY_RESERVED` (the default) -/
  | fault
  /-- the code is treated as code 4 -/
  | clamp4
deriving DecidableEq, Repr

/-- The open parameters of 00_scope.md R7. Nothing in the model writes one. -/
structure Config where
  /-- `LINE_PIXELS`, `L`: nominal line length in buffer pixels -/
  linePixels : Nat
  /-- `BUF_PIXELS`, `B`: cells of each pixel buffer -/
  bufPixels : Nat
  /-- `LOG_CAP`: real entries the change log holds in one line -/
  logCap : Nat
  /-- `FIRST_VISIBLE_LINE`: smallest vertical position on which END runs the full pipeline -/
  firstVisibleLine : Nat
  /-- `WRAP_TAIL`: whether a visible END copies the tail to the buffer start -/
  wrapTail : Bool := true
  /-- `PRIO_RESERVED_POLICY` -/
  prioReservedPolicy : PrioReservedPolicy := .fault
deriving DecidableEq, Repr

/-- The constraints of 00_scope.md R7: `L <= B <= 4094` and `LOG_CAP >= 1`. -/
abbrev Config.Valid (c : Config) : Prop :=
  c.linePixels ≤ c.bufPixels ∧ c.bufPixels ≤ 4094 ∧ 1 ≤ c.logCap

/-- The test configuration of 00_scope.md R8. DESIGN CHOICE (log entry 1): the machine that `State.reset` names has it. -/
def Config.testConfiguration : Config :=
  { linePixels := 64, bufPixels := 80, logCap := 4, firstVisibleLine := 26 }

/-- FREE VALUE (log entry 6): the depth tag of a reserved priority code 5, 6 or 7 under the policy `FAULT`. R161 states a
tag only for the codes 0 to 4 and, under `CLAMP4`, for 5 to 7; R162 keeps a reserved code out of every register under
`FAULT`, so no state that a run reaches applies this. It has no body: nothing can be proved of its value. -/
opaque Config.unstatedPriorityTag : BitVec 3 → DepthTag

end Sys2Proof
end

