-- ==== Sys2Proof/Machine/State.lean ====
section
/-! DEFINITION. The state of the pipeline (10_state.md), the events it emits (20_memory.md R84), and the machine around it:
the pipeline's record, its parameters, its output trace and the commands the host has issued and it has not yet run. -/

namespace Sys2Proof.Machine

/-! ### Pixel buffers -/

/-- A pixel buffer (R73): cell values by index, in one canonical form (`Buffer.wf`). A cell that is not listed holds
`unlistedCell`. -/
abbrev Buffer (w : Nat) := List (Nat × BitVec w)

/-- What a cell that is not listed holds: the reset value of every cell of `raw`, `cidx` and `depth` (R30, R290). -/
def unlistedCell (w : Nat) : BitVec w := 0#w

/-! ### The record of 10_state.md R30 -/

/-- `reg` of a change-log entry (R43). -/
inductive LogReg where
  | bplcon0
  | bplcon1
  | bplcon2
  /-- `NONE`, only in the sentinel the replay appends -/
  | noReg
deriving DecidableEq, Repr

/-- An entry `(reg, value, pos)` of the change log (R43). -/
structure LogEntry where
  reg : LogReg
  value : Word16
  pos : Nat
deriving DecidableEq, Repr

/-- `phase` (R44). -/
inductive Phase where
  | idle
  | inLine
deriving DecidableEq, Repr

/-- The fault codes (60_exceptions.md R261). -/
inductive FaultCode where
  | illegalCommand
  | drawOutOfBounds
  | logOverflow
  | logOrder
  | logPosition
  | logBadTarget
  | priorityReserved
  | sequence
  | bufferIndex
deriving DecidableEq, Repr

/-- The fields of one sprite (R42). -/
structure Sprite where
  hstart : BitVec 11
  dataA : Word16
  dataB : Word16
  armed : Bool
  attach : Bool
deriving DecidableEq, Repr

/-- The reset value of a sprite (R30). -/
def Sprite.powerOn : Sprite := { hstart := 0#11, dataA := 0#16, dataB := 0#16, armed := false, attach := false }

/-- The state record of the pipeline, field by field as R30 lists it, "and nothing else". -/
structure Pipeline where
  /-- live primary bitplane control register (R31) -/
  bplcon0 : Word16
  /-- live secondary bitplane control register (R32) -/
  bplcon1 : Word16
  /-- live tertiary bitplane control register (R33) -/
  bplcon2 : Word16
  /-- begin-of-line snapshot of `bplcon0` (R36) -/
  snap0 : Word16
  /-- begin-of-line snapshot of `bplcon1` (R36) -/
  snap1 : Word16
  /-- begin-of-line snapshot of `bplcon2` (R36) -/
  snap2 : Word16
  /-- the shift register of bitplane `k + 1` at index `k`, `SHIFT_W = 32` bits (R37) -/
  shiftReg : Vector (BitVec 32) 6
  /-- current pixel cursor (R38) -/
  cursor : Nat
  /-- rawBuffer (R39) -/
  raw : Buffer 6
  /-- colorIndexBuffer (R40) -/
  cidx : Buffer 6
  /-- depthBuffer (R41) -/
  depth : Buffer 16
  /-- the eight sprites (R42) -/
  spr : Vector Sprite 8
  /-- the register change log, oldest entry first (R43) -/
  log : List LogEntry
  /-- orchestrator phase (R44) -/
  phase : Phase
  /-- vertical position given to the last BEGIN (R45) -/
  lineVpos : BitVec 12
  /-- sticky fault status (R46) -/
  fault : Option FaultCode
deriving DecidableEq, Repr

/-- The power-on state of the pipeline (70_reset_and_hazards.md R290): every field at the reset value of R30. -/
def Pipeline.powerOn : Pipeline :=
  { bplcon0 := 0#16, bplcon1 := 0#16, bplcon2 := 0#16, snap0 := 0#16, snap1 := 0#16, snap2 := 0#16,
    shiftReg := Vector.replicate 6 0#32, cursor := 0, raw := [], cidx := [], depth := [],
    spr := Vector.replicate 8 Sprite.powerOn, log := [], phase := .idle, lineVpos := 0#12, fault := none }

/-! ### Output events -/

/-- The introspection snapshot (46_interface_misc.md R243). -/
structure Snapshot where
  bplcon0 : Word16
  bplcon1 : Word16
  bplcon2 : Word16
  snap0 : Word16
  snap1 : Word16
  snap2 : Word16
  scroll1 : BitVec 4
  scroll2 : BitVec 4
  dual : Bool
  prio1 : DepthTag
  prio2 : DepthTag
  prio12 : DepthTag
  pf2pri : Bool
  shiftReg : Vector (BitVec 32) 6
  spr : Vector Sprite 8
  cursor : Nat
  phase : Phase
  lineVpos : BitVec 12
  logLength : Nat
  log : List LogEntry
  fault : Option FaultCode
deriving DecidableEq, Repr

/-- The two line commands, as a `SEQUENCE` fault names them (R222). -/
inductive LineCommand where
  | beginLine
  | endLine
deriving DecidableEq, Repr

/-- The `info` of a fault (60_exceptions.md R261). -/
inductive FaultInfo where
  /-- `ILLEGAL_COMMAND`: the command word -/
  | word (w : CommandWord)
  /-- `DRAW_OUT_OF_BOUNDS`: `(cursor, N, H)` -/
  | drawAt (cursor : Nat) (n : Position) (hires : Bool)
  /-- `LOG_OVERFLOW` and `LOG_POSITION`: `(reg, pos)` -/
  | logAt (reg : LogReg) (pos : Nat)
  /-- `LOG_ORDER`: `(reg, pos, lastPos)` -/
  | logAfter (reg : LogReg) (pos lastPos : Nat)
  /-- `LOG_BAD_TARGET`: the entry -/
  | entry (e : LogEntry)
  /-- `PRIORITY_RESERVED`: the BPLCON2 value -/
  | value (v : Word16)
  /-- `SEQUENCE`: `(command, phase)` -/
  | sequence (command : LineCommand) (phase : Phase)
  /-- `BUFFER_INDEX`: the index -/
  | index (i : Nat)
  /-- `BUFFER_INDEX`: the range -/
  | range (start stop : Nat)
deriving DecidableEq, Repr

/-- The output events (20_memory.md R84). -/
inductive Event where
  /-- the finished colour indices of a visible line, cells `[0, L)` (R227) -/
  | colorize (vpos : Position) (cidx : List ColourIndex)
  /-- the DMA-debug overlay hook of a non-visible line (R225) -/
  | debugOverlay (vpos : Position)
  /-- the collision hook with the line's ownership, cells `[0, L)` (R197) -/
  | collisionHook (depth : List DepthTag) (cidx : List ColourIndex)
  /-- a colour register write for the colour stage (R240) -/
  | colorPoke (n : Fin 32) (value : Word16) (pos : Position)
  /-- an introspection snapshot (R242) -/
  | inspect (snapshot : Snapshot)
  /-- a fault report (R262) -/
  | faulted (code : FaultCode) (info : FaultInfo)
deriving DecidableEq, Repr

/-! ### The machine -/

/-- The machine: the pipeline with its parameters, its output trace and its input. R30's record is `pipe` alone; the other
three fields are the model's own (log entries 1, 2 and 5). -/
structure State where
  /-- the parameters of 00_scope.md R7, "arguments" of the model; no step changes them (log entry 1) -/
  config : Config
  /-- the state record of R30 -/
  pipe : Pipeline
  /-- the output trace, in emission order, oldest event first (R84; log entry 5) -/
  trace : List Event
  /-- the commands the host has issued and the pipeline has not yet run, next one first (R53, R82; log entry 2) -/
  pending : List CommandWord
deriving DecidableEq, Repr

/-- A freshly built machine with the parameters `c` (70_reset_and_hazards.md R290): the power-on pipeline, nothing emitted
and no command issued. -/
def State.powerOn (c : Config) : State :=
  { config := c, pipe := Pipeline.powerOn, trace := [], pending := [] }

/-- The machine right after power-on, in the test configuration of 00_scope.md R8 (DESIGN CHOICE, log entry 1: R7 leaves the
parameters open, and every statement is about all of them). -/
def State.reset : State := State.powerOn Config.testConfiguration

/-! ### How a step can stop -/

/-- Reasons for which a step stops the model with a fault. There is none, and nothing raises one: a fault of the pipeline is a
state of the pipeline (`Pipeline.fault`), which the spec describes whole (60_exceptions.md R262 to R264), so the command
that faults takes a next state. Safe: no behaviour of the pipeline is cut off (log entry 4). -/
inductive Fault where
deriving DecidableEq, Repr

/-- Reasons for which a step is refused. -/
inductive Refusal where
  /-- raised by an arm of `exec` whose command has no meaning yet; every command has one, so no step answers it. Safe: it
  would only stop the model. -/
  | notModelled (mnemonic : String)
deriving DecidableEq, Repr

end Sys2Proof.Machine
end

