-- ==== Sys2Proof/Machine/Ops.lean ====
section
/-! DEFINITION. The named operations over the state: cells of the pixel buffers, bounded loops, sprites and shift
registers, and how a command runs, faults (60_exceptions.md) and is discarded. -/

namespace Sys2Proof.Machine

/-! ### Cells of a pixel buffer (20_memory.md R73, R74) -/

/-- The value of cell `i`. -/
def readCell {w : Nat} : Buffer w → Nat → BitVec w
  | [], _ => unlistedCell w
  | (j, v) :: rest, i => if j = i then v else readCell rest i

/-- The buffer without an entry for cell `i`. -/
def eraseCell {w : Nat} : Buffer w → Nat → Buffer w
  | [], _ => []
  | (j, v) :: rest, i => if j = i then eraseCell rest i else (j, v) :: eraseCell rest i

/-- The buffer with an entry for cell `i` in its place in the order. -/
def insertCell {w : Nat} : Buffer w → Nat → BitVec w → Buffer w
  | [], i, v => [(i, v)]
  | (j, u) :: rest, i, v => if i < j then (i, v) :: (j, u) :: rest else (j, u) :: insertCell rest i v

/-- The buffer with the value `v` in cell `i`, in canonical form: the value an unlisted cell holds is not listed. -/
def writeCell {w : Nat} (buf : Buffer w) (i : Nat) (v : BitVec w) : Buffer w :=
  if v = unlistedCell w then eraseCell buf i else insertCell (eraseCell buf i) i v

/-- The canonical form: indices strictly rising, and no cell listed with the value an unlisted one holds. -/
def Buffer.wf {w : Nat} (buf : Buffer w) : Bool :=
  decide (buf.Pairwise (fun a b => a.1 < b.1)) && buf.all (fun cell => cell.2 != unlistedCell w)

/-- The three pixel buffers are in canonical form. -/
def Memory.wf (p : Pipeline) : Bool := Buffer.wf p.raw && Buffer.wf p.cidx && Buffer.wf p.depth

/-- Cells `[0, n)` as a list, as an event carries them (R84). -/
def cellsBelow {w : Nat} (buf : Buffer w) (n : Nat) : List (BitVec w) := (List.range n).map (readCell buf)

/-! ### Faults inside a command -/

/-- What `raise Fault(code, info)` hands out of a command (00_scope.md R11). -/
structure Raise where
  code : FaultCode
  info : FaultInfo
deriving DecidableEq, Repr

/-- `raise Fault(code, info)` (R11). -/
def raiseFault {α : Type} (code : FaultCode) (info : FaultInfo) : Except Raise α := .error ⟨code, info⟩

/-- The number of a fault code, with 0 for `none` (R261). -/
def faultNumber : Option FaultCode → Nat
  | none => 0
  | some .illegalCommand => 1
  | some .drawOutOfBounds => 2
  | some .logOverflow => 3
  | some .logOrder => 4
  | some .logPosition => 5
  | some .logBadTarget => 6
  | some .priorityReserved => 7
  | some .sequence => 8
  | some .bufferIndex => 9

/-- The code of a log register (R43). -/
def logRegCode : LogReg → Nat
  | .bplcon0 => 0
  | .bplcon1 => 1
  | .bplcon2 => 2
  | .noReg => 3

/-- `BufRead(buf, i)` (R11): an index at or past `B` raises `BUFFER_INDEX`. -/
def bufRead {w : Nat} (c : Config) (buf : Buffer w) (i : Nat) : Except Raise (BitVec w) :=
  if c.bufPixels ≤ i then raiseFault .bufferIndex (.index i) else .ok (readCell buf i)

/-- `BufWrite(buf, i, v)` (R11): an index at or past `B` raises `BUFFER_INDEX` before any write. -/
def bufWrite {w : Nat} (c : Config) (buf : Buffer w) (i : Nat) (v : BitVec w) : Except Raise (Buffer w) :=
  if c.bufPixels ≤ i then raiseFault .bufferIndex (.index i) else .ok (writeCell buf i v)

/-! ### Loops (00_scope.md R11) -/

/-- `count` rounds of `body`, at `start`, `start + 1`, … . -/
def loopUp {σ : Type} (body : Nat → σ → Except Raise σ) : Nat → Nat → σ → Except Raise σ
  | _, 0, s => .ok s
  | start, count + 1, s => (body start s).bind (loopUp body (start + 1) count)

/-- `count` rounds of `body`, at `start + count - 1`, …, `start`. -/
def loopDown {σ : Type} (body : Nat → σ → Except Raise σ) (start : Nat) : Nat → σ → Except Raise σ
  | 0, s => .ok s
  | count + 1, s => (body (start + count) s).bind (loopDown body start count)

/-- `for i in [a, b)`: increasing, zero rounds when `a >= b`. -/
def forRange {σ : Type} (a b : Nat) (body : Nat → σ → Except Raise σ) (s : σ) : Except Raise σ :=
  loopUp body a (b - a) s

/-- `for i in [a, b) descending`. -/
def forRangeDown {σ : Type} (a b : Nat) (body : Nat → σ → Except Raise σ) (s : σ) : Except Raise σ :=
  loopDown body a (b - a) s

/-! ### Shift registers and sprites -/

/-- The shift register of plane `k` (R37). -/
def Pipeline.plane (p : Pipeline) (k : Fin 6) : BitVec 32 := p.shiftReg[k]

/-- Sprite `x` (R42). -/
def Pipeline.sprite (p : Pipeline) (x : Fin 8) : Sprite := p.spr[x]

/-- The pipeline with the shift register of plane `k` set to `v`. -/
def Pipeline.setShiftReg (p : Pipeline) (k : Fin 6) (v : BitVec 32) : Pipeline :=
  { p with shiftReg := p.shiftReg.set k v }

/-- The pipeline with sprite `x` set to `sp`. -/
def Pipeline.setSprite (p : Pipeline) (x : Fin 8) (sp : Sprite) : Pipeline :=
  { p with spr := p.spr.set x sp }

/-- The pipeline with every sprite's `armed` flag cleared (R195). -/
def Pipeline.disarmAll (p : Pipeline) : Pipeline :=
  { p with spr := Vector.ofFn fun x : Fin 8 => { p.sprite x with armed := false } }

/-! ### Running a command (60_exceptions.md) -/

/-- What a command does to the pipeline: the fault it raises, or the state it leaves and the events it emits, in order. It
works on a copy, which `runCommand` commits only when no fault arose (R263). -/
abbrev Command := Config → Pipeline → Except Raise (Pipeline × List Event)

/-- Taking a fault (R262, R263): the state is the one before the command with `fault` set, everything the command emitted is
gone, and `Faulted(code, info)` is the last event. Nothing else is saved and control goes nowhere (R268). There is no
return from a fault (R269). -/
def takeFault (r : Raise) (s : State) : State :=
  { s with pipe := { s.pipe with fault := some r.code }, trace := s.trace ++ [.faulted r.code r.info] }

/-- The state a completed command leaves. -/
def commit (p : Pipeline) (events : List Event) (s : State) : State :=
  { s with pipe := p, trace := s.trace ++ events }

/-- Running a command: discarded when the pipeline is faulted (R264), else committed or undone as a whole (R263). -/
def runCommand (command : Command) (s : State) : Host.Outcome State Fault Refusal :=
  match s.pipe.fault with
  | some _ => .next s
  | none =>
    match command s.config s.pipe with
    | .ok (p, events) => .next (commit p events s)
    | .error r => .next (takeFault r s)

/-- A word that decodes to no command raises `ILLEGAL_COMMAND` with the word as its info (30_encoding.md R96). -/
def illegalCommand (w : CommandWord) : Command :=
  fun _ _ => raiseFault .illegalCommand (.word w)

/-- The next command the host has issued, and the state in which it runs (R82). -/
def fetch (s : State) : Option (CommandWord × State) :=
  match s.pending with
  | [] => none
  | w :: rest => some (w, { s with pending := rest })

/-- The state with `w` as the next command the host issues. -/
def issueNext (w : CommandWord) (s : State) : State := { s with pending := w :: s.pending }

end Sys2Proof.Machine
end

