-- ==== Sys2Proof/Machine/Operands.lean ====
section
/-! DEFINITION. What the commands compute from the register fields: scroll offsets (10_state.md R34), depth tags and priorities
(42_playfield_resolver.md R160, R161), sprite tags, base colours and colour codes (43_sprite_compositor.md). -/

namespace Sys2Proof.Machine

/-! ### Scroll offsets -/

/-- PF1H, the scroll offset of the odd planes (R32). -/
def pf1h (bplcon1 : Word16) : BitVec 4 := bplcon1.extractLsb' 0 4

/-- PF2H, the scroll offset of the even planes (R32). -/
def pf2h (bplcon1 : Word16) : BitVec 4 := bplcon1.extractLsb' 4 4

/-- `scroll(k)` (R34): plane `k + 1` is an odd plane when `k` is 0, 2 or 4. -/
def scroll (bplcon1 : Word16) (k : Fin 6) : Nat :=
  if k.val % 2 = 0 then (pf1h bplcon1).toNat else (pf2h bplcon1).toNat

/-! ### Depth tags (R160) -/

/-- `Z_0` to `Z_4`: playfields by priority code. -/
def z0 : DepthTag := 0x8000#16
def z1 : DepthTag := 0x1000#16
def z2 : DepthTag := 0x0200#16
def z3 : DepthTag := 0x0040#16
def z4 : DepthTag := 0x0008#16

/-- `Z_DPF`, the dual-playfield marker. -/
def zDpf : DepthTag := 0x0001#16

/-- `Z_BG`, the single-playfield background. -/
def zBg : DepthTag := 0x0000#16

/-- `SprTag(x)`, the fixed depth tag of sprite `x` (R185). -/
def sprTag (x : Fin 8) : DepthTag :=
  match x with
  | 0 => 0x4000#16
  | 1 => 0x2000#16
  | 2 => 0x0800#16
  | 3 => 0x0400#16
  | 4 => 0x0100#16
  | 5 => 0x0080#16
  | 6 => 0x0020#16
  | 7 => 0x0010#16

/-! ### Priorities (R161) -/

/-- PF1P, playfield 1's priority code (R33). -/
def pf1p (bplcon2 : Word16) : BitVec 3 := bplcon2.extractLsb' 0 3

/-- PF2P, playfield 2's priority code (R33). -/
def pf2p (bplcon2 : Word16) : BitVec 3 := bplcon2.extractLsb' 3 3

/-- `Z(code)` (R161). The tag of a reserved code under the policy `FAULT` is a free value (log entry 6). -/
def priorityTag (c : Config) (code : BitVec 3) : DepthTag :=
  if code = 0#3 then z0
  else if code = 1#3 then z1
  else if code = 2#3 then z2
  else if code = 3#3 then z3
  else if code = 4#3 then z4
  else if c.prioReservedPolicy = .clamp4 then z4
  else Config.unstatedPriorityTag code

/-- `prio1` of a BPLCON2 value (R161). -/
def prio1 (c : Config) (bplcon2 : Word16) : DepthTag := priorityTag c (pf1p bplcon2)

/-- `prio2` of a BPLCON2 value (R161). -/
def prio2 (c : Config) (bplcon2 : Word16) : DepthTag := priorityTag c (pf2p bplcon2)

/-- `prio12` of a BPLCON2 value, "plus their max" (R161). -/
def prio12 (c : Config) (bplcon2 : Word16) : DepthTag :=
  if prio1 c bplcon2 < prio2 c bplcon2 then prio2 c bplcon2 else prio1 c bplcon2

/-! ### Sprite pairs and colour codes (R186 to R189) -/

/-- The even sprite of pair `p` (R186). -/
def evenSprite (p : Fin 4) : Fin 8 := ⟨2 * p.val, by omega⟩

/-- The odd sprite of pair `p` (R186). -/
def oddSprite (p : Fin 4) : Fin 8 := ⟨2 * p.val + 1, by omega⟩

/-- `Base(p)`, the base colour of pair `p` (R186). -/
def baseColour (p : Fin 4) : ColourIndex := BitVec.ofNat 6 (16 + 4 * p.val)

/-- Bit `15 - j` of a pattern word, the word's pixel `j` (R187), of an armed sprite; an unarmed sprite's bits read 0. -/
def patternBit (armed : Bool) (word : Word16) (j : Nat) : BitVec 1 :=
  BitVec.ofBool (armed && decide (j ≤ 15) && word.getLsbD (15 - j))

/-- `Code2(x, j)`, the 2-bit code of pixel `j` of an independently drawn sprite (R187). -/
def code2 (sp : Sprite) (j : Nat) : BitVec 2 :=
  patternBit sp.armed sp.dataB j ++ patternBit sp.armed sp.dataA j

/-- `Code4(p, j)`, the 4-bit code of pixel `j` of an attached pair (R189): the even sprite's bits below the odd one's. -/
def code4 (even odd : Sprite) (j : Nat) : BitVec 4 :=
  patternBit odd.armed odd.dataB j ++ patternBit odd.armed odd.dataA j
    ++ patternBit even.armed even.dataB j ++ patternBit even.armed even.dataA j

/-- The colour index of pixel `j` of an independently drawn sprite of pair `p`, 0 when transparent (R187, R194). -/
def independentColour (p : Fin 4) (sp : Sprite) (j : Nat) : ColourIndex :=
  if code2 sp j = 0#2 then 0#6 else baseColour p + (code2 sp j).setWidth 6

/-- The colour index of pixel `j` of an attached pair, 0 when transparent (R189, R194). -/
def attachedColour (even odd : Sprite) (j : Nat) : ColourIndex :=
  if code4 even odd j = 0#4 then 0#6 else 16#6 + (code4 even odd j).setWidth 6

/-! ### Window positions and the border colour -/

/-- `UNSET`, the "not set this line" value of a window coordinate (R7, R214). -/
def unset : Position := 0xFFF#12

/-- `BORDER_INDEX`, the colour index of the border (R7, R213). -/
def borderIndex : ColourIndex := 0#6

end Sys2Proof.Machine
end

