-- ==== Sys2Proof/Machine/Flags.lean ====
section
/-! DEFINITION. The one-bit conditions the commands compute. The pipeline has no condition codes (10_state.md R48); these are the
control-register flags and the tests its rules make. -/

namespace Sys2Proof.Machine

/-- DBLPF, bit 10 of a BPLCON0 value: dual-playfield resolution (R31). -/
def dblpf (bplcon0 : Word16) : Bool := bplcon0.getLsbD 10

/-- PF2PRI, bit 6 of a BPLCON2 value: playfield 2 in front (R33, R168). -/
def pf2pri (bplcon2 : Word16) : Bool := bplcon2.getLsbD 6

/-- A BPLCON2 value with a reserved priority code, 5, 6 or 7 (R162). -/
def reservedPriority (bplcon2 : Word16) : Bool :=
  decide (5 ≤ (pf1p bplcon2).toNat) || decide (5 ≤ (pf2p bplcon2).toNat)

/-- A line whose vertical position is at or past the threshold runs the full pipeline (R225). -/
def lineVisible (c : Config) (vpos : Position) : Bool := decide (c.firstVisibleLine ≤ vpos.toNat)

/-- Some sprite is armed (R199). -/
def anyArmed (p : Pipeline) : Bool := (List.finRange 8).any fun x => (p.sprite x).armed

/-- `Attached(p)` (R188): the odd sprite's attach flag, equal starts, and at least one of the two armed. -/
def attached (even odd : Sprite) : Bool :=
  odd.attach && decide (even.hstart = odd.hstart) && (even.armed || odd.armed)

/-- The horizontal window is or becomes open on the line (R210). -/
def windowOpened (hf : Bool) (hopen : Position) : Bool := hf || decide (hopen ≠ unset)

end Sys2Proof.Machine
end

