-- ==== Sys2Proof/Machine/Playfield.lean ====
section
/-! DEFINITION. PlayfieldResolver (42_playfield_resolver.md): the resolution of a segment of the line. -/

namespace Sys2Proof.Machine

/-- What a raw value resolves to. -/
structure Pixel where
  colour : ColourIndex
  tag : DepthTag
deriving DecidableEq, Repr

/-- A cell in single-playfield mode (R164): the raw value is the colour index, and PF2P gives the priority. -/
def singlePixel (c : Config) (bplcon2 : Word16) (v : ColourIndex) : Pixel :=
  ⟨v, if v ≠ 0#6 then prio2 c bplcon2 else zBg⟩

/-- Playfield 1's index, the odd planes' bits (R165). -/
def playfield1 (v : ColourIndex) : BitVec 3 :=
  BitVec.ofBool (v.getLsbD 4) ++ BitVec.ofBool (v.getLsbD 2) ++ BitVec.ofBool (v.getLsbD 0)

/-- Playfield 2's index, the even planes' bits (R165). -/
def playfield2 (v : ColourIndex) : BitVec 3 :=
  BitVec.ofBool (v.getLsbD 5) ++ BitVec.ofBool (v.getLsbD 3) ++ BitVec.ofBool (v.getLsbD 1)

/-- A cell in dual-playfield mode (R165, the table of R167). -/
def dualPixel (c : Config) (bplcon2 : Word16) (v : ColourIndex) : Pixel :=
  let i1 := playfield1 v
  let i2 := playfield2 v
  let front1 : Pixel := ⟨i1.setWidth 6, prio1 c bplcon2 ||| zDpf⟩
  let front2 : Pixel := ⟨i2.setWidth 6 + 8#6, prio2 c bplcon2 ||| zDpf⟩
  if i1 ≠ 0#3 ∧ i2 ≠ 0#3 then (if pf2pri bplcon2 then front2 else front1)
  else if i1 ≠ 0#3 then front1
  else if i2 ≠ 0#3 then front2
  else ⟨0#6, zDpf⟩

/-- One cell of a resolver's loop: read, write `cidx` and `depth`, and zero the raw cell (R164, R165, R169). -/
def resolveCell (c : Config) (pixel : ColourIndex → Pixel) (i : Nat) (p : Pipeline) : Except Raise Pipeline := do
  let v ← bufRead c p.raw i
  let cidx ← bufWrite c p.cidx i (pixel v).colour
  let depth ← bufWrite c p.depth i (pixel v).tag
  let raw ← bufWrite c p.raw i 0#6
  return { p with cidx := cidx, depth := depth, raw := raw }

/-- `ResolveSingle(from, to, c)` (R164). -/
def resolveSingle (c : Config) (start stop : Nat) (bplcon2 : Word16) (p : Pipeline) : Except Raise Pipeline :=
  forRange start stop (resolveCell c (singlePixel c bplcon2)) p

/-- `ResolveDual(from, to, c)` (R165). -/
def resolveDual (c : Config) (start stop : Nat) (bplcon2 : Word16) (p : Pipeline) : Except Raise Pipeline :=
  forRange start stop (resolveCell c (dualPixel c bplcon2)) p

/-- `ResolveSegment(from, to, a0, a2)` (R166). -/
def resolveSegment (c : Config) (start stop : Nat) (bplcon0 bplcon2 : Word16) (p : Pipeline) : Except Raise Pipeline :=
  if c.bufPixels < stop then raiseFault .bufferIndex (.range start stop)
  else if dblpf bplcon0 then resolveDual c start stop bplcon2 p
  else resolveSingle c start stop bplcon2 p

end Sys2Proof.Machine
end

