-- ==== Sys2Proof/Machine/ChangeLog.lean ====
section
/-! DEFINITION. RegisterChangeLog (41_change_log.md): the three control register pokes, `record`, and the replay. -/

namespace Sys2Proof.Machine

/-! ### Record -/

/-- `Record(reg, value, pos)` (R143): nothing outside a line; else the three checks in order, and the entry at the log's end. -/
def recordChange (c : Config) (reg : LogReg) (value : Word16) (pos : Nat) (p : Pipeline) : Except Raise Pipeline :=
  match p.phase with
  | .idle => .ok p
  | .inLine =>
    if c.linePixels < pos then raiseFault .logPosition (.logAt reg pos)
    else
      match p.log.getLast? with
      | some last =>
        if pos < last.pos then raiseFault .logOrder (.logAfter reg pos last.pos)
        else if p.log.length = c.logCap then raiseFault .logOverflow (.logAt reg pos)
        else .ok { p with log := p.log ++ [⟨reg, value, pos⟩] }
      | none =>
        if p.log.length = c.logCap then raiseFault .logOverflow (.logAt reg pos)
        else .ok { p with log := p.log ++ [⟨reg, value, pos⟩] }

/-! ### Control register pokes -/

/-- `CheckPriority(c)` (42_playfield_resolver.md R162). -/
def checkPriority (c : Config) (val : Word16) : Except Raise Unit :=
  if reservedPriority val ∧ c.prioReservedPolicy = .fault then raiseFault .priorityReserved (.value val) else .ok ()

/-- POKE.BPLCON0 (R140). -/
def pokePrimary (pix : Position) (val : Word16) : Command := fun c p => do
  let q ← recordChange c .bplcon0 val pix.toNat p
  return ({ q with bplcon0 := val }, [])

/-- POKE.BPLCON1 (R141). -/
def pokeSecondary (pix : Position) (val : Word16) : Command := fun c p => do
  let q ← recordChange c .bplcon1 val pix.toNat p
  return ({ q with bplcon1 := val }, [])

/-- POKE.BPLCON2 (R142): the priority check comes before the log's. -/
def pokeTertiary (pix : Position) (val : Word16) : Command := fun c p => do
  checkPriority c val
  let q ← recordChange c .bplcon2 val pix.toNat p
  return ({ q with bplcon2 := val }, [])

def execPokeBplcon0 (pix : Position) (val : Word16) (s : State) : Host.Outcome State Fault Refusal :=
  runCommand (pokePrimary pix val) s
def execPokeBplcon1 (pix : Position) (val : Word16) (s : State) : Host.Outcome State Fault Refusal :=
  runCommand (pokeSecondary pix val) s
def execPokeBplcon2 (pix : Position) (val : Word16) (s : State) : Host.Outcome State Fault Refusal :=
  runCommand (pokeTertiary pix val) s

/-! ### Replay -/

/-- The control register values in effect at a point of the replay, its local variables `a0`, `a1`, `a2` (R147). -/
structure ActiveValues where
  a0 : Word16
  a1 : Word16
  a2 : Word16
deriving DecidableEq, Repr

/-- The values the replay starts from: the begin-of-line snapshot (R147). -/
def snapshotValues (p : Pipeline) : ActiveValues := ⟨p.snap0, p.snap1, p.snap2⟩

/-- `ApplyEntry(e)` (R148). -/
def applyEntry (e : LogEntry) (a : ActiveValues) : ActiveValues :=
  match e.reg with
  | .bplcon0 => { a with a0 := e.value }
  | .bplcon1 => { a with a1 := e.value }
  | .bplcon2 => { a with a2 := e.value }
  | .noReg => a

/-- `CheckTarget(e, isLast)` (R150). -/
def checkTarget (e : LogEntry) (isLast : Bool) : Except Raise Unit :=
  if e.reg = .noReg ∧ isLast = false then raiseFault .logBadTarget (.entry e) else .ok ()

/-- The sentinel `(NONE, 0, L)` (R146). -/
def sentinel (c : Config) : LogEntry := ⟨.noReg, 0#16, c.linePixels⟩

/-- The replay of the entries from position `prev` on, with the active values `a` (R147). -/
def replayEntries (c : Config) : List LogEntry → ActiveValues → Nat → Pipeline → Except Raise Pipeline
  | [], _, _, p => .ok p
  | e :: rest, a, prev, p => do
    checkTarget e rest.isEmpty
    let p ← resolveSegment c prev e.pos a.a0 a.a2 p
    replayEntries c rest (applyEntry e a) e.pos p

/-- `Replay()` (R147). -/
def replay (c : Config) (p : Pipeline) : Except Raise Pipeline := do
  let q ← replayEntries c (p.log ++ [sentinel c]) (snapshotValues p) 0 p
  return { q with log := [] }

end Sys2Proof.Machine
end

