-- ==== Sys2Proof/Machine/Interface.lean ====
section
/-! DEFINITION. The interface commands (46_interface_misc.md): colour pokes, INSPECT, RESET, unmapped pokes and NOP. -/

namespace Sys2Proof.Machine

/-! ### Colour registers -/

/-- POKE.COLORnn (R240): forwarded to the colour stage, unchecked. -/
def forwardColour (n : Fin 32) (pix : Position) (val : Word16) : Command := fun _ p =>
  .ok (p, [.colorPoke n val pix])

def execPokeColor00 (pix : Position) (val : Word16) (s : State) : Host.Outcome State Fault Refusal :=
  runCommand (forwardColour 0 pix val) s
def execPokeColor01 (pix : Position) (val : Word16) (s : State) : Host.Outcome State Fault Refusal :=
  runCommand (forwardColour 1 pix val) s
def execPokeColor02 (pix : Position) (val : Word16) (s : State) : Host.Outcome State Fault Refusal :=
  runCommand (forwardColour 2 pix val) s
def execPokeColor03 (pix : Position) (val : Word16) (s : State) : Host.Outcome State Fault Refusal :=
  runCommand (forwardColour 3 pix val) s
def execPokeColor04 (pix : Position) (val : Word16) (s : State) : Host.Outcome State Fault Refusal :=
  runCommand (forwardColour 4 pix val) s
def execPokeColor05 (pix : Position) (val : Word16) (s : State) : Host.Outcome State Fault Refusal :=
  runCommand (forwardColour 5 pix val) s
def execPokeColor06 (pix : Position) (val : Word16) (s : State) : Host.Outcome State Fault Refusal :=
  runCommand (forwardColour 6 pix val) s
def execPokeColor07 (pix : Position) (val : Word16) (s : State) : Host.Outcome State Fault Refusal :=
  runCommand (forwardColour 7 pix val) s
def execPokeColor08 (pix : Position) (val : Word16) (s : State) : Host.Outcome State Fault Refusal :=
  runCommand (forwardColour 8 pix val) s
def execPokeColor09 (pix : Position) (val : Word16) (s : State) : Host.Outcome State Fault Refusal :=
  runCommand (forwardColour 9 pix val) s
def execPokeColor10 (pix : Position) (val : Word16) (s : State) : Host.Outcome State Fault Refusal :=
  runCommand (forwardColour 10 pix val) s
def execPokeColor11 (pix : Position) (val : Word16) (s : State) : Host.Outcome State Fault Refusal :=
  runCommand (forwardColour 11 pix val) s
def execPokeColor12 (pix : Position) (val : Word16) (s : State) : Host.Outcome State Fault Refusal :=
  runCommand (forwardColour 12 pix val) s
def execPokeColor13 (pix : Position) (val : Word16) (s : State) : Host.Outcome State Fault Refusal :=
  runCommand (forwardColour 13 pix val) s
def execPokeColor14 (pix : Position) (val : Word16) (s : State) : Host.Outcome State Fault Refusal :=
  runCommand (forwardColour 14 pix val) s
def execPokeColor15 (pix : Position) (val : Word16) (s : State) : Host.Outcome State Fault Refusal :=
  runCommand (forwardColour 15 pix val) s
def execPokeColor16 (pix : Position) (val : Word16) (s : State) : Host.Outcome State Fault Refusal :=
  runCommand (forwardColour 16 pix val) s
def execPokeColor17 (pix : Position) (val : Word16) (s : State) : Host.Outcome State Fault Refusal :=
  runCommand (forwardColour 17 pix val) s
def execPokeColor18 (pix : Position) (val : Word16) (s : State) : Host.Outcome State Fault Refusal :=
  runCommand (forwardColour 18 pix val) s
def execPokeColor19 (pix : Position) (val : Word16) (s : State) : Host.Outcome State Fault Refusal :=
  runCommand (forwardColour 19 pix val) s
def execPokeColor20 (pix : Position) (val : Word16) (s : State) : Host.Outcome State Fault Refusal :=
  runCommand (forwardColour 20 pix val) s
def execPokeColor21 (pix : Position) (val : Word16) (s : State) : Host.Outcome State Fault Refusal :=
  runCommand (forwardColour 21 pix val) s
def execPokeColor22 (pix : Position) (val : Word16) (s : State) : Host.Outcome State Fault Refusal :=
  runCommand (forwardColour 22 pix val) s
def execPokeColor23 (pix : Position) (val : Word16) (s : State) : Host.Outcome State Fault Refusal :=
  runCommand (forwardColour 23 pix val) s
def execPokeColor24 (pix : Position) (val : Word16) (s : State) : Host.Outcome State Fault Refusal :=
  runCommand (forwardColour 24 pix val) s
def execPokeColor25 (pix : Position) (val : Word16) (s : State) : Host.Outcome State Fault Refusal :=
  runCommand (forwardColour 25 pix val) s
def execPokeColor26 (pix : Position) (val : Word16) (s : State) : Host.Outcome State Fault Refusal :=
  runCommand (forwardColour 26 pix val) s
def execPokeColor27 (pix : Position) (val : Word16) (s : State) : Host.Outcome State Fault Refusal :=
  runCommand (forwardColour 27 pix val) s
def execPokeColor28 (pix : Position) (val : Word16) (s : State) : Host.Outcome State Fault Refusal :=
  runCommand (forwardColour 28 pix val) s
def execPokeColor29 (pix : Position) (val : Word16) (s : State) : Host.Outcome State Fault Refusal :=
  runCommand (forwardColour 29 pix val) s
def execPokeColor30 (pix : Position) (val : Word16) (s : State) : Host.Outcome State Fault Refusal :=
  runCommand (forwardColour 30 pix val) s
def execPokeColor31 (pix : Position) (val : Word16) (s : State) : Host.Outcome State Fault Refusal :=
  runCommand (forwardColour 31 pix val) s

/-! ### Introspection -/

/-- `Snapshot()` (R243). -/
def takeSnapshot (c : Config) (p : Pipeline) : Snapshot :=
  { bplcon0 := p.bplcon0, bplcon1 := p.bplcon1, bplcon2 := p.bplcon2
    snap0 := p.snap0, snap1 := p.snap1, snap2 := p.snap2
    scroll1 := pf1h p.bplcon1, scroll2 := pf2h p.bplcon1
    dual := dblpf p.bplcon0
    prio1 := prio1 c p.bplcon2, prio2 := prio2 c p.bplcon2, prio12 := prio12 c p.bplcon2, pf2pri := pf2pri p.bplcon2
    shiftReg := p.shiftReg, spr := p.spr
    cursor := p.cursor, phase := p.phase, lineVpos := p.lineVpos
    logLength := p.log.length, log := p.log
    fault := none }

/-- INSPECT (R242). -/
def inspectPipeline : Command := fun c p => .ok (p, [.inspect (takeSnapshot c p)])

def execInspect (s : State) : Host.Outcome State Fault Refusal := runCommand inspectPipeline s

/-! ### Reset, unmapped pokes and NOP -/

/-- RESET (R244): every field but `fault` at its reset value (R245), and no event. -/
def resetPipeline : Command := fun _ p => .ok ({ Pipeline.powerOn with fault := p.fault }, [])

def execReset (s : State) : Host.Outcome State Fault Refusal := runCommand resetPipeline s

/-- A command with no effect. -/
def noEffect : Command := fun _ p => .ok (p, [])

/-- POKE.UNMAPPED (R246): a write to another chip, ignored. -/
def execPokeUnmapped (_reg : BitVec 9) (_pix : Position) (_val : Word16) (s : State) : Host.Outcome State Fault Refusal :=
  runCommand noEffect s

/-- NOP (R248). -/
def execNop (s : State) : Host.Outcome State Fault Refusal := runCommand noEffect s

end Sys2Proof.Machine
end

