-- ==== Sys2Proof/Machine/BorderSynthesizer.lean ====
section
/-! DEFINITION. BorderSynthesizer (44_border_synthesizer.md): blank lines and window borders. -/

namespace Sys2Proof.Machine

/-- `for i in [start, stop): BufWrite(cidx, i, BORDER_INDEX)` (R210). -/
def fillBorder (c : Config) (start stop : Nat) (p : Pipeline) : Except Raise Pipeline :=
  forRange start stop (fun i p => do
    let cidx ← bufWrite c p.cidx i borderIndex
    return { p with cidx := cidx }) p

/-- The left border, before a window that opens in the line (R210). -/
def fillLeft (c : Config) (hf : Bool) (hopen : Position) (p : Pipeline) : Except Raise Pipeline :=
  if hf = false ∧ hopen ≠ unset then fillBorder c 0 (min hopen.toNat c.linePixels) p else .ok p

/-- The right border, after a window that closes in the line (R210). -/
def fillRight (c : Config) (hclose : Position) (p : Pipeline) : Except Raise Pipeline :=
  if hclose ≠ unset ∧ hclose.toNat < c.linePixels then fillBorder c hclose.toNat c.linePixels p else .ok p

/-- `BorderFill(VF, HF, HOPEN, HCLOSE)` (R210): the whole line when it is blank, else the left and the right border. -/
def borderFill (c : Config) (vf hf : Bool) (hopen hclose : Position) (p : Pipeline) : Except Raise Pipeline :=
  if vf = false ∨ windowOpened hf hopen = false then fillBorder c 0 c.linePixels p
  else do
    let p ← fillLeft c hf hopen p
    fillRight c hclose p

end Sys2Proof.Machine
end

