-- ==== Sys2Proof/Machine/SpriteCompositor.lean ====
section
/-! DEFINITION. SpriteCompositor (43_sprite_compositor.md): the sprite pokes and `DrawAll`. -/

namespace Sys2Proof.Machine

/-! ### Sprite pokes -/

/-- POKE.SPRxPOS (R180): bits 8:1 of the horizontal start. -/
def pokeSpritePos (x : Fin 8) (val : Word16) : Command := fun _ p =>
  let sp := p.sprite x
  .ok (p.setSprite x { sp with hstart := 0#2 ++ val.extractLsb' 0 8 ++ sp.hstart.extractLsb' 0 1 }, [])

/-- POKE.SPRxCTL (R181): bit 0 of the horizontal start, and the attach flag. -/
def pokeSpriteCtl (x : Fin 8) (val : Word16) : Command := fun _ p =>
  let sp := p.sprite x
  .ok (p.setSprite x { sp with hstart := sp.hstart.extractLsb' 1 10 ++ val.extractLsb' 0 1, attach := val.getLsbD 7 }, [])

/-- POKE.SPRxDATA (R182): the first pattern word, which arms the sprite. -/
def pokeSpriteData (x : Fin 8) (val : Word16) : Command := fun _ p =>
  .ok (p.setSprite x { p.sprite x with dataA := val, armed := true }, [])

/-- POKE.SPRxDATB (R183): the second pattern word. -/
def pokeSpriteDatb (x : Fin 8) (val : Word16) : Command := fun _ p =>
  .ok (p.setSprite x { p.sprite x with dataB := val }, [])

def execPokeSpr0pos (_pix : Position) (val : Word16) (s : State) : Host.Outcome State Fault Refusal :=
  runCommand (pokeSpritePos 0 val) s
def execPokeSpr0ctl (_pix : Position) (val : Word16) (s : State) : Host.Outcome State Fault Refusal :=
  runCommand (pokeSpriteCtl 0 val) s
def execPokeSpr0data (_pix : Position) (val : Word16) (s : State) : Host.Outcome State Fault Refusal :=
  runCommand (pokeSpriteData 0 val) s
def execPokeSpr0datb (_pix : Position) (val : Word16) (s : State) : Host.Outcome State Fault Refusal :=
  runCommand (pokeSpriteDatb 0 val) s
def execPokeSpr1pos (_pix : Position) (val : Word16) (s : State) : Host.Outcome State Fault Refusal :=
  runCommand (pokeSpritePos 1 val) s
def execPokeSpr1ctl (_pix : Position) (val : Word16) (s : State) : Host.Outcome State Fault Refusal :=
  runCommand (pokeSpriteCtl 1 val) s
def execPokeSpr1data (_pix : Position) (val : Word16) (s : State) : Host.Outcome State Fault Refusal :=
  runCommand (pokeSpriteData 1 val) s
def execPokeSpr1datb (_pix : Position) (val : Word16) (s : State) : Host.Outcome State Fault Refusal :=
  runCommand (pokeSpriteDatb 1 val) s
def execPokeSpr2pos (_pix : Position) (val : Word16) (s : State) : Host.Outcome State Fault Refusal :=
  runCommand (pokeSpritePos 2 val) s
def execPokeSpr2ctl (_pix : Position) (val : Word16) (s : State) : Host.Outcome State Fault Refusal :=
  runCommand (pokeSpriteCtl 2 val) s
def execPokeSpr2data (_pix : Position) (val : Word16) (s : State) : Host.Outcome State Fault Refusal :=
  runCommand (pokeSpriteData 2 val) s
def execPokeSpr2datb (_pix : Position) (val : Word16) (s : State) : Host.Outcome State Fault Refusal :=
  runCommand (pokeSpriteDatb 2 val) s
def execPokeSpr3pos (_pix : Position) (val : Word16) (s : State) : Host.Outcome State Fault Refusal :=
  runCommand (pokeSpritePos 3 val) s
def execPokeSpr3ctl (_pix : Position) (val : Word16) (s : State) : Host.Outcome State Fault Refusal :=
  runCommand (pokeSpriteCtl 3 val) s
def execPokeSpr3data (_pix : Position) (val : Word16) (s : State) : Host.Outcome State Fault Refusal :=
  runCommand (pokeSpriteData 3 val) s
def execPokeSpr3datb (_pix : Position) (val : Word16) (s : State) : Host.Outcome State Fault Refusal :=
  runCommand (pokeSpriteDatb 3 val) s
def execPokeSpr4pos (_pix : Position) (val : Word16) (s : State) : Host.Outcome State Fault Refusal :=
  runCommand (pokeSpritePos 4 val) s
def execPokeSpr4ctl (_pix : Position) (val : Word16) (s : State) : Host.Outcome State Fault Refusal :=
  runCommand (pokeSpriteCtl 4 val) s
def execPokeSpr4data (_pix : Position) (val : Word16) (s : State) : Host.Outcome State Fault Refusal :=
  runCommand (pokeSpriteData 4 val) s
def execPokeSpr4datb (_pix : Position) (val : Word16) (s : State) : Host.Outcome State Fault Refusal :=
  runCommand (pokeSpriteDatb 4 val) s
def execPokeSpr5pos (_pix : Position) (val : Word16) (s : State) : Host.Outcome State Fault Refusal :=
  runCommand (pokeSpritePos 5 val) s
def execPokeSpr5ctl (_pix : Position) (val : Word16) (s : State) : Host.Outcome State Fault Refusal :=
  runCommand (pokeSpriteCtl 5 val) s
def execPokeSpr5data (_pix : Position) (val : Word16) (s : State) : Host.Outcome State Fault Refusal :=
  runCommand (pokeSpriteData 5 val) s
def execPokeSpr5datb (_pix : Position) (val : Word16) (s : State) : Host.Outcome State Fault Refusal :=
  runCommand (pokeSpriteDatb 5 val) s
def execPokeSpr6pos (_pix : Position) (val : Word16) (s : State) : Host.Outcome State Fault Refusal :=
  runCommand (pokeSpritePos 6 val) s
def execPokeSpr6ctl (_pix : Position) (val : Word16) (s : State) : Host.Outcome State Fault Refusal :=
  runCommand (pokeSpriteCtl 6 val) s
def execPokeSpr6data (_pix : Position) (val : Word16) (s : State) : Host.Outcome State Fault Refusal :=
  runCommand (pokeSpriteData 6 val) s
def execPokeSpr6datb (_pix : Position) (val : Word16) (s : State) : Host.Outcome State Fault Refusal :=
  runCommand (pokeSpriteDatb 6 val) s
def execPokeSpr7pos (_pix : Position) (val : Word16) (s : State) : Host.Outcome State Fault Refusal :=
  runCommand (pokeSpritePos 7 val) s
def execPokeSpr7ctl (_pix : Position) (val : Word16) (s : State) : Host.Outcome State Fault Refusal :=
  runCommand (pokeSpriteCtl 7 val) s
def execPokeSpr7data (_pix : Position) (val : Word16) (s : State) : Host.Outcome State Fault Refusal :=
  runCommand (pokeSpriteData 7 val) s
def execPokeSpr7datb (_pix : Position) (val : Word16) (s : State) : Host.Outcome State Fault Refusal :=
  runCommand (pokeSpriteDatb 7 val) s

/-! ### Drawing -/

/-- One cell of a span (R193): nothing at or past `L` (R191); else the sprite wins when its tag is strictly greater. -/
def drawSpanCell (c : Config) (tag : DepthTag) (colour : ColourIndex) (i : Nat) (p : Pipeline) : Except Raise Pipeline :=
  if i < c.linePixels then do
    let d ← bufRead c p.depth i
    if d < tag then do
      let cidx ← bufWrite c p.cidx i colour
      let depth ← bufWrite c p.depth i tag
      return { p with cidx := cidx, depth := depth }
    else return p
  else return p

/-- `DrawSpan(h, tag, code)` (R193): pixels from the last to the first, two cells each, none for a transparent one. -/
def drawSpan (c : Config) (h : Nat) (tag : DepthTag) (colour : Nat → ColourIndex) (p : Pipeline) : Except Raise Pipeline :=
  forRangeDown 0 16 (fun j p =>
    if colour j ≠ 0#6 then forRange 0 2 (fun d p => drawSpanCell c tag (colour j) (2 * h + 2 * j + d) p) p
    else return p) p

/-- Sprite `x` of pair `pair`, drawn on its own if it is armed (R194). -/
def drawIndependent (c : Config) (pair : Fin 4) (x : Fin 8) (p : Pipeline) : Except Raise Pipeline :=
  if (p.sprite x).armed then drawSpan c (p.sprite x).hstart.toNat (sprTag x) (independentColour pair (p.sprite x)) p
  else return p

/-- One pair (R194): jointly with the even sprite's tag when attached, else the odd sprite and then the even one. -/
def drawPair (c : Config) (pair : Fin 4) (p : Pipeline) : Except Raise Pipeline :=
  let e := evenSprite pair
  let o := oddSprite pair
  if attached (p.sprite e) (p.sprite o) then
    drawSpan c (p.sprite e).hstart.toNat (sprTag e) (attachedColour (p.sprite e) (p.sprite o)) p
  else do
    let p ← drawIndependent c pair o p
    drawIndependent c pair e p

/-- The pairs of a list, in its order. -/
def drawPairs (c : Config) : List (Fin 4) → Pipeline → Except Raise Pipeline
  | [], p => .ok p
  | pair :: rest, p => do
    let p ← drawPair c pair p
    drawPairs c rest p

/-- The compositor's order, pair 3 (sprites 7 and 6) first (R194). -/
def pairOrder : List (Fin 4) := [3, 2, 1, 0]

/-- `DrawAll()` (R194): the four pairs, then every sprite disarmed (R195). -/
def drawAll (c : Config) (p : Pipeline) : Except Raise Pipeline := do
  let q ← drawPairs c pairOrder p
  return q.disarmAll

end Sys2Proof.Machine
end

