-- ==== Sys2Proof/Machine/Scanline.lean ====
section
/-! DEFINITION. ScanlineOrchestrator (45_scanline_orchestrator.md): BEGIN and END. -/

namespace Sys2Proof.Machine

/-- BEGIN (R220): legal only between lines (R222). -/
def startLine (first vpos : Position) : Command := fun _ p =>
  match p.phase with
  | .inLine => raiseFault .sequence (.sequence .beginLine p.phase)
  | .idle =>
    .ok ({ p with
      cursor := first.toNat
      snap0 := p.bplcon0, snap1 := p.bplcon1, snap2 := p.bplcon2
      log := []
      lineVpos := vpos
      phase := .inLine }, [])

def execBeginLine (first vpos : Position) (s : State) : Host.Outcome State Fault Refusal :=
  runCommand (startLine first vpos) s

/-- `NonVisibleEnd(VPOS)` (R225). -/
def nonVisibleEnd (vpos : Position) (p : Pipeline) : Pipeline × List Event :=
  ({ p with log := [] }, [.debugOverlay vpos])

/-- The sprite step (R226, R199): only with the vertical display enabled and some sprite armed. -/
def spriteStep (c : Config) (vf : Bool) (p : Pipeline) : Except Raise Pipeline :=
  if vf = true ∧ anyArmed p = true then drawAll c p else .ok p

/-- `TailCopy()` (R228), in increasing order. -/
def tailCopy (c : Config) (p : Pipeline) : Except Raise Pipeline :=
  forRange c.linePixels c.bufPixels (fun i p => do
    let v ← bufRead c p.raw i
    let raw ← bufWrite c p.raw (i - c.linePixels) v
    let raw ← bufWrite c raw i 0#6
    return { p with raw := raw }) p

/-- `VisibleEnd(VPOS, VF, HF, HOPEN, HCLOSE)` (R226), its steps in the fixed order. -/
def visibleEnd (c : Config) (vf hf : Bool) (hopen hclose vpos : Position) (p : Pipeline) :
    Except Raise (Pipeline × List Event) := do
  let p ← replay c p
  let p ← spriteStep c vf p
  let hook := Event.collisionHook (cellsBelow p.depth c.linePixels) (cellsBelow p.cidx c.linePixels)
  let p ← borderFill c vf hf hopen hclose p
  let picture := Event.colorize vpos (cellsBelow p.cidx c.linePixels)
  let p ← (if c.wrapTail then tailCopy c p else .ok p)
  return (p, [hook, picture])

/-- END (R221): legal only in a line (R222). -/
def finishLine (vf hf : Bool) (hopen hclose vpos : Position) : Command := fun c p =>
  match p.phase with
  | .idle => raiseFault .sequence (.sequence .endLine p.phase)
  | .inLine => do
    let (q, events) ←
      (if lineVisible c vpos then visibleEnd c vf hf hopen hclose vpos p else .ok (nonVisibleEnd vpos p))
    return ({ q with phase := .idle }, events)

def execEndLine (vf hf : Bool) (hopen hclose vpos : Position) (s : State) : Host.Outcome State Fault Refusal :=
  runCommand (finishLine vf hf hopen hclose vpos) s

end Sys2Proof.Machine
end

