-- ==== Sys2Proof/Machine/ShiftPipeline.lean ====
section
/-! DEFINITION. ShiftPipeline (40_shift_pipeline.md): the six bitplane data pokes and DRAW. -/

namespace Sys2Proof.Machine

/-! ### Bitplane data pokes -/

/-- POKE.BPL(k+1)DAT (R120): the data word replaces the low word of the plane's shift register. -/
def loadPlane (k : Fin 6) (val : Word16) : Command := fun _ p =>
  .ok (p.setShiftReg k ((p.plane k).extractLsb' 16 16 ++ val), [])

def execPokeBpl1dat (_pix : Position) (val : Word16) (s : State) : Host.Outcome State Fault Refusal :=
  runCommand (loadPlane 0 val) s
def execPokeBpl2dat (_pix : Position) (val : Word16) (s : State) : Host.Outcome State Fault Refusal :=
  runCommand (loadPlane 1 val) s
def execPokeBpl3dat (_pix : Position) (val : Word16) (s : State) : Host.Outcome State Fault Refusal :=
  runCommand (loadPlane 2 val) s
def execPokeBpl4dat (_pix : Position) (val : Word16) (s : State) : Host.Outcome State Fault Refusal :=
  runCommand (loadPlane 3 val) s
def execPokeBpl5dat (_pix : Position) (val : Word16) (s : State) : Host.Outcome State Fault Refusal :=
  runCommand (loadPlane 4 val) s
def execPokeBpl6dat (_pix : Position) (val : Word16) (s : State) : Host.Outcome State Fault Refusal :=
  runCommand (loadPlane 5 val) s

/-! ### DRAW -/

/-- The bit plane `k` gives pixel `i` of a draw (R123): bit `15 + scroll(k) - i` of its shift register, 0 below bit 0. -/
def planeBit (p : Pipeline) (k : Fin 6) (i : Nat) : Bool :=
  decide (i ≤ 15 + scroll p.bplcon1 k) && (p.plane k).getLsbD (15 + scroll p.bplcon1 k - i)

/-- `PixelValue(i)` (R123): bit `k` comes from plane `k`. -/
def pixelValue (p : Pipeline) (i : Nat) : ColourIndex :=
  BitVec.ofBool (planeBit p 5 i) ++ BitVec.ofBool (planeBit p 4 i) ++ BitVec.ofBool (planeBit p 3 i)
    ++ BitVec.ofBool (planeBit p 2 i) ++ BitVec.ofBool (planeBit p 1 i) ++ BitVec.ofBool (planeBit p 0 i)

/-- The cells `n` pixels cover: one each in high resolution, two in low (R125). -/
def drawCells (hires : Bool) (n : Position) : Nat := if hires then n.toNat else 2 * n.toNat

/-- One pixel of value `v` at the cursor, which moves past the cells it covers (R124). -/
def drawPixel (c : Config) (hires : Bool) (v : ColourIndex) (p : Pipeline) : Except Raise Pipeline :=
  if hires then do
    let raw ← bufWrite c p.raw p.cursor v
    return { p with raw := raw, cursor := p.cursor + 1 }
  else do
    let raw ← bufWrite c p.raw p.cursor v
    let raw ← bufWrite c raw (p.cursor + 1) v
    return { p with raw := raw, cursor := p.cursor + 2 }

/-- All six registers shifted left by `n`, 32-bit (R128). -/
def shiftPlanes (n : Nat) (p : Pipeline) : Pipeline :=
  { p with shiftReg := Vector.ofFn fun k : Fin 6 => (p.plane k) <<< n }

/-- DRAW (R124): the bounds check comes before any write, every pixel is computed from the registers as the draw found them,
and the registers shift once, after the writes. -/
def drawPixels (hires : Bool) (n : Position) : Command := fun c p =>
  if c.bufPixels < p.cursor + drawCells hires n then raiseFault .drawOutOfBounds (.drawAt p.cursor n hires)
  else do
    let q ← forRange 0 n.toNat (fun i q => drawPixel c hires (pixelValue p i) q) p
    return (shiftPlanes n.toNat q, [])

def execDraw (hires : Bool) (n : Position) (s : State) : Host.Outcome State Fault Refusal :=
  runCommand (drawPixels hires n) s

end Sys2Proof.Machine
end

