-- ==== Sys2Proof/Machine/Dispatch.lean ====
section
/-! DEFINITION. What each command does: one arm per constructor of Instr (30_encoding.md R101). -/

namespace Sys2Proof.Machine

def exec (i : Instr) (s : State) : Host.Outcome State Fault Refusal :=
  match i with
  | .pokeBplcon0 pix val => Sys2Proof.Machine.execPokeBplcon0 pix val s
  | .pokeBplcon1 pix val => Sys2Proof.Machine.execPokeBplcon1 pix val s
  | .pokeBplcon2 pix val => Sys2Proof.Machine.execPokeBplcon2 pix val s
  | .pokeBpl1dat pix val => Sys2Proof.Machine.execPokeBpl1dat pix val s
  | .pokeBpl2dat pix val => Sys2Proof.Machine.execPokeBpl2dat pix val s
  | .pokeBpl3dat pix val => Sys2Proof.Machine.execPokeBpl3dat pix val s
  | .pokeBpl4dat pix val => Sys2Proof.Machine.execPokeBpl4dat pix val s
  | .pokeBpl5dat pix val => Sys2Proof.Machine.execPokeBpl5dat pix val s
  | .pokeBpl6dat pix val => Sys2Proof.Machine.execPokeBpl6dat pix val s
  | .pokeSpr0pos pix val => Sys2Proof.Machine.execPokeSpr0pos pix val s
  | .pokeSpr0ctl pix val => Sys2Proof.Machine.execPokeSpr0ctl pix val s
  | .pokeSpr0data pix val => Sys2Proof.Machine.execPokeSpr0data pix val s
  | .pokeSpr0datb pix val => Sys2Proof.Machine.execPokeSpr0datb pix val s
  | .pokeSpr1pos pix val => Sys2Proof.Machine.execPokeSpr1pos pix val s
  | .pokeSpr1ctl pix val => Sys2Proof.Machine.execPokeSpr1ctl pix val s
  | .pokeSpr1data pix val => Sys2Proof.Machine.execPokeSpr1data pix val s
  | .pokeSpr1datb pix val => Sys2Proof.Machine.execPokeSpr1datb pix val s
  | .pokeSpr2pos pix val => Sys2Proof.Machine.execPokeSpr2pos pix val s
  | .pokeSpr2ctl pix val => Sys2Proof.Machine.execPokeSpr2ctl pix val s
  | .pokeSpr2data pix val => Sys2Proof.Machine.execPokeSpr2data pix val s
  | .pokeSpr2datb pix val => Sys2Proof.Machine.execPokeSpr2datb pix val s
  | .pokeSpr3pos pix val => Sys2Proof.Machine.execPokeSpr3pos pix val s
  | .pokeSpr3ctl pix val => Sys2Proof.Machine.execPokeSpr3ctl pix val s
  | .pokeSpr3data pix val => Sys2Proof.Machine.execPokeSpr3data pix val s
  | .pokeSpr3datb pix val => Sys2Proof.Machine.execPokeSpr3datb pix val s
  | .pokeSpr4pos pix val => Sys2Proof.Machine.execPokeSpr4pos pix val s
  | .pokeSpr4ctl pix val => Sys2Proof.Machine.execPokeSpr4ctl pix val s
  | .pokeSpr4data pix val => Sys2Proof.Machine.execPokeSpr4data pix val s
  | .pokeSpr4datb pix val => Sys2Proof.Machine.execPokeSpr4datb pix val s
  | .pokeSpr5pos pix val => Sys2Proof.Machine.execPokeSpr5pos pix val s
  | .pokeSpr5ctl pix val => Sys2Proof.Machine.execPokeSpr5ctl pix val s
  | .pokeSpr5data pix val => Sys2Proof.Machine.execPokeSpr5data pix val s
  | .pokeSpr5datb pix val => Sys2Proof.Machine.execPokeSpr5datb pix val s
  | .pokeSpr6pos pix val => Sys2Proof.Machine.execPokeSpr6pos pix val s
  | .pokeSpr6ctl pix val => Sys2Proof.Machine.execPokeSpr6ctl pix val s
  | .pokeSpr6data pix val => Sys2Proof.Machine.execPokeSpr6data pix val s
  | .pokeSpr6datb pix val => Sys2Proof.Machine.execPokeSpr6datb pix val s
  | .pokeSpr7pos pix val => Sys2Proof.Machine.execPokeSpr7pos pix val s
  | .pokeSpr7ctl pix val => Sys2Proof.Machine.execPokeSpr7ctl pix val s
  | .pokeSpr7data pix val => Sys2Proof.Machine.execPokeSpr7data pix val s
  | .pokeSpr7datb pix val => Sys2Proof.Machine.execPokeSpr7datb pix val s
  | .pokeColor00 pix val => Sys2Proof.Machine.execPokeColor00 pix val s
  | .pokeColor01 pix val => Sys2Proof.Machine.execPokeColor01 pix val s
  | .pokeColor02 pix val => Sys2Proof.Machine.execPokeColor02 pix val s
  | .pokeColor03 pix val => Sys2Proof.Machine.execPokeColor03 pix val s
  | .pokeColor04 pix val => Sys2Proof.Machine.execPokeColor04 pix val s
  | .pokeColor05 pix val => Sys2Proof.Machine.execPokeColor05 pix val s
  | .pokeColor06 pix val => Sys2Proof.Machine.execPokeColor06 pix val s
  | .pokeColor07 pix val => Sys2Proof.Machine.execPokeColor07 pix val s
  | .pokeColor08 pix val => Sys2Proof.Machine.execPokeColor08 pix val s
  | .pokeColor09 pix val => Sys2Proof.Machine.execPokeColor09 pix val s
  | .pokeColor10 pix val => Sys2Proof.Machine.execPokeColor10 pix val s
  | .pokeColor11 pix val => Sys2Proof.Machine.execPokeColor11 pix val s
  | .pokeColor12 pix val => Sys2Proof.Machine.execPokeColor12 pix val s
  | .pokeColor13 pix val => Sys2Proof.Machine.execPokeColor13 pix val s
  | .pokeColor14 pix val => Sys2Proof.Machine.execPokeColor14 pix val s
  | .pokeColor15 pix val => Sys2Proof.Machine.execPokeColor15 pix val s
  | .pokeColor16 pix val => Sys2Proof.Machine.execPokeColor16 pix val s
  | .pokeColor17 pix val => Sys2Proof.Machine.execPokeColor17 pix val s
  | .pokeColor18 pix val => Sys2Proof.Machine.execPokeColor18 pix val s
  | .pokeColor19 pix val => Sys2Proof.Machine.execPokeColor19 pix val s
  | .pokeColor20 pix val => Sys2Proof.Machine.execPokeColor20 pix val s
  | .pokeColor21 pix val => Sys2Proof.Machine.execPokeColor21 pix val s
  | .pokeColor22 pix val => Sys2Proof.Machine.execPokeColor22 pix val s
  | .pokeColor23 pix val => Sys2Proof.Machine.execPokeColor23 pix val s
  | .pokeColor24 pix val => Sys2Proof.Machine.execPokeColor24 pix val s
  | .pokeColor25 pix val => Sys2Proof.Machine.execPokeColor25 pix val s
  | .pokeColor26 pix val => Sys2Proof.Machine.execPokeColor26 pix val s
  | .pokeColor27 pix val => Sys2Proof.Machine.execPokeColor27 pix val s
  | .pokeColor28 pix val => Sys2Proof.Machine.execPokeColor28 pix val s
  | .pokeColor29 pix val => Sys2Proof.Machine.execPokeColor29 pix val s
  | .pokeColor30 pix val => Sys2Proof.Machine.execPokeColor30 pix val s
  | .pokeColor31 pix val => Sys2Proof.Machine.execPokeColor31 pix val s
  | .pokeUnmapped reg pix val => Sys2Proof.Machine.execPokeUnmapped reg pix val s
  | .draw hires n => Sys2Proof.Machine.execDraw hires n s
  | .beginLine first vpos => Sys2Proof.Machine.execBeginLine first vpos s
  | .endLine vf hf hopen hclose vpos => Sys2Proof.Machine.execEndLine vf hf hopen hclose vpos s
  | .inspect => Sys2Proof.Machine.execInspect s
  | .reset => Sys2Proof.Machine.execReset s
  | .nop => Sys2Proof.Machine.execNop s

end Sys2Proof.Machine
end

