-- ==== Sys2Proof/Machine/Step.lean ====
section
/-! DEFINITION. One step: the next command the host has issued is decoded and run (20_memory.md R82, 30_encoding.md R96). -/

namespace Sys2Proof.Machine

/-- One step. With no command issued the state survives unchanged (60_exceptions.md R279; log entry 2). A word that decodes
to no command raises `ILLEGAL_COMMAND` (30_encoding.md R96). -/
def step (s : State) : Host.Outcome State Fault Refusal :=
  match fetch s with
  | none => .next s
  | some (w, t) =>
    match decode w with
    | .ok i => exec i t
    | .error _ => runCommand (illegalCommand w) t

/-- The state with the command of an opcode-table row (bits numbered as the table does, those above `nbits` zero) as the next
one the host issues (log entry 3). -/
def State.withFetchWord (s : State) (nbits w : Nat) : State :=
  issueNext (BitVec.ofNat 64 (w % 2 ^ nbits)) s

end Sys2Proof.Machine
end

