-- ==== Sys2Proof/Machine/Assembler.lean ====
section
/-! DEFINITION. The textual form of a command and the pseudo-instructions (30_encoding.md R103, R104). Both are notation for
command words: no step reads them. -/

namespace Sys2Proof.Machine

/-! ### Text (R103) -/

/-- The two decimal digits of a colour register's number. -/
def twoDigits (n : Nat) : String := toString (n / 10) ++ toString (n % 10)

/-- The name of a register, or the offset of an unmapped one (R103). -/
def registerText : Register → String
  | .bplcon0 => "BPLCON0"
  | .bplcon1 => "BPLCON1"
  | .bplcon2 => "BPLCON2"
  | .bplDat k => "BPL" ++ toString (k.val + 1) ++ "DAT"
  | .sprPos x => "SPR" ++ toString x.val ++ "POS"
  | .sprCtl x => "SPR" ++ toString x.val ++ "CTL"
  | .sprData x => "SPR" ++ toString x.val ++ "DATA"
  | .sprDatb x => "SPR" ++ toString x.val ++ "DATB"
  | .color n => "COLOR" ++ twoDigits n.val
  | .unmapped reg => toString reg.toNat

/-- `0` or `1`. -/
def bitText (b : Bool) : String := if b then "1" else "0"

/-- A horizontal window coordinate: a position, or `UNSET`. -/
def windowText (p : Position) : String := if p = unset then "UNSET" else toString p.toNat

/-- The line of a command (R103), its numbers in decimal and the position of a poke always written. -/
def commandText (i : Instr) : String :=
  let w := encode i
  if fieldCmd w = cmdPoke then
    "POKE " ++ registerText (regOf (fieldReg w)) ++ ", " ++ toString (fieldVal w).toNat ++ " @ " ++ toString (fieldUpper w).toNat
  else if fieldCmd w = cmdDraw then
    "DRAW " ++ toString (fieldLower w).toNat ++ (if fieldHires w then ", HIRES" else ", LORES")
  else if fieldCmd w = cmdBegin then "BEGIN " ++ toString (fieldLower w).toNat ++ ", " ++ toString (fieldMiddle w).toNat
  else if fieldCmd w = cmdEnd then
    "END " ++ toString (fieldLower w).toNat ++ ", VF=" ++ bitText (fieldVf w) ++ ", HF=" ++ bitText (fieldHf w)
      ++ ", HOPEN=" ++ windowText (fieldUpper w) ++ ", HCLOSE=" ++ windowText (fieldMiddle w)
  else if fieldCmd w = cmdInspect then "INSPECT"
  else if fieldCmd w = cmdReset then "RESET"
  else "NOP"

/-! ### Pseudo-instructions (R104) -/

/-- `SETSCROLL odd, even @ p`. -/
def setScroll (odd even : BitVec 4) (p : Position) : List Instr := [.pokeBplcon1 p (0#8 ++ even ++ odd)]

/-- `SETPRIO p1, p2, f @ p`. -/
def setPrio (p1 p2 : BitVec 3) (f : BitVec 1) (p : Position) : List Instr := [.pokeBplcon2 p (0#9 ++ f ++ p2 ++ p1)]

/-- `LOADPLANES w1, w2, w3, w4, w5, w6`: the highest plane first. -/
def loadPlanes (w1 w2 w3 w4 w5 w6 : Word16) : List Instr :=
  [.pokeBpl6dat 0#12 w6, .pokeBpl5dat 0#12 w5, .pokeBpl4dat 0#12 w4, .pokeBpl3dat 0#12 w3, .pokeBpl2dat 0#12 w2,
    .pokeBpl1dat 0#12 w1]

/-- `SPRITE x, h, a, b, att`: the arming write comes last. -/
def spriteSetup (x : Fin 8) (h : BitVec 9) (a b : Word16) (att : BitVec 1) : List Instr :=
  [pokeSprPos x 0#12 (0#8 ++ h.extractLsb' 1 8), pokeSprCtl x 0#12 (0#8 ++ att ++ 0#6 ++ h.extractLsb' 0 1),
    pokeSprDatb x 0#12 b, pokeSprData x 0#12 a]

/-- `BLANKLINE v`. -/
def blankLine (v : Position) : List Instr := [.beginLine 0#12 v, .endLine false false unset unset v]

/-- Running commands one after another, stopping where one gives no next state. -/
def execAll : List Instr → State → Host.Outcome State Fault Refusal
  | [], s => .next s
  | i :: rest, s =>
    match exec i s with
    | .next t => execAll rest t
    | .fault r => .fault r
    | .refused r => .refused r

end Sys2Proof.Machine
end

