-- ==== Sys2Proof/Safety.lean ====
section
/-! DEFINITION. What a safe run is: the invariants of the pipeline (10_state.md R51, 42_playfield_resolver.md R162, 60_exceptions.md
R264), the host's duties (R276), and the words in which the statements speak of a visible line. -/

namespace Sys2Proof.Machine

/-! ### Invariants -/

/-- The pipeline is not faulted: it still runs commands (R264). -/
abbrev Running (s : State) : Prop := s.pipe.fault = none

/-- What R51 says of a pipeline with the parameters `c`. Its first item, `raw` and `cidx` at most 63, holds by the type of a
cell. `cursorInRange` is the range R30 gives the cursor, `logTargets` is R43's place of `NONE`, and `rawEnds` says that a
buffer has `B` cells (R73): past the last one nothing is listed. -/
structure PipelineInv (c : Config) (p : Pipeline) : Prop where
  logOrdered : p.log.Pairwise (fun a b => a.pos ≤ b.pos)
  logInLine : ∀ e ∈ p.log, e.pos ≤ c.linePixels
  logFits : p.log.length ≤ c.logCap
  logTargets : ∀ e ∈ p.log, e.reg ≠ .noReg
  hstartFits : ∀ x : Fin 8, (p.sprite x).hstart.toNat ≤ 511
  idleLogEmpty : p.phase = .idle → p.log = []
  cidxTail : ∀ i, c.linePixels ≤ i → readCell p.cidx i = 0#6
  depthTail : ∀ i, c.linePixels ≤ i → readCell p.depth i = 0#16
  rawEnds : ∀ i, c.bufPixels ≤ i → readCell p.raw i = 0#6
  cursorInRange : p.cursor ≤ 4095
  canonical : Memory.wf p = true

/-- "Under `FAULT`, no reserved code ever reaches the live register, the snapshot or the log" (R162). -/
structure PriorityInv (c : Config) (p : Pipeline) : Prop where
  live : c.prioReservedPolicy = .fault → reservedPriority p.bplcon2 = false
  snapshot : c.prioReservedPolicy = .fault → reservedPriority p.snap2 = false
  log : c.prioReservedPolicy = .fault → ∀ e ∈ p.log, e.reg = .bplcon2 → reservedPriority e.value = false

/-- The invariant of the machine: legal parameters (R7), and what R51 and R162 say of the pipeline. -/
structure Inv (s : State) : Prop where
  config : s.config.Valid
  pipe : PipelineInv s.config s.pipe
  priority : PriorityInv s.config s.pipe

/-- An event is a fault report. -/
def Event.isFaulted : Event → Bool
  | .faulted _ _ => true
  | _ => false

/-- What R264 says of the trace: no fault report while the pipeline runs, else exactly one, the last event, with the code
in `fault`; and no snapshot ever reports a fault. -/
structure TraceInv (s : State) : Prop where
  running : s.pipe.fault = none → ∀ e ∈ s.trace, e.isFaulted = false
  faulted : ∀ code, s.pipe.fault = some code →
    ∃ before info, s.trace = before ++ [.faulted code info] ∧ ∀ e ∈ before, e.isFaulted = false
  snapshots : ∀ snapshot, Event.inspect snapshot ∈ s.trace → snapshot.fault = none

/-- The state a fault leaves (R262, R263): the state before the command with only `fault` set, and the report as the last
event. -/
def State.faultedWith (s : State) (code : FaultCode) (info : FaultInfo) : State :=
  { s with pipe := { s.pipe with fault := some code }, trace := s.trace ++ [.faulted code info] }

/-- The states that steps lead to from `s`. -/
inductive ReachedFrom (s : State) : State → Prop where
  | start : ReachedFrom s s
  | step {t u : State} (h : ReachedFrom s t) (hs : Machine.step t = .next u) : ReachedFrom s u

/-- What a poke of the control register `reg` at position `pos` does (R140 to R143): the live register, written by `write`,
and in a line an entry at the log's end, or the first of the three log faults that applies. -/
structure ControlPoke (s : State) (reg : LogReg) (val : Word16) (pos : Nat) (write : Pipeline → Pipeline)
    (out : Host.Outcome State Fault Refusal) : Prop where
  idle : s.pipe.phase = .idle → out = .next { s with pipe := write s.pipe }
  recorded : s.pipe.phase = .inLine → pos ≤ s.config.linePixels →
    (∀ last, s.pipe.log.getLast? = some last → last.pos ≤ pos) → s.pipe.log.length ≠ s.config.logCap →
    out = .next { s with pipe := write { s.pipe with log := s.pipe.log ++ [⟨reg, val, pos⟩] } }
  position : s.pipe.phase = .inLine → s.config.linePixels < pos → out = .next (s.faultedWith .logPosition (.logAt reg pos))
  order : s.pipe.phase = .inLine → pos ≤ s.config.linePixels →
    ∀ last, s.pipe.log.getLast? = some last → pos < last.pos →
    out = .next (s.faultedWith .logOrder (.logAfter reg pos last.pos))
  overflow : s.pipe.phase = .inLine → pos ≤ s.config.linePixels →
    (∀ last, s.pipe.log.getLast? = some last → last.pos ≤ pos) → s.pipe.log.length = s.config.logCap →
    out = .next (s.faultedWith .logOverflow (.logAt reg pos))

/-! ### The host's duties (R276) -/

/-- A control poke at position `pos` is recorded without a fault, or nothing is recorded (R143). -/
def RecordAccepted (c : Config) (p : Pipeline) (pos : Nat) : Prop :=
  p.phase = .inLine →
    pos ≤ c.linePixels ∧ (∀ last, p.log.getLast? = some last → last.pos ≤ pos) ∧ p.log.length ≠ c.logCap

/-- A BPLCON2 value that the priority check lets through (R162). -/
def PriorityAccepted (c : Config) (val : Word16) : Prop :=
  c.prioReservedPolicy = .fault → reservedPriority val = false

/-- What a host that wants no fault keeps to when it issues a command (R276), the priority codes of R162 with it. -/
def KeepsDuties (c : Config) (p : Pipeline) : Instr → Prop
  | .pokeBplcon0 pix _ => RecordAccepted c p pix.toNat
  | .pokeBplcon1 pix _ => RecordAccepted c p pix.toNat
  | .pokeBplcon2 pix val => PriorityAccepted c val ∧ RecordAccepted c p pix.toNat
  | .draw hires n => p.cursor + drawCells hires n ≤ c.bufPixels
  | .beginLine _ _ => p.phase = .idle
  | .endLine _ _ _ _ _ => p.phase = .inLine
  | _ => True

/-! ### The picture of a visible line -/

/-- The control register values in effect at cell `i`: those of the last entry at or before it for each register, else the
snapshot's (R83, R149). -/
def activeAt (p : Pipeline) (i : Nat) : ActiveValues :=
  (p.log.filter (fun e => decide (e.pos ≤ i))).foldl (fun a e => applyEntry e a) (snapshotValues p)

/-- What a raw value resolves to under the values in effect (R166). -/
def resolvedPixel (c : Config) (a : ActiveValues) (v : ColourIndex) : Pixel :=
  if dblpf a.a0 then dualPixel c a.a2 v else singlePixel c a.a2 v

/-- A span the compositor draws: one sprite, or one attached pair (R193, R194). -/
structure Layer where
  start : Nat
  tag : DepthTag
  colour : Nat → ColourIndex

/-- The layers of a pair (R194). -/
def pairLayers (p : Pipeline) (pair : Fin 4) : List Layer :=
  let e := p.sprite (evenSprite pair)
  let o := p.sprite (oddSprite pair)
  if attached e o then [⟨e.hstart.toNat, sprTag (evenSprite pair), attachedColour e o⟩]
  else (if o.armed then [⟨o.hstart.toNat, sprTag (oddSprite pair), independentColour pair o⟩] else [])
    ++ (if e.armed then [⟨e.hstart.toNat, sprTag (evenSprite pair), independentColour pair e⟩] else [])

/-- The layers of the four pairs in an order of the pairs. -/
def layersOf (p : Pipeline) (order : List (Fin 4)) : List Layer := order.flatMap (pairLayers p)

/-- The layer has a colour that is not transparent at cell `i` of its span `[2h, 2h + 31]` (R190). -/
def Layer.Covers (layer : Layer) (i : Nat) : Prop :=
  2 * layer.start ≤ i ∧ i < 2 * layer.start + 32 ∧ layer.colour ((i - 2 * layer.start) / 2) ≠ 0#6

/-- The layer's colour at cell `i`. -/
def Layer.at (layer : Layer) (i : Nat) : ColourIndex := layer.colour ((i - 2 * layer.start) / 2)

/-- What the layers leave at cell `i` over the pixel `before` (R198): the covering layer with the largest tag wins if its tag
is greater than the depth there, else the cell is unchanged. -/
def Composited (layers : List Layer) (i : Nat) (before after : Pixel) : Prop :=
  (∃ layer ∈ layers, layer.Covers i ∧ before.tag < layer.tag
      ∧ (∀ other ∈ layers, other.Covers i → other.tag ≤ layer.tag) ∧ after = ⟨layer.at i, layer.tag⟩)
  ∨ ((∀ layer ∈ layers, layer.Covers i → layer.tag ≤ before.tag) ∧ after = before)

/-- The cells the border synthesizer fills (R210). -/
def InBorder (c : Config) (vf hf : Bool) (hopen hclose : Position) (i : Nat) : Prop :=
  vf = false ∨ (hf = false ∧ hopen = unset)
    ∨ (hf = false ∧ hopen ≠ unset ∧ i < min hopen.toNat c.linePixels)
    ∨ (hclose ≠ unset ∧ hclose.toNat ≤ i)

end Sys2Proof.Machine
end

