-- ==== Sys2Proof/Certificates/Slice0/Obligations.lean ====
section
/-! DEFINITION. The statements for the provers, one `Prop` each. They speak of one command (`exec`) or one step (`step`) at
every state; where a command is discarded because the pipeline is faulted, `FaultedStateIsTerminal` says so, and the other
statements suppose `Running`. -/

open Sys2Proof Sys2Proof.Machine

/-! ### Encoding (30_encoding.md) -/

/-- Every well-formed command is decoded from its own word, with every operand (R90 to R101, R103). -/
def Obligations.DecodeOfEncode : Prop := ∀ i : Instr, i.WellFormed → decode (encode i) = .ok i

/-- Every word that decodes is the word of the command it decodes to, and that command is well formed: no two words mean one
command, and no bit is dropped (R96 to R98). -/
def Obligations.EncodeOfDecode : Prop :=
  ∀ (w : CommandWord) (i : Instr), decode w = .ok i → i.WellFormed ∧ encode i = w

/-- Decoding is total (R96): a word whose `CMD` is defined, whose reserved fields are zero and, for a poke, whose `REG` is even
decodes to the command its fields name; every other word raises `ILLEGAL_COMMAND` with the word as its info (R97, R98). -/
def Obligations.DecodingIsTotal : Prop := ∀ w : CommandWord,
  (w.extractLsb' 60 4 = 0x0#4 → w.extractLsb' 0 60 = 0#60 → decode w = .ok .nop)
  ∧ (w.extractLsb' 60 4 = 0x1#4 → w.extractLsb' 56 4 = 0#4 → w.extractLsb' 41 3 = 0#3 → w.extractLsb' 16 16 = 0#16 →
      w.getLsbD 32 = false →
      decode w = .ok (pokeOf (regOf (w.extractLsb' 32 9)) (w.extractLsb' 44 12) (w.extractLsb' 0 16)))
  ∧ (w.extractLsb' 60 4 = 0x2#4 → w.extractLsb' 13 47 = 0#47 →
      decode w = .ok (.draw (w.getLsbD 12) (w.extractLsb' 0 12)))
  ∧ (w.extractLsb' 60 4 = 0x3#4 → w.extractLsb' 44 16 = 0#16 → w.extractLsb' 12 20 = 0#20 →
      decode w = .ok (.beginLine (w.extractLsb' 32 12) (w.extractLsb' 0 12)))
  ∧ (w.extractLsb' 60 4 = 0x4#4 → w.extractLsb' 56 2 = 0#2 → w.extractLsb' 12 20 = 0#20 →
      decode w = .ok (.endLine (w.getLsbD 59) (w.getLsbD 58) (w.extractLsb' 44 12) (w.extractLsb' 32 12)
        (w.extractLsb' 0 12)))
  ∧ (w.extractLsb' 60 4 = 0x5#4 → w.extractLsb' 0 60 = 0#60 → decode w = .ok .inspect)
  ∧ (w.extractLsb' 60 4 = 0xF#4 → w.extractLsb' 0 60 = 0#60 → decode w = .ok .reset)
  ∧ ((6 ≤ (w.extractLsb' 60 4).toNat ∧ (w.extractLsb' 60 4).toNat ≤ 14)
        ∨ ((w.extractLsb' 60 4 = 0x0#4 ∨ w.extractLsb' 60 4 = 0x5#4 ∨ w.extractLsb' 60 4 = 0xF#4) ∧ w.extractLsb' 0 60 ≠ 0#60)
        ∨ (w.extractLsb' 60 4 = 0x1#4
            ∧ (w.extractLsb' 56 4 ≠ 0#4 ∨ w.extractLsb' 41 3 ≠ 0#3 ∨ w.extractLsb' 16 16 ≠ 0#16 ∨ w.getLsbD 32 = true))
        ∨ (w.extractLsb' 60 4 = 0x2#4 ∧ w.extractLsb' 13 47 ≠ 0#47)
        ∨ (w.extractLsb' 60 4 = 0x3#4 ∧ (w.extractLsb' 44 16 ≠ 0#16 ∨ w.extractLsb' 12 20 ≠ 0#20))
        ∨ (w.extractLsb' 60 4 = 0x4#4 ∧ (w.extractLsb' 56 2 ≠ 0#2 ∨ w.extractLsb' 12 20 ≠ 0#20)) →
      (∀ i, decode w ≠ .ok i)
      ∧ ∀ (s : State) (rest : List CommandWord), Running s → s.pending = w :: rest →
        step s = .next (({ s with pending := rest } : State).faultedWith .illegalCommand (.word w)))

/-- The register map (R100): the poke that each even offset selects, for every position and value. -/
def Obligations.RegisterMap : Prop := ∀ (pix : Position) (val : Word16),
  (decode (0x10#8 ++ pix ++ 0#3 ++ 0x100#9 ++ 0#16 ++ val) = .ok (.pokeBplcon0 pix val))
  ∧ (decode (0x10#8 ++ pix ++ 0#3 ++ 0x102#9 ++ 0#16 ++ val) = .ok (.pokeBplcon1 pix val))
  ∧ (decode (0x10#8 ++ pix ++ 0#3 ++ 0x104#9 ++ 0#16 ++ val) = .ok (.pokeBplcon2 pix val))
  ∧ (∀ k : Fin 6, decode (0x10#8 ++ pix ++ 0#3 ++ BitVec.ofNat 9 (0x110 + 2 * k.val) ++ 0#16 ++ val) = .ok (pokeBplDat k pix val))
  ∧ (∀ x : Fin 8, decode (0x10#8 ++ pix ++ 0#3 ++ BitVec.ofNat 9 (0x140 + 8 * x.val) ++ 0#16 ++ val) = .ok (pokeSprPos x pix val))
  ∧ (∀ x : Fin 8, decode (0x10#8 ++ pix ++ 0#3 ++ BitVec.ofNat 9 (0x142 + 8 * x.val) ++ 0#16 ++ val) = .ok (pokeSprCtl x pix val))
  ∧ (∀ x : Fin 8, decode (0x10#8 ++ pix ++ 0#3 ++ BitVec.ofNat 9 (0x144 + 8 * x.val) ++ 0#16 ++ val) = .ok (pokeSprData x pix val))
  ∧ (∀ x : Fin 8, decode (0x10#8 ++ pix ++ 0#3 ++ BitVec.ofNat 9 (0x146 + 8 * x.val) ++ 0#16 ++ val) = .ok (pokeSprDatb x pix val))
  ∧ (∀ n : Fin 32, decode (0x10#8 ++ pix ++ 0#3 ++ BitVec.ofNat 9 (0x180 + 2 * n.val) ++ 0#16 ++ val) = .ok (pokeColor n pix val))
  ∧ (∀ reg : BitVec 9, EvenOffset reg → ¬ MappedOffset reg →
      decode (0x10#8 ++ pix ++ 0#3 ++ reg ++ 0#16 ++ val) = .ok (.pokeUnmapped reg pix val))

/-- The worked encodings of R105, one per format, decode to the commands they stand for. -/
def Obligations.WorkedEncodings : Prop :=
  decode 0x0000000000000000#64 = .ok .nop
  ∧ decode 0x1000A10400000024#64 = .ok (.pokeBplcon2 10#12 0x0024#16)
  ∧ decode 0x1000011000008000#64 = .ok (.pokeBpl1dat 0#12 0x8000#16)
  ∧ decode 0x2000000000000008#64 = .ok (.draw false 8#12)
  ∧ decode 0x2000000000001004#64 = .ok (.draw true 4#12)
  ∧ decode 0x3000000000000028#64 = .ok (.beginLine 0#12 40#12)
  ∧ decode 0x4CFFFFFF00000028#64 = .ok (.endLine true true 0xFFF#12 0xFFF#12 40#12)
  ∧ decode 0x5000000000000000#64 = .ok .inspect
  ∧ decode 0xF000000000000000#64 = .ok .reset

/-! ### Steps and faults (20_memory.md R82, 60_exceptions.md) -/

/-- A step takes the next issued word and runs the command it decodes to, in the state with the rest of the words still to
come; a word that decodes to none faults; with no word issued nothing happens. That the machine holds the issued words in
`pending` is the model's choice (log entry 2). -/
def Obligations.StepRunsDecodedCommand : Prop := ∀ s : State,
  (∀ w rest i, s.pending = w :: rest → decode w = .ok i → step s = exec i { s with pending := rest })
  ∧ (∀ w rest e, s.pending = w :: rest → decode w = .error e → Running s →
      step s = .next (({ s with pending := rest } : State).faultedWith .illegalCommand (.word w)))
  ∧ (s.pending = [] → step s = .next s)

/-- The faulted state is terminal (R264): every command is discarded, and every word too, whatever it decodes to. A trace has
no fault report while the pipeline runs, and exactly one, the last event, once it is faulted; no snapshot reports a fault. -/
def Obligations.FaultedStateIsTerminal : Prop :=
  (∀ s : State, s.pipe.fault ≠ none →
    (∀ i, exec i s = .next s) ∧ step s = .next { s with pending := s.pending.tail })
  ∧ (∀ c, TraceInv (State.powerOn c))
  ∧ ∀ s t : State, TraceInv s → step s = .next t → TraceInv t

/-- A command that faults leaves the state before it with only `fault` set, and exactly one event, the report, which comes
last (R262, R263). -/
def Obligations.FaultsAreTransactional : Prop :=
  (∀ (s t : State) (i : Instr) (code : FaultCode), Running s → exec i s = .next t → t.pipe.fault = some code →
    ∃ info, t = s.faultedWith code info)
  ∧ ∀ (s t : State) (code : FaultCode), Running s → step s = .next t → t.pipe.fault = some code →
    ∃ info, t = ({ s with pending := s.pending.tail } : State).faultedWith code info

/-- Every command, and every step, answers a next state: the model stops nowhere (log entry 4). -/
def Obligations.EveryCommandAnswers : Prop :=
  (∀ (i : Instr) (s : State), ∃ t, exec i s = .next t) ∧ ∀ s : State, ∃ t, step s = .next t

/-- What every step leaves alone: the parameters (R53), the words still to come, and the events already emitted (R84). -/
def Obligations.StepFrame : Prop := ∀ s t : State, step s = .next t →
  t.config = s.config ∧ t.pending = s.pending.tail ∧ s.trace <+: t.trace

/-- Codes 6 and 9 are never raised (R261): from a state that meets the invariant no step raises `LOG_BAD_TARGET` or
`BUFFER_INDEX`. -/
def Obligations.UnreachableFaultCodes : Prop := ∀ s t : State, Inv s → Running s → step s = .next t →
  t.pipe.fault ≠ some .logBadTarget ∧ t.pipe.fault ≠ some .bufferIndex

/-- A command leaves the pipeline running exactly when the host keeps its duties (R276). -/
def Obligations.DutiesKeepThePipelineRunning : Prop := ∀ (s : State) (i : Instr), Inv s → Running s →
  (KeepsDuties s.config s.pipe i ↔ ∃ t, exec i s = .next t ∧ Running t)

/-! ### Reset and invariants (70_reset_and_hazards.md, 10_state.md) -/

/-- Power-on (R290): every field of R30 at its reset value, `fault` none, and nothing emitted, whatever the parameters. -/
def Obligations.PowerOnState : Prop := ∀ c : Config,
  let p := (State.powerOn c).pipe
  p.bplcon0 = 0#16 ∧ p.bplcon1 = 0#16 ∧ p.bplcon2 = 0#16 ∧ p.snap0 = 0#16 ∧ p.snap1 = 0#16 ∧ p.snap2 = 0#16
  ∧ (∀ k : Fin 6, p.shiftReg[k] = 0#32) ∧ p.cursor = 0
  ∧ (∀ i, readCell p.raw i = 0#6 ∧ readCell p.cidx i = 0#6 ∧ readCell p.depth i = 0#16)
  ∧ (∀ x : Fin 8, p.spr[x] = { hstart := 0#11, dataA := 0#16, dataB := 0#16, armed := false, attach := false })
  ∧ p.log = [] ∧ p.phase = .idle ∧ p.lineVpos = 0#12 ∧ p.fault = none
  ∧ (State.powerOn c).trace = [] ∧ State.reset.pipe = p ∧ State.reset.trace = []

/-- RESET (R244): a running pipeline gets every field but `fault` at its reset value, in either phase, and emits nothing; a
faulted one discards it (R245). -/
def Obligations.ResetCommand : Prop := ∀ s : State,
  (Running s → exec .reset s = .next { s with pipe := (State.powerOn s.config).pipe })
  ∧ (s.pipe.fault ≠ none → exec .reset s = .next s)

/-- The invariants hold at power-on, for all legal parameters, and at `State.reset`. -/
def Obligations.PowerOnMeetsTheInvariants : Prop :=
  (∀ c : Config, c.Valid → Inv (State.powerOn c) ∧ TraceInv (State.powerOn c)) ∧ Inv State.reset ∧ TraceInv State.reset

/-- Every step, from every state that meets it, keeps the invariant: what R51 and R162 say of the pipeline, legal
parameters, and the canonical form of the three pixel buffers. -/
def Obligations.StepKeepsTheInvariant : Prop := ∀ s t : State, Inv s → step s = .next t → Inv t

/-- What R51 says of every reachable state in which the pipeline runs (an inference the spec marks as derived), and what R162
says of the reserved codes under `FAULT`, for all legal parameters and all command words the host may issue. -/
def Obligations.ReachableStates : Prop := ∀ (c : Config) (words : List CommandWord) (s : State), c.Valid →
  ReachedFrom { State.powerOn c with pending := words } s → Running s →
  (∀ i, (readCell s.pipe.raw i).toNat ≤ 63 ∧ (readCell s.pipe.cidx i).toNat ≤ 63)
  ∧ s.pipe.log.Pairwise (fun a b => a.pos ≤ b.pos) ∧ (∀ e ∈ s.pipe.log, e.pos ≤ c.linePixels)
  ∧ s.pipe.log.length ≤ c.logCap
  ∧ (∀ x : Fin 8, (s.pipe.spr[x]).hstart.toNat ≤ 511)
  ∧ (s.pipe.phase = .idle → s.pipe.log = [])
  ∧ (∀ i, c.linePixels ≤ i → i < c.bufPixels → readCell s.pipe.cidx i = 0#6 ∧ readCell s.pipe.depth i = 0#16)
  ∧ (c.prioReservedPolicy = .fault →
      reservedPriority s.pipe.bplcon2 = false ∧ reservedPriority s.pipe.snap2 = false
        ∧ ∀ e ∈ s.pipe.log, e.reg = .bplcon2 → reservedPriority e.value = false)

/-! ### ShiftPipeline (40_shift_pipeline.md) -/

/-- The six bitplane data pokes, `pokeBpl1dat` to `pokeBpl6dat` (R120): the value replaces the low word of the plane's shift
register, in either phase and whatever the position, and nothing else changes. -/
def Obligations.BitplaneDataPoke : Prop := ∀ (s : State) (k : Fin 6) (pix : Position) (val : Word16), Running s →
  exec (pokeBplDat k pix val) s = .next { s with pipe := { s.pipe with
    shiftReg := s.pipe.shiftReg.set k ((s.pipe.shiftReg[k]).extractLsb' 16 16 ++ val) } }

/-- DRAW (R123, R124): a draw that fits writes its cells from the cursor on, one per pixel in high resolution and two in low;
bit `k` of pixel `i` is bit `15 + scroll(k) - i` of plane `k`'s register as the draw found it, 0 below bit 0; the cursor moves
past the cells, the six registers shift left by `N`, and nothing else changes. A draw that would pass the buffer end faults
(R127). -/
def Obligations.DrawPixels : Prop := ∀ (s : State) (hires : Bool) (n : Position), Running s →
  (s.pipe.cursor + (if hires then n.toNat else 2 * n.toNat) ≤ s.config.bufPixels →
    ∃ raw, exec (.draw hires n) s = .next { s with pipe := { s.pipe with
        raw := raw
        cursor := s.pipe.cursor + (if hires then n.toNat else 2 * n.toNat)
        shiftReg := s.pipe.shiftReg.map (fun v : BitVec 32 => v <<< n.toNat) } }
      ∧ (∀ j, j < (if hires then n.toNat else 2 * n.toNat) → ∀ k : Fin 6,
          (readCell raw (s.pipe.cursor + j)).getLsbD k =
            (decide ((if hires then j else j / 2)
                ≤ 15 + (if k.val % 2 = 0 then s.pipe.bplcon1.extractLsb' 0 4 else s.pipe.bplcon1.extractLsb' 4 4).toNat)
              && (s.pipe.shiftReg[k]).getLsbD
                (15 + (if k.val % 2 = 0 then s.pipe.bplcon1.extractLsb' 0 4 else s.pipe.bplcon1.extractLsb' 4 4).toNat
                  - (if hires then j else j / 2))))
      ∧ ∀ i, i < s.pipe.cursor ∨ s.pipe.cursor + (if hires then n.toNat else 2 * n.toNat) ≤ i →
          readCell raw i = readCell s.pipe.raw i)
  ∧ (s.config.bufPixels < s.pipe.cursor + (if hires then n.toNat else 2 * n.toNat) →
      exec (.draw hires n) s = .next (s.faultedWith .drawOutOfBounds (.drawAt s.pipe.cursor n hires)))

/-- A draw does not read BPLCON0 (R122, R130), BPLCON2, the snapshot, the log, the sprites or the phase (inferred from what
R123 and R124 read and write, and from R231): with any other values there it does the same, and leaves those values. -/
def Obligations.DrawIgnoresOtherRegisters : Prop :=
  ∀ (s t : State) (hires : Bool) (n : Position) (b0 b2 s0 s1 s2 : Word16) (spr : Vector Sprite 8) (log : List LogEntry)
    (phase : Phase), Running s → exec (.draw hires n) s = .next t →
  exec (.draw hires n) { s with pipe := { s.pipe with
      bplcon0 := b0, bplcon2 := b2, snap0 := s0, snap1 := s1, snap2 := s2, spr := spr, log := log, phase := phase } }
    = .next { t with pipe := { t.pipe with
      bplcon0 := b0, bplcon2 := b2, snap0 := s0, snap1 := s1, snap2 := s2, spr := spr, log := log, phase := phase } }

/-! ### RegisterChangeLog and the priority function (41_change_log.md, 42_playfield_resolver.md) -/

/-- POKE.BPLCON0 and POKE.BPLCON1 (R140, R141, R143): outside a line only the live register changes; in a line the change is
recorded as well, or the first failing check of R143 faults. -/
def Obligations.ControlPokes : Prop := ∀ (s : State) (pix : Position) (val : Word16), Running s →
  ControlPoke s .bplcon0 val pix.toNat (fun p => { p with bplcon0 := val }) (exec (.pokeBplcon0 pix val) s)
  ∧ ControlPoke s .bplcon1 val pix.toNat (fun p => { p with bplcon1 := val }) (exec (.pokeBplcon1 pix val) s)

/-- POKE.BPLCON2 (R142): a value with a priority code of 5 or more faults under the policy `FAULT`, before any other check;
every other value, and every value under `CLAMP4`, is written and recorded as the other control pokes do. -/
def Obligations.PriorityPoke : Prop := ∀ (s : State) (pix : Position) (val : Word16), Running s →
  (s.config.prioReservedPolicy = .fault → (5 ≤ (val.extractLsb' 0 3).toNat ∨ 5 ≤ (val.extractLsb' 3 3).toNat) →
    exec (.pokeBplcon2 pix val) s = .next (s.faultedWith .priorityReserved (.value val)))
  ∧ (s.config.prioReservedPolicy = .clamp4 ∨ ((val.extractLsb' 0 3).toNat < 5 ∧ (val.extractLsb' 3 3).toNat < 5) →
    ControlPoke s .bplcon2 val pix.toNat (fun p => { p with bplcon2 := val }) (exec (.pokeBplcon2 pix val) s))

/-- The priority function of a BPLCON2 value (R161): the tags of the codes 0 to 4, of 5 to 7 under `CLAMP4`, the greater of the
two tags, and the front flag. -/
def Obligations.PriorityFunction : Prop := ∀ (c : Config) (v : Word16),
  (∀ code : BitVec 3,
    (code = 0#3 → priorityTag c code = 0x8000#16) ∧ (code = 1#3 → priorityTag c code = 0x1000#16)
    ∧ (code = 2#3 → priorityTag c code = 0x0200#16) ∧ (code = 3#3 → priorityTag c code = 0x0040#16)
    ∧ (code = 4#3 → priorityTag c code = 0x0008#16)
    ∧ (5 ≤ code.toNat → c.prioReservedPolicy = .clamp4 → priorityTag c code = 0x0008#16))
  ∧ prio1 c v = priorityTag c (v.extractLsb' 0 3) ∧ prio2 c v = priorityTag c (v.extractLsb' 3 3)
  ∧ (prio12 c v).toNat = max (prio1 c v).toNat (prio2 c v).toNat
  ∧ pf2pri v = v.getLsbD 6

/-- What the order of the tags means (R163, an inference the spec marks as derived): a playfield of code `k` is in front of the
sprite pairs `k` to 3 and behind the pairs before; a lower-numbered sprite is in front of a higher; every sprite is in front
of both backgrounds; and the dual-playfield marker never changes who wins. -/
def Obligations.PriorityOrder : Prop := ∀ (c : Config) (code : BitVec 3) (x : Fin 8), code.toNat ≤ 4 →
  (priorityTag c code < sprTag x ↔ x.val / 2 < code.toNat)
  ∧ (priorityTag c code ||| 0x0001#16 < sprTag x ↔ priorityTag c code < sprTag x)
  ∧ (∀ y : Fin 8, sprTag y < sprTag x ↔ x < y)
  ∧ 0x0001#16 < sprTag x ∧ 0x0000#16 < sprTag x

/-- The tie-break table of dual-playfield mode (R167), on the two playfields' indices as R165 takes them from the raw value. -/
def Obligations.DualPlayfieldTable : Prop := ∀ (c : Config) (a : ActiveValues) (v : ColourIndex) (i1 i2 : BitVec 3),
  a.a0.getLsbD 10 = true →
  i1 = BitVec.ofBool (v.getLsbD 4) ++ BitVec.ofBool (v.getLsbD 2) ++ BitVec.ofBool (v.getLsbD 0) →
  i2 = BitVec.ofBool (v.getLsbD 5) ++ BitVec.ofBool (v.getLsbD 3) ++ BitVec.ofBool (v.getLsbD 1) →
  (i1 = 0#3 → i2 = 0#3 → resolvedPixel c a v = ⟨0#6, 0x0001#16⟩)
  ∧ (i1 ≠ 0#3 → i2 = 0#3 → (resolvedPixel c a v).colour.toNat = i1.toNat
      ∧ (resolvedPixel c a v).tag = prio1 c a.a2 ||| 0x0001#16)
  ∧ (i1 = 0#3 → i2 ≠ 0#3 → (resolvedPixel c a v).colour.toNat = i2.toNat + 8
      ∧ (resolvedPixel c a v).tag = prio2 c a.a2 ||| 0x0001#16)
  ∧ (i1 ≠ 0#3 → i2 ≠ 0#3 → a.a2.getLsbD 6 = true → (resolvedPixel c a v).colour.toNat = i2.toNat + 8
      ∧ (resolvedPixel c a v).tag = prio2 c a.a2 ||| 0x0001#16)
  ∧ (i1 ≠ 0#3 → i2 ≠ 0#3 → a.a2.getLsbD 6 = false → (resolvedPixel c a v).colour.toNat = i1.toNat
      ∧ (resolvedPixel c a v).tag = prio1 c a.a2 ||| 0x0001#16)

/-- Single-playfield mode (R164): the raw value is the colour index; a non-zero value has playfield 2's priority as its
depth, and a zero value the background's. -/
def Obligations.SinglePlayfieldPixel : Prop := ∀ (c : Config) (a : ActiveValues) (v : ColourIndex),
  a.a0.getLsbD 10 = false →
  (resolvedPixel c a v).colour = v
  ∧ (v = 0#6 → (resolvedPixel c a v).tag = 0x0000#16)
  ∧ (v ≠ 0#6 → (resolvedPixel c a v).tag = prio2 c a.a2)

/-- The colour indices each layer produces (R171, R192, inferences the spec marks as derived). -/
def Obligations.ColourRanges : Prop :=
  (∀ (c : Config) (a : ActiveValues) (v : ColourIndex), a.a0.getLsbD 10 = true →
    (resolvedPixel c a v).colour.toNat ≤ 7
      ∨ (9 ≤ (resolvedPixel c a v).colour.toNat ∧ (resolvedPixel c a v).colour.toNat ≤ 15))
  ∧ (∀ (pair : Fin 4) (sp : Sprite) (j : Nat), independentColour pair sp j = 0#6
      ∨ (16 + 4 * pair.val + 1 ≤ (independentColour pair sp j).toNat
          ∧ (independentColour pair sp j).toNat ≤ 16 + 4 * pair.val + 3))
  ∧ ∀ (e o : Sprite) (j : Nat), attachedColour e o j = 0#6
      ∨ (17 ≤ (attachedColour e o j).toNat ∧ (attachedColour e o j).toNat ≤ 31)

/-! ### SpriteCompositor (43_sprite_compositor.md) -/

/-- The eight position pokes, `pokeSpr0pos` to `pokeSpr7pos` (R180): `VAL[7:0]` becomes bits 8:1 of the start, bits 10:9 are 0 and
bit 0 stays; nothing else changes. -/
def Obligations.SpritePositionPoke : Prop := ∀ (s : State) (x : Fin 8) (pix : Position) (val : Word16), Running s →
  exec (pokeSprPos x pix val) s = .next { s with pipe := { s.pipe with
    spr := s.pipe.spr.set x { s.pipe.spr[x] with
      hstart := 0#2 ++ val.extractLsb' 0 8 ++ (s.pipe.spr[x]).hstart.extractLsb' 0 1 } } }

/-- The eight control pokes, `pokeSpr0ctl` to `pokeSpr7ctl` (R181): bit 0 of the start and the attach flag, and nothing else. -/
def Obligations.SpriteControlPoke : Prop := ∀ (s : State) (x : Fin 8) (pix : Position) (val : Word16), Running s →
  exec (pokeSprCtl x pix val) s = .next { s with pipe := { s.pipe with
    spr := s.pipe.spr.set x { s.pipe.spr[x] with
      hstart := (s.pipe.spr[x]).hstart.extractLsb' 1 10 ++ val.extractLsb' 0 1
      attach := val.getLsbD 7 } } }

/-- The eight first pattern word pokes, `pokeSpr0data` to `pokeSpr7data` (R182): the word is stored and the sprite armed. -/
def Obligations.SpriteDataPoke : Prop := ∀ (s : State) (x : Fin 8) (pix : Position) (val : Word16), Running s →
  exec (pokeSprData x pix val) s = .next { s with pipe := { s.pipe with
    spr := s.pipe.spr.set x { s.pipe.spr[x] with dataA := val, armed := true } } }

/-- The eight second pattern word pokes, `pokeSpr0datb` to `pokeSpr7datb` (R183): the word is stored, and the sprite is not
armed by it. -/
def Obligations.SpriteDatbPoke : Prop := ∀ (s : State) (x : Fin 8) (pix : Position) (val : Word16), Running s →
  exec (pokeSprDatb x pix val) s = .next { s with pipe := { s.pipe with
    spr := s.pipe.spr.set x { s.pipe.spr[x] with dataB := val } } }

/-- What the compositor draws of a pair (R185 to R189): the fixed tags; when the odd sprite's attach flag is set, the starts are
equal and one of the two is armed, one joint layer with the even sprite's start and tag and the colour 16 plus the 4-bit
code; else one layer for each armed sprite with its own tag and the pair's base colour plus its 2-bit code. Code 0 has colour
0, which is transparent. -/
def Obligations.SpriteLayers : Prop := ∀ (p : Pipeline) (pair : Fin 4) (e o : Fin 8),
  e.val = 2 * pair.val → o.val = 2 * pair.val + 1 →
  (∀ x : Fin 8, sprTag x = [0x4000#16, 0x2000#16, 0x0800#16, 0x0400#16, 0x0100#16, 0x0080#16, 0x0020#16, 0x0010#16][x])
  ∧ ((p.spr[o]).attach = true → (p.spr[e]).hstart = (p.spr[o]).hstart →
      ((p.spr[e]).armed = true ∨ (p.spr[o]).armed = true) →
      ∃ colour, pairLayers p pair = [⟨(p.spr[e]).hstart.toNat, sprTag e, colour⟩]
        ∧ ∀ j : Nat, j < 16 → (colour j).toNat =
            let code := (((p.spr[e]).armed && (p.spr[e]).dataA.getLsbD (15 - j)).toNat
              + 2 * ((p.spr[e]).armed && (p.spr[e]).dataB.getLsbD (15 - j)).toNat
              + 4 * ((p.spr[o]).armed && (p.spr[o]).dataA.getLsbD (15 - j)).toNat
              + 8 * ((p.spr[o]).armed && (p.spr[o]).dataB.getLsbD (15 - j)).toNat)
            if code = 0 then 0 else 16 + code)
  ∧ (¬ ((p.spr[o]).attach = true ∧ (p.spr[e]).hstart = (p.spr[o]).hstart
        ∧ ((p.spr[e]).armed = true ∨ (p.spr[o]).armed = true)) →
      ∃ colourE colourO, pairLayers p pair =
          (if (p.spr[o]).armed then [⟨(p.spr[o]).hstart.toNat, sprTag o, colourO⟩] else [])
            ++ (if (p.spr[e]).armed then [⟨(p.spr[e]).hstart.toNat, sprTag e, colourE⟩] else [])
        ∧ ∀ j : Nat, j < 16 →
          ((p.spr[e]).armed = true → (colourE j).toNat =
            let code := ((p.spr[e]).dataA.getLsbD (15 - j)).toNat + 2 * ((p.spr[e]).dataB.getLsbD (15 - j)).toNat
            if code = 0 then 0 else 16 + 4 * pair.val + code)
          ∧ ((p.spr[o]).armed = true → (colourO j).toNat =
            let code := ((p.spr[o]).dataA.getLsbD (15 - j)).toNat + 2 * ((p.spr[o]).dataB.getLsbD (15 - j)).toNat
            if code = 0 then 0 else 16 + 4 * pair.val + code))

/-- The compositor, and nothing else but RESET, clears the `armed` flags (R195): the END of a visible line with the vertical
display enabled disarms all eight sprites, and a command that disarms one is RESET or such an END. -/
def Obligations.OnlyTheCompositorDisarms : Prop :=
  (∀ (s : State) (hf : Bool) (hopen hclose vpos : Position), Running s →
    s.config.Valid → PipelineInv s.config s.pipe → s.pipe.phase = .inLine → s.config.firstVisibleLine ≤ vpos.toNat →
    ∃ t, exec (.endLine true hf hopen hclose vpos) s = .next t
      ∧ ∀ y : Fin 8, t.pipe.spr[y] = { s.pipe.spr[y] with armed := false })
  ∧ ∀ (s t : State) (i : Instr) (x : Fin 8), exec i s = .next t →
    (s.pipe.spr[x]).armed = true → (t.pipe.spr[x]).armed = false →
    i = .reset ∨ ∃ hf hopen hclose vpos, i = .endLine true hf hopen hclose vpos ∧ s.config.firstVisibleLine ≤ vpos.toNat
      ∧ ∀ y : Fin 8, t.pipe.spr[y] = { s.pipe.spr[y] with armed := false }

/-- The order in which the pairs are drawn does not matter (R198, an inference the spec marks as derived). -/
def Obligations.DrawingOrderDoesNotMatter : Prop := ∀ (c : Config) (p : Pipeline) (order : List (Fin 4)),
  c.linePixels ≤ c.bufPixels → Memory.wf p = true → order.Perm [0, 1, 2, 3] →
  drawPairs c order p = drawPairs c pairOrder p

/-! ### ScanlineOrchestrator (45_scanline_orchestrator.md) -/

/-- BEGIN (R220): between lines it sets the cursor, takes the snapshot, empties the log, stores the line number and opens the
line, and nothing else changes; in a line it faults. -/
def Obligations.BeginLine : Prop := ∀ (s : State) (first vpos : Position), Running s →
  (s.pipe.phase = .idle → exec (.beginLine first vpos) s = .next { s with pipe := { s.pipe with
    cursor := first.toNat, snap0 := s.pipe.bplcon0, snap1 := s.pipe.bplcon1, snap2 := s.pipe.bplcon2
    log := [], lineVpos := vpos, phase := .inLine } })
  ∧ (s.pipe.phase = .inLine →
      exec (.beginLine first vpos) s = .next (s.faultedWith .sequence (.sequence .beginLine .inLine)))

/-- The sequence protocol (R222): END without an open line faults, and no command raises `SEQUENCE` but a BEGIN in a line and
an END outside one. -/
def Obligations.SequenceProtocol : Prop :=
  (∀ (s : State) (vf hf : Bool) (hopen hclose vpos : Position), Running s → s.pipe.phase = .idle →
    exec (.endLine vf hf hopen hclose vpos) s = .next (s.faultedWith .sequence (.sequence .endLine .idle)))
  ∧ ∀ (s t : State) (i : Instr), Running s → exec i s = .next t →
    (t.pipe.fault = some .sequence ↔
      ((∃ first vpos, i = .beginLine first vpos) ∧ s.pipe.phase = .inLine)
      ∨ ((∃ vf hf hopen hclose vpos, i = .endLine vf hf hopen hclose vpos) ∧ s.pipe.phase = .idle))

/-- END of a non-visible line (R225): the log is emptied, the overlay hook is the one event, the line is closed, and nothing
else changes. -/
def Obligations.NonVisibleEnd : Prop := ∀ (s : State) (vf hf : Bool) (hopen hclose vpos : Position), Running s →
  s.pipe.phase = .inLine → vpos.toNat < s.config.firstVisibleLine →
  exec (.endLine vf hf hopen hclose vpos) s = .next { s with
    pipe := { s.pipe with log := [], phase := .idle }, trace := s.trace ++ [.debugOverlay vpos] }

/-- END of a visible line completes (R221, R226), and this is all it changes (R235): the three pixel buffers, the `armed`
flags, the log and the phase. It emits the collision hook and then the picture, each with the `L` cells of the line. The
picture shows the colour indices it leaves, and the hook the depths it leaves. -/
def Obligations.VisibleEndFrame : Prop := ∀ (s : State) (vf hf : Bool) (hopen hclose vpos : Position), Running s →
  s.config.Valid → PipelineInv s.config s.pipe → s.pipe.phase = .inLine → s.config.firstVisibleLine ≤ vpos.toNat →
  ∃ raw cidx depth shown,
    exec (.endLine vf hf hopen hclose vpos) s = .next { s with
      pipe := { s.pipe with
        raw := raw, cidx := cidx, depth := depth, log := [], phase := .idle
        spr := if vf = true ∧ ∃ x : Fin 8, (s.pipe.spr[x]).armed = true
          then s.pipe.spr.map (fun sp => { sp with armed := false }) else s.pipe.spr }
      trace := s.trace ++ [.collisionHook (cellsBelow depth s.config.linePixels) shown,
        .colorize vpos (cellsBelow cidx s.config.linePixels)] }
    ∧ shown.length = s.config.linePixels
    ∧ ∀ i, s.config.linePixels ≤ i → readCell cidx i = readCell s.pipe.cidx i ∧ readCell depth i = readCell s.pipe.depth i

/-- The picture of a visible line, cell by cell (R164 to R166, R193, R194, R197, R210, R212): the raw value is resolved with the
control register values in effect at its cell (R149, an inference the spec marks as derived); with the vertical display
enabled, the armed sprites' layers are composited over it, the greatest tag winning (R198, another); the hook carries that;
and the border covers the colour index, not the depth. -/
def Obligations.VisibleEndPicture : Prop := ∀ (s t : State) (vf hf : Bool) (hopen hclose vpos : Position), Running s →
  s.config.Valid → PipelineInv s.config s.pipe → s.pipe.phase = .inLine → s.config.firstVisibleLine ≤ vpos.toNat →
  exec (.endLine vf hf hopen hclose vpos) s = .next t →
  ∃ shown : Buffer 6, ∃ picture : List ColourIndex,
    t.trace = s.trace ++ [.collisionHook (cellsBelow t.pipe.depth s.config.linePixels) (cellsBelow shown s.config.linePixels),
      .colorize vpos picture]
    ∧ picture.length = s.config.linePixels
    ∧ ∀ i, i < s.config.linePixels →
      picture[i]? = some (readCell t.pipe.cidx i)
      ∧ (vf = true →
          Composited (layersOf s.pipe pairOrder) i
            (resolvedPixel s.config (activeAt s.pipe i) (readCell s.pipe.raw i)) ⟨readCell shown i, readCell t.pipe.depth i⟩)
      ∧ (vf = false →
          (⟨readCell shown i, readCell t.pipe.depth i⟩ : Pixel)
            = resolvedPixel s.config (activeAt s.pipe i) (readCell s.pipe.raw i))
      ∧ (InBorder s.config vf hf hopen hclose i → readCell t.pipe.cidx i = 0#6)
      ∧ (¬ InBorder s.config vf hf hopen hclose i → readCell t.pipe.cidx i = readCell shown i)

/-- The raw buffer after a visible line (R169, R228): the line's cells are consumed, and with `WRAP_TAIL` each cell takes the
cell `L` places on, or zero where there is none or `L = 0`; without it the tail stays. In a buffer longer than two lines this
follows the loop of R228 where R233, an inference the spec marks as derived, has the whole tail zero: the model's reading,
log entry 8. -/
def Obligations.VisibleEndTail : Prop := ∀ (s t : State) (vf hf : Bool) (hopen hclose vpos : Position), Running s →
  s.config.Valid → PipelineInv s.config s.pipe → s.pipe.phase = .inLine → s.config.firstVisibleLine ≤ vpos.toNat →
  exec (.endLine vf hf hopen hclose vpos) s = .next t → ∀ i, i < s.config.bufPixels →
  (s.config.wrapTail = true → 0 < s.config.linePixels → i + s.config.linePixels < s.config.bufPixels →
    readCell t.pipe.raw i = readCell s.pipe.raw (i + s.config.linePixels))
  ∧ (s.config.wrapTail = true → (s.config.linePixels = 0 ∨ s.config.bufPixels ≤ i + s.config.linePixels) →
    readCell t.pipe.raw i = 0#6)
  ∧ (s.config.wrapTail = false →
    readCell t.pipe.raw i = if i < s.config.linePixels then 0#6 else readCell s.pipe.raw i)

/-- A visible line with the vertical display off (R234): the raw cells are consumed, the log is cleared, the sprites stay as
they are, the hook is emitted, and the picture is `L` border cells. -/
def Obligations.BlankLine : Prop := ∀ (s : State) (hf : Bool) (hopen hclose vpos : Position), Running s →
  s.config.Valid → PipelineInv s.config s.pipe → s.pipe.phase = .inLine → s.config.firstVisibleLine ≤ vpos.toNat →
  ∃ raw cidx depth shown,
    exec (.endLine false hf hopen hclose vpos) s = .next { s with
      pipe := { s.pipe with raw := raw, cidx := cidx, depth := depth, log := [], phase := .idle }
      trace := s.trace ++ [.collisionHook (cellsBelow depth s.config.linePixels) shown,
        .colorize vpos (List.replicate s.config.linePixels 0#6)] }
    ∧ ∀ i, i < s.config.linePixels → readCell raw i =
        if s.config.wrapTail = true ∧ i + s.config.linePixels < s.config.bufPixels
        then readCell s.pipe.raw (i + s.config.linePixels) else 0#6

/-- A control change acts on no cell before its position (R83): with one more change recorded at the log's end, the END of a
visible line leaves the same colour indices and depths in every cell before it. A change at position `L` acts on none. -/
def Obligations.ChangesActFromTheirPosition : Prop :=
  ∀ (s : State) (e : LogEntry) (vf hf : Bool) (hopen hclose vpos : Position), Running s →
  s.config.Valid → PipelineInv s.config s.pipe → PipelineInv s.config { s.pipe with log := s.pipe.log ++ [e] } →
  s.pipe.phase = .inLine → s.config.firstVisibleLine ≤ vpos.toNat →
  ∃ t u, exec (.endLine vf hf hopen hclose vpos) s = .next t
    ∧ exec (.endLine vf hf hopen hclose vpos) { s with pipe := { s.pipe with log := s.pipe.log ++ [e] } } = .next u
    ∧ u.pipe.raw = t.pipe.raw
    ∧ ∀ i, i < e.pos →
      readCell u.pipe.cidx i = readCell t.pipe.cidx i ∧ readCell u.pipe.depth i = readCell t.pipe.depth i

/-- Of two changes of one register at one position the first has no effect (R151, an inference the spec marks as derived),
whatever is recorded before, between and after them: the END of the line does the same without it. -/
def Obligations.LastChangeAtAPositionWins : Prop :=
  ∀ (s : State) (before between later : List LogEntry) (e f : LogEntry) (vf hf : Bool) (hopen hclose vpos : Position), Running s →
  s.config.Valid → PipelineInv s.config s.pipe → s.pipe.phase = .inLine →
  s.pipe.log = before ++ [e] ++ between ++ [f] ++ later → e.pos = f.pos → e.reg = f.reg →
  exec (.endLine vf hf hopen hclose vpos) s
    = exec (.endLine vf hf hopen hclose vpos) { s with pipe := { s.pipe with log := before ++ between ++ [f] ++ later } }

/-- BPLCON1 has no part in the resolution of a line (R131, R148): with any other live value, any other snapshot value and any
other values in its log entries, END does the same and leaves those values. -/
def Obligations.ScrollHasNoPartInEnd : Prop :=
  ∀ (s t : State) (live snap : Word16) (f : LogEntry → Word16) (vf hf : Bool) (hopen hclose vpos : Position), Running s →
  s.config.Valid → PipelineInv s.config s.pipe → s.pipe.phase = .inLine →
  exec (.endLine vf hf hopen hclose vpos) s = .next t →
  exec (.endLine vf hf hopen hclose vpos) { s with pipe := { s.pipe with
      bplcon1 := live, snap1 := snap
      log := s.pipe.log.map (fun e => if e.reg = .bplcon1 then { e with value := f e } else e) } }
    = .next { t with pipe := { t.pipe with bplcon1 := live, snap1 := snap } }

/-! ### Interface commands (46_interface_misc.md) -/

/-- The 32 colour register pokes, `pokeColor00` to `pokeColor31` (R240): one event with the register, the value and the
position, unchecked, and no state changes. -/
def Obligations.ColourPoke : Prop := ∀ (s : State) (n : Fin 32) (pix : Position) (val : Word16), Running s →
  exec (pokeColor n pix val) s = .next { s with trace := s.trace ++ [.colorPoke n val pix] }

/-- INSPECT (R242, R243): one event with the snapshot, field by field, and no state changes. -/
def Obligations.InspectSnapshot : Prop := ∀ s : State, Running s →
  exec .inspect s = .next { s with trace := s.trace ++ [.inspect {
    bplcon0 := s.pipe.bplcon0, bplcon1 := s.pipe.bplcon1, bplcon2 := s.pipe.bplcon2
    snap0 := s.pipe.snap0, snap1 := s.pipe.snap1, snap2 := s.pipe.snap2
    scroll1 := s.pipe.bplcon1.extractLsb' 0 4, scroll2 := s.pipe.bplcon1.extractLsb' 4 4
    dual := s.pipe.bplcon0.getLsbD 10
    prio1 := prio1 s.config s.pipe.bplcon2, prio2 := prio2 s.config s.pipe.bplcon2
    prio12 := prio12 s.config s.pipe.bplcon2, pf2pri := pf2pri s.pipe.bplcon2
    shiftReg := s.pipe.shiftReg, spr := s.pipe.spr
    cursor := s.pipe.cursor, phase := s.pipe.phase, lineVpos := s.pipe.lineVpos
    logLength := s.pipe.log.length, log := s.pipe.log, fault := none }] }

/-- Pokes of unmapped offsets and NOP (R246, R248): no state written, no event; and the all-zero word is NOP. -/
def Obligations.UnmappedPokeAndNop : Prop :=
  (∀ (s : State) (reg : BitVec 9) (pix : Position) (val : Word16), exec (.pokeUnmapped reg pix val) s = .next s)
  ∧ (∀ s : State, exec .nop s = .next s)
  ∧ decode 0#64 = .ok .nop

/-! ### Pseudo-instructions (30_encoding.md R104) -/

/-- `SPRITE x, h, a, b, att` (R104): run on a running pipeline it leaves sprite `x` with that start, those pattern words and that
attach flag, armed, and nothing else changed. With DATA written before DATB it leaves the same state. -/
def Obligations.SpriteSetup : Prop := ∀ (s : State) (x : Fin 8) (h : BitVec 9) (a b : Word16) (att : BitVec 1), Running s →
  execAll (spriteSetup x h a b att) s = .next { s with pipe := { s.pipe with
    spr := s.pipe.spr.set x
      { hstart := 0#2 ++ h, dataA := a, dataB := b, armed := true, attach := att.getLsbD 0 } } }
  ∧ execAll [pokeSprPos x 0#12 (0#8 ++ h.extractLsb' 1 8), pokeSprCtl x 0#12 (0#8 ++ att ++ 0#6 ++ h.extractLsb' 0 1),
      pokeSprData x 0#12 a, pokeSprDatb x 0#12 b] s
    = execAll (spriteSetup x h a b att) s

/-- `LOADPLANES` (R104): run on a running pipeline it replaces the low word of every shift register, and nothing else. -/
def Obligations.LoadPlanes : Prop := ∀ (s : State) (w1 w2 w3 w4 w5 w6 : Word16), Running s →
  ∃ regs, execAll (loadPlanes w1 w2 w3 w4 w5 w6) s = .next { s with pipe := { s.pipe with shiftReg := regs } }
    ∧ ∀ k : Fin 6, regs[k] = (s.pipe.shiftReg[k]).extractLsb' 16 16 ++ [w1, w2, w3, w4, w5, w6][k]

/-- `SETSCROLL`, `SETPRIO` and `BLANKLINE` (R104), between lines: the scroll offsets of the odd and the even planes, the two
priority codes and the front flag are those given, and a blank non-visible line leaves the sprites, the shift registers and
the pixel buffers as they are. -/
def Obligations.PseudoInstructions : Prop := ∀ s : State, Running s → s.pipe.phase = .idle →
  (∀ (odd even : BitVec 4) (p : Position), ∃ t, execAll (setScroll odd even p) s = .next t
    ∧ ∀ k : Fin 6, scroll t.pipe.bplcon1 k = if k.val % 2 = 0 then odd.toNat else even.toNat)
  ∧ (∀ (p1 p2 : BitVec 3) (f : BitVec 1) (p : Position), p1.toNat < 5 → p2.toNat < 5 →
    ∃ t, execAll (setPrio p1 p2 f p) s = .next t ∧ prio1 t.config t.pipe.bplcon2 = priorityTag t.config p1
      ∧ prio2 t.config t.pipe.bplcon2 = priorityTag t.config p2 ∧ pf2pri t.pipe.bplcon2 = f.getLsbD 0)
  ∧ ∀ v : Position, v.toNat < s.config.firstVisibleLine →
    ∃ t, execAll (blankLine v) s = .next t ∧ t.pipe.spr = s.pipe.spr ∧ t.pipe.shiftReg = s.pipe.shiftReg
      ∧ t.pipe.raw = s.pipe.raw ∧ t.pipe.cidx = s.pipe.cidx ∧ t.pipe.depth = s.pipe.depth ∧ t.pipe.phase = .idle

/-! ### Whole-machine rules -/

/-- Which commands write the registers (R36, R42, R49): each control register and each sprite field changes only by its own
poke, an `armed` flag being set by the sprite's first pattern word alone and cleared by the END of a visible line with the
vertical display enabled alone; the snapshot and the line number only by BEGIN, the phase only by the line commands,
the log only by control pokes and the line commands, each of them by RESET too. -/
def Obligations.RegisterWriters : Prop := ∀ (s t : State) (i : Instr), exec i s = .next t → i ≠ .reset →
  (t.pipe.bplcon0 ≠ s.pipe.bplcon0 → ∃ pix val, i = .pokeBplcon0 pix val)
  ∧ (t.pipe.bplcon1 ≠ s.pipe.bplcon1 → ∃ pix val, i = .pokeBplcon1 pix val)
  ∧ (t.pipe.bplcon2 ≠ s.pipe.bplcon2 → ∃ pix val, i = .pokeBplcon2 pix val)
  ∧ (t.pipe.snap0 ≠ s.pipe.snap0 ∨ t.pipe.snap1 ≠ s.pipe.snap1 ∨ t.pipe.snap2 ≠ s.pipe.snap2
      ∨ t.pipe.lineVpos ≠ s.pipe.lineVpos → ∃ first vpos, i = .beginLine first vpos)
  ∧ (∀ x : Fin 8,
      ((t.pipe.spr[x]).hstart ≠ (s.pipe.spr[x]).hstart →
        ∃ pix val, i = pokeSprPos x pix val ∨ i = pokeSprCtl x pix val)
      ∧ ((t.pipe.spr[x]).attach ≠ (s.pipe.spr[x]).attach → ∃ pix val, i = pokeSprCtl x pix val)
      ∧ ((t.pipe.spr[x]).dataA ≠ (s.pipe.spr[x]).dataA → ∃ pix val, i = pokeSprData x pix val)
      ∧ ((t.pipe.spr[x]).dataB ≠ (s.pipe.spr[x]).dataB → ∃ pix val, i = pokeSprDatb x pix val)
      ∧ ((s.pipe.spr[x]).armed = false → (t.pipe.spr[x]).armed = true → ∃ pix val, i = pokeSprData x pix val)
      ∧ ((s.pipe.spr[x]).armed = true → (t.pipe.spr[x]).armed = false →
        ∃ hf hopen hclose vpos, i = .endLine true hf hopen hclose vpos ∧ s.config.firstVisibleLine ≤ vpos.toNat))
  ∧ (t.pipe.phase ≠ s.pipe.phase →
      (∃ first vpos, i = .beginLine first vpos) ∨ ∃ vf hf hopen hclose vpos, i = .endLine vf hf hopen hclose vpos)
  ∧ (t.pipe.log ≠ s.pipe.log →
      (∃ pix val, i = .pokeBplcon0 pix val ∨ i = .pokeBplcon1 pix val ∨ i = .pokeBplcon2 pix val)
      ∨ (∃ first vpos, i = .beginLine first vpos) ∨ ∃ vf hf hopen hclose vpos, i = .endLine vf hf hopen hclose vpos)

/-- Which commands write the shift pipeline and the pixel buffers (R37 to R41): a shift register changes only by its data poke
and by DRAW, the cursor only by DRAW and BEGIN, `raw` only by DRAW and END, `cidx` and `depth` only by END, each of them by
RESET too. -/
def Obligations.PixelWriters : Prop := ∀ (s t : State) (i : Instr), exec i s = .next t → i ≠ .reset →
  (∀ k : Fin 6, t.pipe.shiftReg[k] ≠ s.pipe.shiftReg[k] →
    (∃ pix val, i = pokeBplDat k pix val) ∨ ∃ hires n, i = .draw hires n)
  ∧ (t.pipe.cursor ≠ s.pipe.cursor → (∃ hires n, i = .draw hires n) ∨ ∃ first vpos, i = .beginLine first vpos)
  ∧ (t.pipe.raw ≠ s.pipe.raw →
      (∃ hires n, i = .draw hires n) ∨ ∃ vf hf hopen hclose vpos, i = .endLine vf hf hopen hclose vpos)
  ∧ (t.pipe.cidx ≠ s.pipe.cidx ∨ t.pipe.depth ≠ s.pipe.depth →
      ∃ vf hf hopen hclose vpos, i = .endLine vf hf hopen hclose vpos)

/-- Which commands emit which events (R84): the picture and the hook come from an END of a visible line, the overlay from an
END of another, a colour event from its poke, a snapshot from INSPECT, and a fault report from a command that faults. -/
def Obligations.EventSources : Prop := ∀ (s t : State) (i : Instr) (events : List Event), exec i s = .next t →
  t.trace = s.trace ++ events →
  (∀ vpos picture, .colorize vpos picture ∈ events → s.config.firstVisibleLine ≤ vpos.toNat
    ∧ ∃ vf hf hopen hclose, i = .endLine vf hf hopen hclose vpos)
  ∧ (∀ depth shown, .collisionHook depth shown ∈ events → ∃ vf hf hopen hclose vpos,
      i = .endLine vf hf hopen hclose vpos ∧ s.config.firstVisibleLine ≤ vpos.toNat)
  ∧ (∀ vpos, .debugOverlay vpos ∈ events → vpos.toNat < s.config.firstVisibleLine
      ∧ ∃ vf hf hopen hclose, i = .endLine vf hf hopen hclose vpos)
  ∧ (∀ n val pix, .colorPoke n val pix ∈ events → i = pokeColor n pix val)
  ∧ (∀ snapshot, .inspect snapshot ∈ events → i = .inspect)
  ∧ (∀ code info, .faulted code info ∈ events → s.pipe.fault = none ∧ t.pipe.fault = some code)
end

