-- ==== Sys2Proof/Laws/Buffer.lean ====
section
/-! SUPPORT. The laws of the pixel buffers: a read after a write, the canonical form, and that two canonical buffers with the
same cells are equal. -/

namespace Sys2Proof.Machine

variable {w : Nat}

@[simp] theorem readCell_nil (i : Nat) : readCell ([] : Buffer w) i = unlistedCell w := rfl

@[simp] theorem unlistedCell_eq : unlistedCell w = 0#w := rfl

theorem readCell_eraseCell (buf : Buffer w) (i j : Nat) :
    readCell (eraseCell buf i) j = if i = j then 0#w else readCell buf j := by
  induction buf with
  | nil => simp [eraseCell]
  | cons cell rest ih =>
    obtain ⟨k, v⟩ := cell
    by_cases hk : k = i
    · subst hk
      by_cases hj : k = j <;> simp_all [eraseCell, readCell]
    · by_cases hj : k = j
      · subst hj
        have : i ≠ k := fun e => hk e.symm
        simp [eraseCell, readCell, hk, this]
      · simp [eraseCell, readCell, hk, hj, ih]

theorem readCell_insertCell (buf : Buffer w) (i j : Nat) (v : BitVec w) (h : ∀ cell ∈ buf, cell.1 ≠ i) :
    readCell (insertCell buf i v) j = if i = j then v else readCell buf j := by
  induction buf with
  | nil => simp [insertCell, readCell]
  | cons cell rest ih =>
    obtain ⟨k, u⟩ := cell
    have hk : k ≠ i := h (k, u) (by simp)
    have ih := ih (fun cell hc => h cell (List.mem_cons_of_mem _ hc))
    by_cases hlt : i < k
    · simp [insertCell, hlt, readCell]
    · by_cases hj : k = j
      · subst hj
        simp [insertCell, hlt, readCell, Ne.symm hk]
      · simp [insertCell, hlt, readCell, hj, ih]

theorem mem_eraseCell {buf : Buffer w} {i : Nat} {cell : Nat × BitVec w} :
    cell ∈ eraseCell buf i ↔ cell ∈ buf ∧ cell.1 ≠ i := by
  induction buf with
  | nil => simp [eraseCell]
  | cons head rest ih =>
    obtain ⟨k, v⟩ := head
    by_cases hk : k = i
    · subst hk
      simp only [eraseCell, if_true, ih, List.mem_cons]
      constructor
      · rintro ⟨h, hne⟩; exact ⟨.inr h, hne⟩
      · rintro ⟨rfl | h, hne⟩
        · exact absurd rfl hne
        · exact ⟨h, hne⟩
    · simp only [eraseCell, hk, if_false, List.mem_cons, ih]
      constructor
      · rintro (rfl | ⟨h, hne⟩)
        · exact ⟨.inl rfl, hk⟩
        · exact ⟨.inr h, hne⟩
      · rintro ⟨rfl | h, hne⟩
        · exact .inl rfl
        · exact .inr ⟨h, hne⟩

theorem mem_insertCell {buf : Buffer w} {i : Nat} {v : BitVec w} {cell : Nat × BitVec w} :
    cell ∈ insertCell buf i v ↔ cell = (i, v) ∨ cell ∈ buf := by
  induction buf with
  | nil => simp [insertCell]
  | cons head rest ih =>
    obtain ⟨k, u⟩ := head
    by_cases hlt : i < k
    · simp [insertCell, hlt]
    · simp only [insertCell, hlt, if_false, List.mem_cons, ih]
      tauto

/-- A read after a write: the written cell holds the value, every other cell what it held. It holds of every buffer. -/
@[simp] theorem readCell_writeCell (buf : Buffer w) (i j : Nat) (v : BitVec w) :
    readCell (writeCell buf i v) j = if i = j then v else readCell buf j := by
  unfold writeCell
  split
  · next h => rw [readCell_eraseCell, h]; rfl
  · rw [readCell_insertCell _ _ _ _ (fun cell hc => (mem_eraseCell.1 hc).2), readCell_eraseCell]
    split <;> rfl

/-! ### The canonical form -/

theorem Buffer.wf_iff (buf : Buffer w) :
    Buffer.wf buf = true ↔ buf.Pairwise (fun a b => a.1 < b.1) ∧ ∀ cell ∈ buf, cell.2 ≠ 0#w := by
  simp [Buffer.wf]

theorem wf_nil : Buffer.wf ([] : Buffer w) = true := by simp [Buffer.wf_iff]

theorem wf_eraseCell {buf : Buffer w} (h : Buffer.wf buf = true) (i : Nat) : Buffer.wf (eraseCell buf i) = true := by
  rw [Buffer.wf_iff] at h ⊢
  refine ⟨?_, fun cell hc => h.2 cell (mem_eraseCell.1 hc).1⟩
  replace h := h.1
  induction buf with
  | nil => simp [eraseCell]
  | cons head rest ih =>
    obtain ⟨k, v⟩ := head
    rw [List.pairwise_cons] at h
    by_cases hk : k = i
    · simpa [eraseCell, hk] using ih h.2
    · simp only [eraseCell, hk, if_false, List.pairwise_cons]
      exact ⟨fun cell hc => h.1 cell (mem_eraseCell.1 hc).1, ih h.2⟩

theorem sorted_insertCell {buf : Buffer w} {i : Nat} (v : BitVec w) (h : buf.Pairwise (fun a b => a.1 < b.1))
    (hi : ∀ cell ∈ buf, cell.1 ≠ i) : (insertCell buf i v).Pairwise (fun a b => a.1 < b.1) := by
  induction buf with
  | nil => simp [insertCell]
  | cons head rest ih =>
    obtain ⟨k, u⟩ := head
    have hk : k ≠ i := hi (k, u) (by simp)
    rw [List.pairwise_cons] at h
    by_cases hlt : i < k
    · simp only [insertCell, hlt, if_true, List.pairwise_cons, List.mem_cons]
      refine ⟨?_, h⟩
      rintro cell (rfl | hc)
      · exact hlt
      · exact lt_trans hlt (h.1 cell hc)
    · simp only [insertCell, hlt, if_false, List.pairwise_cons]
      refine ⟨fun cell hc => ?_, ih h.2 (fun cell hc => hi cell (List.mem_cons_of_mem _ hc))⟩
      rcases mem_insertCell.1 hc with rfl | hc
      · show k < i
        omega
      · exact h.1 cell hc

/-- Every write keeps the canonical form. -/
theorem wf_writeCell {buf : Buffer w} (h : Buffer.wf buf = true) (i : Nat) (v : BitVec w) :
    Buffer.wf (writeCell buf i v) = true := by
  unfold writeCell
  split
  · exact wf_eraseCell h i
  · next hv =>
    have he := (Buffer.wf_iff _).1 (wf_eraseCell h i)
    rw [Buffer.wf_iff]
    refine ⟨sorted_insertCell v he.1 (fun cell hc => (mem_eraseCell.1 hc).2), fun cell hc => ?_⟩
    rcases mem_insertCell.1 hc with rfl | hc
    · exact hv
    · exact he.2 cell hc

theorem readCell_of_forall_lt {buf : Buffer w} {i : Nat} (h : ∀ cell ∈ buf, i < cell.1) : readCell buf i = 0#w := by
  induction buf with
  | nil => rfl
  | cons head rest ih =>
    obtain ⟨k, v⟩ := head
    have hk : i < k := h (k, v) (by simp)
    have : k ≠ i := by omega
    simpa [readCell, this] using ih (fun cell hc => h cell (List.mem_cons_of_mem _ hc))

/-- Two canonical buffers with the same cells are equal. -/
theorem buffer_ext {a b : Buffer w} (ha : Buffer.wf a = true) (hb : Buffer.wf b = true)
    (h : ∀ i, readCell a i = readCell b i) : a = b := by
  rw [Buffer.wf_iff] at ha hb
  induction a generalizing b with
  | nil =>
    cases b with
    | nil => rfl
    | cons head rest =>
      obtain ⟨k, v⟩ := head
      have := h k
      simp only [unlistedCell_eq, readCell, if_true] at this
      exact absurd this.symm (hb.2 (k, v) (by simp))
  | cons head rest ih =>
    obtain ⟨k, v⟩ := head
    have hv : v ≠ 0#w := ha.2 (k, v) (by simp)
    have ha1 := List.pairwise_cons.1 ha.1
    cases b with
    | nil =>
      have := h k
      simp only [unlistedCell_eq, readCell, if_true] at this
      exact absurd this hv
    | cons head' rest' =>
      obtain ⟨k', v'⟩ := head'
      have hv' : v' ≠ 0#w := hb.2 (k', v') (by simp)
      have hb1 := List.pairwise_cons.1 hb.1
      have hkk : k = k' := by
        rcases Nat.lt_trichotomy k k' with hlt | heq | hlt
        · have hz : readCell ((k', v') :: rest') k = 0#w := readCell_of_forall_lt (by
            intro cell hc
            rcases List.mem_cons.1 hc with rfl | hc
            · exact hlt
            · exact lt_trans hlt (hb1.1 cell hc))
          have := h k
          rw [hz] at this
          simp only [readCell, if_true] at this
          exact absurd this hv
        · exact heq
        · have hz : readCell ((k, v) :: rest) k' = 0#w := readCell_of_forall_lt (by
            intro cell hc
            rcases List.mem_cons.1 hc with rfl | hc
            · exact hlt
            · exact lt_trans hlt (ha1.1 cell hc))
          have := h k'
          rw [hz] at this
          simp only [readCell, if_true] at this
          exact absurd this.symm hv'
      subst hkk
      have hvv : v = v' := by simpa [readCell] using h k
      subst hvv
      have : rest = rest' := by
        refine ih ⟨ha1.2, fun cell hc => ha.2 cell (List.mem_cons_of_mem _ hc)⟩
          ⟨hb1.2, fun cell hc => hb.2 cell (List.mem_cons_of_mem _ hc)⟩ (fun i => ?_)
        by_cases hi : k = i
        · subst hi
          rw [readCell_of_forall_lt (fun cell hc => ha1.1 cell hc), readCell_of_forall_lt (fun cell hc => hb1.1 cell hc)]
        · simpa [readCell, hi] using h i
      rw [this]

@[simp] theorem cellsBelow_length (buf : Buffer w) (n : Nat) : (cellsBelow buf n).length = n := by simp [cellsBelow]

theorem cellsBelow_getElem (buf : Buffer w) (n i : Nat) (h : i < (cellsBelow buf n).length) :
    (cellsBelow buf n)[i] = readCell buf i := by simp [cellsBelow]

/-! ### Checked accesses -/

theorem bufRead_ok {c : Config} {i : Nat} (h : i < c.bufPixels) (buf : Buffer w) :
    bufRead c buf i = .ok (readCell buf i) := by
  simp [bufRead, Nat.not_le.2 h]

theorem bufWrite_ok {c : Config} {i : Nat} (h : i < c.bufPixels) (buf : Buffer w) (v : BitVec w) :
    bufWrite c buf i v = .ok (writeCell buf i v) := by
  simp [bufWrite, Nat.not_le.2 h]

/-- What a checked read can do. -/
theorem bufRead_cases {c : Config} {buf : Buffer w} {i : Nat} {v : BitVec w} (h : bufRead c buf i = .ok v) :
    i < c.bufPixels ∧ v = readCell buf i := by
  unfold bufRead at h
  split at h
  · cases h
  · next hi => cases h; exact ⟨Nat.lt_of_not_le hi, rfl⟩

/-- What a checked write can do. -/
theorem bufWrite_cases {c : Config} {buf out : Buffer w} {i : Nat} {v : BitVec w} (h : bufWrite c buf i v = .ok out) :
    i < c.bufPixels ∧ out = writeCell buf i v := by
  unfold bufWrite at h
  split at h
  · cases h
  · next hi => cases h; exact ⟨Nat.lt_of_not_le hi, rfl⟩

end Sys2Proof.Machine
end

