-- ==== Sys2Proof/Laws/Loop.lean ====
section
/-! SUPPORT. Rules for the bounded loops and for sequencing: what a completed loop leaves, and when a loop completes. -/

namespace Sys2Proof.Machine

variable {σ α β : Type}

/-- A sequence completes exactly when both parts do. -/
theorem bind_ok_iff {x : Except Raise α} {f : α → Except Raise β} {b : β} :
    x.bind f = .ok b ↔ ∃ a, x = .ok a ∧ f a = .ok b := by
  cases x <;> simp [Except.bind]

theorem bind_eq_ok_iff {x : Except Raise α} {f : α → Except Raise β} {b : β} :
    (x >>= f) = .ok b ↔ ∃ a, x = .ok a ∧ f a = .ok b := bind_ok_iff

@[simp] theorem ok_bind (a : α) (f : α → Except Raise β) : ((Except.ok a : Except Raise α) >>= f) = f a := rfl

@[simp] theorem pure_eq_ok (a : α) : (pure a : Except Raise α) = .ok a := rfl

theorem loopUp_completes {body : Nat → σ → Except Raise σ} (I : Nat → σ → Prop) (count : Nat) :
    ∀ {start : Nat} {s : σ}, I start s →
      (∀ i t, start ≤ i → i < start + count → I i t → ∃ u, body i t = .ok u ∧ I (i + 1) u) →
      ∃ t, loopUp body start count s = .ok t ∧ I (start + count) t := by
  induction count with
  | zero => intro start s hs _; exact ⟨s, rfl, hs⟩
  | succ n ih =>
    intro start s hs hstep
    obtain ⟨u, hu, hIu⟩ := hstep start s (Nat.le_refl _) (by omega) hs
    obtain ⟨t, ht, hIt⟩ := ih (start := start + 1) hIu
      (fun i t h1 h2 hI => hstep i t (by omega) (by omega) hI)
    refine ⟨t, ?_, by rwa [show start + (n + 1) = start + 1 + n by omega]⟩
    simp [loopUp, hu, Except.bind, ht]

/-- A loop completes, with its invariant, when every round does. -/
theorem forRange_completes {a b : Nat} {body : Nat → σ → Except Raise σ} {s : σ} (I : Nat → σ → Prop) (hs : I a s)
    (hstep : ∀ i t, a ≤ i → i < b → I i t → ∃ u, body i t = .ok u ∧ I (i + 1) u) :
    ∃ t, forRange a b body s = .ok t ∧ I (max a b) t := by
  obtain ⟨t, ht, hI⟩ := loopUp_completes I (b - a) hs (fun i t h1 h2 hI => hstep i t h1 (by omega) hI)
  refine ⟨t, ht, ?_⟩
  rwa [show max a b = a + (b - a) by omega]

theorem loopUp_keeps {body : Nat → σ → Except Raise σ} (I : σ → Prop) (hstep : ∀ i t u, I t → body i t = .ok u → I u)
    (count : Nat) : ∀ {start : Nat} {s t : σ}, I s → loopUp body start count s = .ok t → I t := by
  induction count with
  | zero => intro start s t hs h; cases h; exact hs
  | succ n ih =>
    intro start s t hs h
    obtain ⟨u, hu, h⟩ := bind_ok_iff.1 h
    exact ih (hstep start s u hs hu) h

/-- What every round keeps, a completed loop keeps. -/
theorem forRange_keeps {a b : Nat} {body : Nat → σ → Except Raise σ} {s t : σ} (I : σ → Prop)
    (hstep : ∀ i t u, I t → body i t = .ok u → I u) (hs : I s) (h : forRange a b body s = .ok t) : I t :=
  loopUp_keeps I hstep _ hs h

/-- A sequence raises what one of its parts raises. -/
theorem bind_eq_error_iff {x : Except Raise α} {f : α → Except Raise β} {r : Raise} :
    (x >>= f) = .error r ↔ x = .error r ∨ ∃ a, x = .ok a ∧ f a = .error r := by
  cases x with
  | error e => simp [bind, Except.bind]
  | ok a => simp

theorem loopUp_raises {body : Nat → σ → Except Raise σ} (P : Raise → Prop) (hb : ∀ i t r, body i t = .error r → P r)
    (count : Nat) : ∀ {start : Nat} {s : σ} {r : Raise}, loopUp body start count s = .error r → P r := by
  induction count with
  | zero => intro start s r h; cases h
  | succ n ih =>
    intro start s r h
    rcases bind_eq_error_iff.1 h with h | ⟨u, _, h⟩
    · exact hb start s r h
    · exact ih h

/-- A loop raises what one of its rounds raises. -/
theorem forRange_raises {a b : Nat} {body : Nat → σ → Except Raise σ} {s : σ} {r : Raise} (P : Raise → Prop)
    (hb : ∀ i t r, body i t = .error r → P r) (h : forRange a b body s = .error r) : P r :=
  loopUp_raises P hb _ h

theorem loopDown_raises {body : Nat → σ → Except Raise σ} {start : Nat} (P : Raise → Prop)
    (hb : ∀ i t r, body i t = .error r → P r) (count : Nat) :
    ∀ {s : σ} {r : Raise}, loopDown body start count s = .error r → P r := by
  induction count with
  | zero => intro s r h; cases h
  | succ n ih =>
    intro s r h
    rcases bind_eq_error_iff.1 h with h | ⟨u, _, h⟩
    · exact hb _ s r h
    · exact ih h

/-- A descending loop raises what one of its rounds raises. -/
theorem forRangeDown_raises {a b : Nat} {body : Nat → σ → Except Raise σ} {s : σ} {r : Raise} (P : Raise → Prop)
    (hb : ∀ i t r, body i t = .error r → P r) (h : forRangeDown a b body s = .error r) : P r :=
  loopDown_raises P hb _ h

theorem loopDown_completes {body : Nat → σ → Except Raise σ} {start : Nat} (I : Nat → σ → Prop) (count : Nat) :
    ∀ {s : σ}, I count s →
      (∀ i t, i < count → I (i + 1) t → ∃ u, body (start + i) t = .ok u ∧ I i u) →
      ∃ t, loopDown body start count s = .ok t ∧ I 0 t := by
  induction count with
  | zero => intro s hs _; exact ⟨s, rfl, hs⟩
  | succ n ih =>
    intro s hs hstep
    obtain ⟨u, hu, hIu⟩ := hstep n s (by omega) hs
    obtain ⟨t, ht, hIt⟩ := ih hIu (fun i t h1 hI => hstep i t (by omega) hI)
    exact ⟨t, by simp [loopDown, hu, Except.bind, ht], hIt⟩

theorem loopDown_keeps {body : Nat → σ → Except Raise σ} {start : Nat} (I : σ → Prop)
    (hstep : ∀ i t u, I t → body i t = .ok u → I u) (count : Nat) :
    ∀ {s t : σ}, I s → loopDown body start count s = .ok t → I t := by
  induction count with
  | zero => intro s t hs h; cases h; exact hs
  | succ n ih =>
    intro s t hs h
    obtain ⟨u, hu, h⟩ := bind_ok_iff.1 h
    exact ih (hstep _ s u hs hu) h

/-- What every round keeps, a completed descending loop keeps. -/
theorem forRangeDown_keeps {a b : Nat} {body : Nat → σ → Except Raise σ} {s t : σ} (I : σ → Prop)
    (hstep : ∀ i t u, I t → body i t = .ok u → I u) (hs : I s) (h : forRangeDown a b body s = .ok t) : I t :=
  loopDown_keeps I hstep _ hs h

end Sys2Proof.Machine
end

