-- ==== Sys2Proof/Laws/Resolve.lean ====
section
/-! SUPPORT. What the resolver and the replay do, cell by cell. -/

namespace Sys2Proof.Machine

variable {c : Config}

/-- One cell of a resolver. -/
theorem resolveCell_ok {i : Nat} (h : i < c.bufPixels) (pixel : ColourIndex → Pixel) (p : Pipeline) :
    resolveCell c pixel i p = .ok { p with
      cidx := writeCell p.cidx i (pixel (readCell p.raw i)).colour
      depth := writeCell p.depth i (pixel (readCell p.raw i)).tag
      raw := writeCell p.raw i 0#6 } := by
  simp [resolveCell, bufRead_ok h, bufWrite_ok h]

/-- The cells of `q` in `[a, b)` are those of `p` resolved by `pixel`, which may depend on the cell; everything else of `p`
is kept, and so is the canonical form of the buffers. -/
structure ResolvesTo (pixel : Nat → ColourIndex → Pixel) (a b : Nat) (p q : Pipeline) : Prop where
  frame : q = { p with raw := q.raw, cidx := q.cidx, depth := q.depth }
  raw : ∀ i, readCell q.raw i = if a ≤ i ∧ i < b then 0#6 else readCell p.raw i
  cidx : ∀ i, readCell q.cidx i = if a ≤ i ∧ i < b then (pixel i (readCell p.raw i)).colour else readCell p.cidx i
  depth : ∀ i, readCell q.depth i = if a ≤ i ∧ i < b then (pixel i (readCell p.raw i)).tag else readCell p.depth i
  canonical : Memory.wf p = true → Memory.wf q = true

theorem Memory.wf_iff (p : Pipeline) :
    Memory.wf p = true ↔ Buffer.wf p.raw = true ∧ Buffer.wf p.cidx = true ∧ Buffer.wf p.depth = true := by
  simp [Memory.wf, and_assoc]

theorem ResolvesTo.refl (pixel : Nat → ColourIndex → Pixel) {a b : Nat} (h : b ≤ a) (p : Pipeline) :
    ResolvesTo pixel a b p p := by
  have hno : ∀ i, ¬ (a ≤ i ∧ i < b) := fun i => by omega
  exact ⟨rfl, fun i => by simp [hno], fun i => by simp [hno], fun i => by simp [hno], id⟩

/-- One more cell. -/
theorem ResolvesTo.snoc {pixel : Nat → ColourIndex → Pixel} {a i : Nat} {p q : Pipeline} (ha : a ≤ i)
    (h : ResolvesTo pixel a i p q) :
    ResolvesTo pixel a (i + 1) p { q with
      cidx := writeCell q.cidx i (pixel i (readCell q.raw i)).colour
      depth := writeCell q.depth i (pixel i (readCell q.raw i)).tag
      raw := writeCell q.raw i 0#6 } := by
  have hraw : readCell q.raw i = readCell p.raw i := by
    rw [h.raw]; exact if_neg (by omega)
  refine ⟨?_, fun j => ?_, fun j => ?_, fun j => ?_, fun hp => ?_⟩
  · have := h.frame
    rw [this]
  · simp only [readCell_writeCell, h.raw]
    grind
  · simp only [readCell_writeCell, h.cidx, hraw]
    grind
  · simp only [readCell_writeCell, h.depth, hraw]
    grind
  · obtain ⟨h1, h2, h3⟩ := (Memory.wf_iff q).1 (h.canonical hp)
    rw [Memory.wf_iff]
    exact ⟨wf_writeCell h1 i 0#6, wf_writeCell h2 i (pixel i (readCell q.raw i)).colour,
      wf_writeCell h3 i (pixel i (readCell q.raw i)).tag⟩

/-- A resolver's loop inside the buffer. -/
theorem resolveRange_spec {a b : Nat} (hb : b ≤ c.bufPixels) (pixel : ColourIndex → Pixel) (p : Pipeline) :
    ∃ q, forRange a b (resolveCell c pixel) p = .ok q ∧ ResolvesTo (fun _ => pixel) a b p q := by
  obtain ⟨q, hq, hI⟩ := forRange_completes (a := a) (b := b) (body := resolveCell c pixel) (s := p)
    (fun k q => ResolvesTo (fun _ => pixel) a k p q) (ResolvesTo.refl _ (Nat.le_refl _) p)
    (fun i t h1 h2 hI => ⟨_, resolveCell_ok (by omega) pixel t, hI.snoc h1⟩)
  refine ⟨q, hq, ?_⟩
  rcases Nat.le_total b a with h | h
  · rw [max_eq_left h] at hI
    have hno : ∀ i, ¬ (a ≤ i ∧ i < b) := fun i => by omega
    have hno' : ∀ i, ¬ (a ≤ i ∧ i < a) := fun i => by omega
    exact ⟨hI.frame, fun i => by rw [hI.raw]; simp [hno, hno'], fun i => by rw [hI.cidx]; simp [hno, hno'],
      fun i => by rw [hI.depth]; simp [hno, hno'], hI.canonical⟩
  · rwa [max_eq_right h] at hI

/-- What a segment's resolution does (R166). -/
theorem resolveSegment_spec {a b : Nat} (hb : b ≤ c.bufPixels) (v : ActiveValues) (p : Pipeline) :
    ∃ q, resolveSegment c a b v.a0 v.a2 p = .ok q ∧ ResolvesTo (fun _ => resolvedPixel c v) a b p q := by
  have hpix : resolvedPixel c v = if dblpf v.a0 then dualPixel c v.a2 else singlePixel c v.a2 := by
    funext x; unfold resolvedPixel; split <;> rfl
  unfold resolveSegment
  rw [if_neg (by omega), hpix]
  split
  · exact resolveRange_spec hb _ p
  · exact resolveRange_spec hb _ p

/-- Two neighbouring ranges. -/
theorem ResolvesTo.trans {f g : Nat → ColourIndex → Pixel} {a b d : Nat} {p q r : Pipeline} (hab : a ≤ b) (hbd : b ≤ d)
    (h1 : ResolvesTo f a b p q) (h2 : ResolvesTo g b d q r) :
    ResolvesTo (fun i => if i < b then f i else g i) a d p r := by
  have hraw : ∀ i, ¬ (a ≤ i ∧ i < b) → readCell q.raw i = readCell p.raw i := fun i hi => by rw [h1.raw, if_neg hi]
  refine ⟨?_, fun i => ?_, fun i => ?_, fun i => ?_, h2.canonical ∘ h1.canonical⟩
  · have e1 := h1.frame
    have e2 := h2.frame
    rw [e1] at e2
    exact e2
  · rw [h2.raw, h1.raw]
    grind
  · rw [h2.cidx, h1.cidx, h1.raw]
    grind
  · rw [h2.depth, h1.depth, h1.raw]
    grind

theorem ResolvesTo.congr {f g : Nat → ColourIndex → Pixel} {a b : Nat} {p q : Pipeline} (h : ResolvesTo f a b p q)
    (hfg : ∀ i, a ≤ i → i < b → f i = g i) : ResolvesTo g a b p q := by
  refine ⟨h.frame, h.raw, fun i => ?_, fun i => ?_, h.canonical⟩
  · rw [h.cidx]
    split
    · next hi => rw [hfg i hi.1 hi.2]
    · rfl
  · rw [h.depth]
    split
    · next hi => rw [hfg i hi.1 hi.2]
    · rfl

/-- The values in effect at cell `i` after the entries of `log`, from the values `a`. -/
def activeFrom (a : ActiveValues) (log : List LogEntry) (i : Nat) : ActiveValues :=
  (log.filter (fun e => decide (e.pos ≤ i))).foldl (fun a e => applyEntry e a) a

theorem activeAt_eq (p : Pipeline) (i : Nat) : activeAt p i = activeFrom (snapshotValues p) p.log i := rfl

/-- What the replay of the entries of an ordered log, with the sentinel after them, does (R147, R149). -/
theorem replayEntries_spec (hL : c.linePixels ≤ c.bufPixels) (log : List LogEntry) :
    ∀ (a : ActiveValues) (prev : Nat) (p : Pipeline), prev ≤ c.linePixels →
      log.Pairwise (fun x y => x.pos ≤ y.pos) → (∀ e ∈ log, prev ≤ e.pos ∧ e.pos ≤ c.linePixels ∧ e.reg ≠ .noReg) →
      ∃ q, replayEntries c (log ++ [sentinel c]) a prev p = .ok q
        ∧ ResolvesTo (fun i => resolvedPixel c (activeFrom a log i)) prev c.linePixels p q := by
  induction log with
  | nil =>
    intro a prev p _ _ _
    obtain ⟨q, hq, hr⟩ := resolveSegment_spec (a := prev) hL a p
    refine ⟨q, ?_, hr⟩
    simp [replayEntries, checkTarget, sentinel, hq]
  | cons e rest ih =>
    intro a prev p hprev hord hmem
    obtain ⟨he1, he2, he3⟩ := hmem e (by simp)
    rw [List.pairwise_cons] at hord
    obtain ⟨q, hq, hr⟩ := resolveSegment_spec (a := prev) (b := e.pos) (c := c) (by omega) a p
    obtain ⟨r, hr', hrr⟩ := ih (applyEntry e a) e.pos q he2 hord.2
      (fun x hx => ⟨hord.1 x hx, (hmem x (List.mem_cons_of_mem _ hx)).2⟩)
    refine ⟨r, ?_, (hr.trans he1 he2 hrr).congr (fun i h1 h2 => ?_)⟩
    · simp [replayEntries, checkTarget, he3, hq, hr']
    · by_cases hi : i < e.pos
      · have hnone : (e :: rest).filter (fun x => decide (x.pos ≤ i)) = [] := by
          rw [List.filter_eq_nil_iff]
          intro x hx
          rcases List.mem_cons.1 hx with rfl | hx
          · simpa using hi
          · have := hord.1 x hx
            simp only [decide_eq_true_eq, not_le]
            omega
        simp [hi, activeFrom, hnone]
      · have : e.pos ≤ i := by omega
        simp [hi, activeFrom, this]

/-- What the replay does on a visible line (R147, R149, R170): every cell of the line is resolved with the values in effect
there, and the log is empty. -/
theorem replay_spec {p : Pipeline} (hL : c.linePixels ≤ c.bufPixels) (hi : PipelineInv c p) :
    ∃ q, replay c p = .ok q ∧ q.log = []
      ∧ ResolvesTo (fun i => resolvedPixel c (activeAt p i)) 0 c.linePixels p { q with log := p.log } := by
  obtain ⟨q, hq, hr⟩ := replayEntries_spec hL p.log (snapshotValues p) 0 p (Nat.zero_le _) hi.logOrdered
    (fun e he => ⟨Nat.zero_le _, hi.logInLine e he, hi.logTargets e he⟩)
  have hlog : q.log = p.log := by rw [hr.frame]
  refine ⟨{ q with log := [] }, by simp [replay, hq], rfl, ?_⟩
  have : ({ ({ q with log := [] } : Pipeline) with log := p.log } : Pipeline) = q := by
    rw [← hlog]
  rw [this]
  exact hr

end Sys2Proof.Machine
end

