-- ==== Sys2Proof/Laws/Border.lean ====
section
/-! SUPPORT. What the border fill and the tail copy do, cell by cell (44_border_synthesizer.md R210, 45_scanline_orchestrator.md
R228). -/

namespace Sys2Proof.Machine

variable {c : Config}

/-- The cells of `q`'s colour indices where `P` holds are the border's; everything else of `p` is kept. -/
structure BorderedBy (P : Nat → Prop) (p q : Pipeline) : Prop where
  frame : q = { p with cidx := q.cidx }
  filled : ∀ i, P i → readCell q.cidx i = borderIndex
  kept : ∀ i, ¬ P i → readCell q.cidx i = readCell p.cidx i
  canonical : Memory.wf p = true → Memory.wf q = true

theorem BorderedBy.none {P : Nat → Prop} (h : ∀ i, ¬ P i) (p : Pipeline) : BorderedBy P p p :=
  ⟨rfl, fun i hi => absurd hi (h i), fun _ _ => rfl, id⟩

theorem BorderedBy.trans {P Q R : Nat → Prop} {p q r : Pipeline} (h1 : BorderedBy P p q) (h2 : BorderedBy Q q r)
    (hR : ∀ i, R i ↔ P i ∨ Q i) : BorderedBy R p r := by
  refine ⟨?_, fun i hi => ?_, fun i hi => ?_, h2.canonical ∘ h1.canonical⟩
  · have e1 := h1.frame
    have e2 := h2.frame
    rw [e1] at e2
    exact e2
  · by_cases hq : Q i
    · exact h2.filled i hq
    · rw [h2.kept i hq]
      exact h1.filled i (((hR i).1 hi).resolve_right hq)
  · have : ¬ P i ∧ ¬ Q i := not_or.1 (fun h => hi ((hR i).2 h))
    rw [h2.kept i this.2, h1.kept i this.1]

theorem BorderedBy.congr {P Q : Nat → Prop} {p q : Pipeline} (h : BorderedBy P p q) (hPQ : ∀ i, P i ↔ Q i) :
    BorderedBy Q p q :=
  ⟨h.frame, fun i hi => h.filled i ((hPQ i).2 hi), fun i hi => h.kept i (fun hP => hi ((hPQ i).1 hP)), h.canonical⟩

/-- One fill inside the buffer. -/
theorem fillBorder_spec {a b : Nat} (hb : b ≤ c.bufPixels) (p : Pipeline) :
    ∃ q, fillBorder c a b p = .ok q ∧ BorderedBy (fun i => a ≤ i ∧ i < b) p q := by
  obtain ⟨q, hq, hI⟩ := forRange_completes (a := a) (b := b) (s := p)
    (body := fun i p => do
      let cidx ← bufWrite c p.cidx i borderIndex
      return { p with cidx := cidx })
    (fun k q => BorderedBy (fun i => a ≤ i ∧ i < k) p q)
    (BorderedBy.none (fun i => by omega) p)
    (fun i t h1 h2 hI => by
      refine ⟨{ t with cidx := writeCell t.cidx i borderIndex }, ?_, ?_, fun j hj => ?_, fun j hj => ?_, fun hp => ?_⟩
      · simp [bufWrite_ok (show i < c.bufPixels by omega)]
      · have := hI.frame
        rw [this]
      · simp only [readCell_writeCell]
        split
        · rfl
        · exact hI.filled j (by omega)
      · simp only [readCell_writeCell]
        rw [if_neg (by omega)]
        exact hI.kept j (by omega)
      · obtain ⟨h1, h2, h3⟩ := (Memory.wf_iff t).1 (hI.canonical hp)
        rw [Memory.wf_iff]
        exact ⟨h1, wf_writeCell h2 i borderIndex, h3⟩)
  exact ⟨q, hq, hI.congr (fun i => by omega)⟩

/-- What the border fill does (R210): the cells of the border, inside the line, and no other. -/
theorem borderFill_spec (hL : c.linePixels ≤ c.bufPixels) (vf hf : Bool) (hopen hclose : Position) (p : Pipeline) :
    ∃ q, borderFill c vf hf hopen hclose p = .ok q
      ∧ BorderedBy (fun i => i < c.linePixels ∧ InBorder c vf hf hopen hclose i) p q := by
  unfold borderFill
  by_cases hblank : vf = false ∨ windowOpened hf hopen = false
  · obtain ⟨q, hq, hb⟩ := fillBorder_spec (a := 0) hL p
    refine ⟨q, by simp [hblank, hq], hb.congr (fun i => ?_)⟩
    have : InBorder c vf hf hopen hclose i := by
      rcases hblank with h | h
      · exact .inl h
      · simp [windowOpened] at h
        exact .inr (.inl h)
    simp [this]
  · rw [if_neg hblank]
    have hvf : vf = true := by simpa using (not_or.1 hblank).1
    have hopened : hf = false → hopen ≠ unset := by
      intro h
      have := (not_or.1 hblank).2
      simpa [windowOpened, h] using this
    have hleft : ∃ q, fillLeft c hf hopen p = .ok q
        ∧ BorderedBy (fun i => hf = false ∧ hopen ≠ unset ∧ i < min hopen.toNat c.linePixels) p q := by
      unfold fillLeft
      split
      · next h =>
        obtain ⟨q, hq, hb⟩ := fillBorder_spec (c := c) (a := 0) (b := min hopen.toNat c.linePixels) (by omega) p
        exact ⟨q, hq, hb.congr (fun i => by simp [h.1, h.2])⟩
      · next h => exact ⟨p, rfl, BorderedBy.none (fun i hi => h ⟨hi.1, hi.2.1⟩) p⟩
    obtain ⟨q, hq, hbq⟩ := hleft
    have hright : ∃ r, fillRight c hclose q = .ok r
        ∧ BorderedBy (fun i => i < c.linePixels ∧ hclose ≠ unset ∧ hclose.toNat ≤ i) q r := by
      unfold fillRight
      split
      · next h =>
        obtain ⟨r, hr, hb⟩ := fillBorder_spec (c := c) (a := hclose.toNat) hL q
        exact ⟨r, hr, hb.congr (fun i => by simp [h.1, and_comm])⟩
      · next h => exact ⟨q, rfl, BorderedBy.none (fun i hi => h ⟨hi.2.1, by omega⟩) q⟩
    obtain ⟨r, hr, hbr⟩ := hright
    refine ⟨r, by simp [hq, hr], hbq.trans hbr (fun i => ?_)⟩
    simp only [InBorder, hvf]
    constructor
    · rintro ⟨hi, h | h | h | h⟩
      · cases h
      · exact absurd h.2 (hopened h.1)
      · exact .inl h
      · exact .inr ⟨hi, h⟩
    · rintro (h | ⟨hi, h⟩)
      · exact ⟨by omega, .inr (.inr (.inl h))⟩
      · exact ⟨hi, .inr (.inr (.inr h))⟩

/-- What the tail copy does (R228): cell `i` takes the cell `L` places on, and a cell of the tail that takes none is zero.
With an empty line every cell is copied onto itself and then zeroed. -/
structure TailCopied (c : Config) (p q : Pipeline) : Prop where
  frame : q = { p with raw := q.raw }
  raw : ∀ i, readCell q.raw i =
    if 0 < c.linePixels ∧ i + c.linePixels < c.bufPixels then readCell p.raw (i + c.linePixels)
    else if c.linePixels ≤ i ∧ i < c.bufPixels then 0#6 else readCell p.raw i
  canonical : Memory.wf p = true → Memory.wf q = true

/-- One cell of the tail copy's loop. -/
def copyTailCell (c : Config) (i : Nat) (p : Pipeline) : Except Raise Pipeline := do
  let v ← bufRead c p.raw i
  let raw ← bufWrite c p.raw (i - c.linePixels) v
  let raw ← bufWrite c raw i 0#6
  return { p with raw := raw }

theorem copyTailCell_ok {i : Nat} (h : i < c.bufPixels) (p : Pipeline) :
    copyTailCell c i p =
      .ok { p with raw := writeCell (writeCell p.raw (i - c.linePixels) (readCell p.raw i)) i 0#6 } := by
  simp [copyTailCell, bufRead_ok h, bufWrite_ok h, bufWrite_ok (show i - c.linePixels < c.bufPixels by omega)]

theorem tailCopy_spec (c : Config) (p : Pipeline) : ∃ q, tailCopy c p = .ok q ∧ TailCopied c p q := by
  obtain ⟨q, hq, hI⟩ := forRange_completes (a := c.linePixels) (b := c.bufPixels) (s := p) (body := copyTailCell c)
    (fun k q => q = { p with raw := q.raw }
      ∧ (∀ i, readCell q.raw i =
        if 0 < c.linePixels ∧ i + c.linePixels < k then readCell p.raw (i + c.linePixels)
        else if c.linePixels ≤ i ∧ i < k then 0#6 else readCell p.raw i)
      ∧ (Memory.wf p = true → Memory.wf q = true))
    ⟨rfl, fun i => by rw [if_neg (by omega), if_neg (by omega)], id⟩
    (fun i t h1 h2 hI => by
      obtain ⟨hframe, hraw, hwf⟩ := hI
      refine ⟨_, copyTailCell_ok h2 t, by rw [hframe], fun j => ?_, fun hp => ?_⟩
      · have hi : readCell t.raw i = readCell p.raw i := by rw [hraw, if_neg (by omega), if_neg (by omega)]
        simp only [readCell_writeCell, hi]
        rw [hraw j]
        by_cases hj : i = j
        · rw [if_pos hj, if_neg (by omega), if_pos (by omega)]
        · rw [if_neg hj]
          by_cases hj' : i - c.linePixels = j
          · have : j + c.linePixels = i := by omega
            rw [if_pos hj', if_pos (by omega), this]
          · rw [if_neg hj']
            by_cases h3 : 0 < c.linePixels ∧ j + c.linePixels < i
            · rw [if_pos h3, if_pos (by omega)]
            · rw [if_neg h3, if_neg (show ¬ (0 < c.linePixels ∧ j + c.linePixels < i + 1) by omega)]
              by_cases h4 : c.linePixels ≤ j ∧ j < i
              · rw [if_pos h4, if_pos (by omega)]
              · rw [if_neg h4, if_neg (by omega)]
      · obtain ⟨w1, w2, w3⟩ := (Memory.wf_iff t).1 (hwf hp)
        rw [Memory.wf_iff]
        exact ⟨wf_writeCell (wf_writeCell w1 (i - c.linePixels) (readCell t.raw i)) i 0#6, w2, w3⟩)
  refine ⟨q, hq, hI.1, fun i => ?_, hI.2.2⟩
  rw [hI.2.1 i]
  rcases Nat.le_total c.bufPixels c.linePixels with h | h
  · rw [max_eq_left h, if_neg (by omega), if_neg (by omega), if_neg (by omega), if_neg (by omega)]
  · rw [max_eq_right h]

end Sys2Proof.Machine
end

