-- ==== Sys2Proof/Laws/State.lean ====
section
/-! SUPPORT. One lemma per field per named update of the state. -/

namespace Sys2Proof.Machine

/-! `Pipeline.setShiftReg` -/

@[simp] theorem Pipeline.setShiftReg_bplcon0 (p : Pipeline) (k : Fin 6) (v : BitVec 32) : (p.setShiftReg k v).bplcon0 = p.bplcon0 := rfl
@[simp] theorem Pipeline.setShiftReg_bplcon1 (p : Pipeline) (k : Fin 6) (v : BitVec 32) : (p.setShiftReg k v).bplcon1 = p.bplcon1 := rfl
@[simp] theorem Pipeline.setShiftReg_bplcon2 (p : Pipeline) (k : Fin 6) (v : BitVec 32) : (p.setShiftReg k v).bplcon2 = p.bplcon2 := rfl
@[simp] theorem Pipeline.setShiftReg_snap0 (p : Pipeline) (k : Fin 6) (v : BitVec 32) : (p.setShiftReg k v).snap0 = p.snap0 := rfl
@[simp] theorem Pipeline.setShiftReg_snap1 (p : Pipeline) (k : Fin 6) (v : BitVec 32) : (p.setShiftReg k v).snap1 = p.snap1 := rfl
@[simp] theorem Pipeline.setShiftReg_snap2 (p : Pipeline) (k : Fin 6) (v : BitVec 32) : (p.setShiftReg k v).snap2 = p.snap2 := rfl
@[simp] theorem Pipeline.setShiftReg_shiftReg (p : Pipeline) (k : Fin 6) (v : BitVec 32) : (p.setShiftReg k v).shiftReg = p.shiftReg.set k v := rfl
@[simp] theorem Pipeline.setShiftReg_cursor (p : Pipeline) (k : Fin 6) (v : BitVec 32) : (p.setShiftReg k v).cursor = p.cursor := rfl
@[simp] theorem Pipeline.setShiftReg_raw (p : Pipeline) (k : Fin 6) (v : BitVec 32) : (p.setShiftReg k v).raw = p.raw := rfl
@[simp] theorem Pipeline.setShiftReg_cidx (p : Pipeline) (k : Fin 6) (v : BitVec 32) : (p.setShiftReg k v).cidx = p.cidx := rfl
@[simp] theorem Pipeline.setShiftReg_depth (p : Pipeline) (k : Fin 6) (v : BitVec 32) : (p.setShiftReg k v).depth = p.depth := rfl
@[simp] theorem Pipeline.setShiftReg_spr (p : Pipeline) (k : Fin 6) (v : BitVec 32) : (p.setShiftReg k v).spr = p.spr := rfl
@[simp] theorem Pipeline.setShiftReg_log (p : Pipeline) (k : Fin 6) (v : BitVec 32) : (p.setShiftReg k v).log = p.log := rfl
@[simp] theorem Pipeline.setShiftReg_phase (p : Pipeline) (k : Fin 6) (v : BitVec 32) : (p.setShiftReg k v).phase = p.phase := rfl
@[simp] theorem Pipeline.setShiftReg_lineVpos (p : Pipeline) (k : Fin 6) (v : BitVec 32) : (p.setShiftReg k v).lineVpos = p.lineVpos := rfl
@[simp] theorem Pipeline.setShiftReg_fault (p : Pipeline) (k : Fin 6) (v : BitVec 32) : (p.setShiftReg k v).fault = p.fault := rfl

/-! `Pipeline.setSprite` -/

@[simp] theorem Pipeline.setSprite_bplcon0 (p : Pipeline) (x : Fin 8) (sp : Sprite) : (p.setSprite x sp).bplcon0 = p.bplcon0 := rfl
@[simp] theorem Pipeline.setSprite_bplcon1 (p : Pipeline) (x : Fin 8) (sp : Sprite) : (p.setSprite x sp).bplcon1 = p.bplcon1 := rfl
@[simp] theorem Pipeline.setSprite_bplcon2 (p : Pipeline) (x : Fin 8) (sp : Sprite) : (p.setSprite x sp).bplcon2 = p.bplcon2 := rfl
@[simp] theorem Pipeline.setSprite_snap0 (p : Pipeline) (x : Fin 8) (sp : Sprite) : (p.setSprite x sp).snap0 = p.snap0 := rfl
@[simp] theorem Pipeline.setSprite_snap1 (p : Pipeline) (x : Fin 8) (sp : Sprite) : (p.setSprite x sp).snap1 = p.snap1 := rfl
@[simp] theorem Pipeline.setSprite_snap2 (p : Pipeline) (x : Fin 8) (sp : Sprite) : (p.setSprite x sp).snap2 = p.snap2 := rfl
@[simp] theorem Pipeline.setSprite_shiftReg (p : Pipeline) (x : Fin 8) (sp : Sprite) : (p.setSprite x sp).shiftReg = p.shiftReg := rfl
@[simp] theorem Pipeline.setSprite_cursor (p : Pipeline) (x : Fin 8) (sp : Sprite) : (p.setSprite x sp).cursor = p.cursor := rfl
@[simp] theorem Pipeline.setSprite_raw (p : Pipeline) (x : Fin 8) (sp : Sprite) : (p.setSprite x sp).raw = p.raw := rfl
@[simp] theorem Pipeline.setSprite_cidx (p : Pipeline) (x : Fin 8) (sp : Sprite) : (p.setSprite x sp).cidx = p.cidx := rfl
@[simp] theorem Pipeline.setSprite_depth (p : Pipeline) (x : Fin 8) (sp : Sprite) : (p.setSprite x sp).depth = p.depth := rfl
@[simp] theorem Pipeline.setSprite_spr (p : Pipeline) (x : Fin 8) (sp : Sprite) : (p.setSprite x sp).spr = p.spr.set x sp := rfl
@[simp] theorem Pipeline.setSprite_log (p : Pipeline) (x : Fin 8) (sp : Sprite) : (p.setSprite x sp).log = p.log := rfl
@[simp] theorem Pipeline.setSprite_phase (p : Pipeline) (x : Fin 8) (sp : Sprite) : (p.setSprite x sp).phase = p.phase := rfl
@[simp] theorem Pipeline.setSprite_lineVpos (p : Pipeline) (x : Fin 8) (sp : Sprite) : (p.setSprite x sp).lineVpos = p.lineVpos := rfl
@[simp] theorem Pipeline.setSprite_fault (p : Pipeline) (x : Fin 8) (sp : Sprite) : (p.setSprite x sp).fault = p.fault := rfl

/-! `Pipeline.disarmAll` and `shiftPlanes` -/

@[simp] theorem Pipeline.disarmAll_bplcon0 (p : Pipeline) : p.disarmAll.bplcon0 = p.bplcon0 := rfl
@[simp] theorem Pipeline.disarmAll_bplcon1 (p : Pipeline) : p.disarmAll.bplcon1 = p.bplcon1 := rfl
@[simp] theorem Pipeline.disarmAll_bplcon2 (p : Pipeline) : p.disarmAll.bplcon2 = p.bplcon2 := rfl
@[simp] theorem Pipeline.disarmAll_snap0 (p : Pipeline) : p.disarmAll.snap0 = p.snap0 := rfl
@[simp] theorem Pipeline.disarmAll_snap1 (p : Pipeline) : p.disarmAll.snap1 = p.snap1 := rfl
@[simp] theorem Pipeline.disarmAll_snap2 (p : Pipeline) : p.disarmAll.snap2 = p.snap2 := rfl
@[simp] theorem Pipeline.disarmAll_shiftReg (p : Pipeline) : p.disarmAll.shiftReg = p.shiftReg := rfl
@[simp] theorem Pipeline.disarmAll_cursor (p : Pipeline) : p.disarmAll.cursor = p.cursor := rfl
@[simp] theorem Pipeline.disarmAll_raw (p : Pipeline) : p.disarmAll.raw = p.raw := rfl
@[simp] theorem Pipeline.disarmAll_cidx (p : Pipeline) : p.disarmAll.cidx = p.cidx := rfl
@[simp] theorem Pipeline.disarmAll_depth (p : Pipeline) : p.disarmAll.depth = p.depth := rfl
@[simp] theorem Pipeline.disarmAll_log (p : Pipeline) : p.disarmAll.log = p.log := rfl
@[simp] theorem Pipeline.disarmAll_phase (p : Pipeline) : p.disarmAll.phase = p.phase := rfl
@[simp] theorem Pipeline.disarmAll_lineVpos (p : Pipeline) : p.disarmAll.lineVpos = p.lineVpos := rfl
@[simp] theorem Pipeline.disarmAll_fault (p : Pipeline) : p.disarmAll.fault = p.fault := rfl
@[simp] theorem shiftPlanes_bplcon0 (n : Nat) (p : Pipeline) : (shiftPlanes n p).bplcon0 = p.bplcon0 := rfl
@[simp] theorem shiftPlanes_bplcon1 (n : Nat) (p : Pipeline) : (shiftPlanes n p).bplcon1 = p.bplcon1 := rfl
@[simp] theorem shiftPlanes_bplcon2 (n : Nat) (p : Pipeline) : (shiftPlanes n p).bplcon2 = p.bplcon2 := rfl
@[simp] theorem shiftPlanes_snap0 (n : Nat) (p : Pipeline) : (shiftPlanes n p).snap0 = p.snap0 := rfl
@[simp] theorem shiftPlanes_snap1 (n : Nat) (p : Pipeline) : (shiftPlanes n p).snap1 = p.snap1 := rfl
@[simp] theorem shiftPlanes_snap2 (n : Nat) (p : Pipeline) : (shiftPlanes n p).snap2 = p.snap2 := rfl
@[simp] theorem shiftPlanes_cursor (n : Nat) (p : Pipeline) : (shiftPlanes n p).cursor = p.cursor := rfl
@[simp] theorem shiftPlanes_raw (n : Nat) (p : Pipeline) : (shiftPlanes n p).raw = p.raw := rfl
@[simp] theorem shiftPlanes_cidx (n : Nat) (p : Pipeline) : (shiftPlanes n p).cidx = p.cidx := rfl
@[simp] theorem shiftPlanes_depth (n : Nat) (p : Pipeline) : (shiftPlanes n p).depth = p.depth := rfl
@[simp] theorem shiftPlanes_spr (n : Nat) (p : Pipeline) : (shiftPlanes n p).spr = p.spr := rfl
@[simp] theorem shiftPlanes_log (n : Nat) (p : Pipeline) : (shiftPlanes n p).log = p.log := rfl
@[simp] theorem shiftPlanes_phase (n : Nat) (p : Pipeline) : (shiftPlanes n p).phase = p.phase := rfl
@[simp] theorem shiftPlanes_lineVpos (n : Nat) (p : Pipeline) : (shiftPlanes n p).lineVpos = p.lineVpos := rfl
@[simp] theorem shiftPlanes_fault (n : Nat) (p : Pipeline) : (shiftPlanes n p).fault = p.fault := rfl

/-! Sprites and shift registers, read through their accessors -/

@[simp] theorem Pipeline.sprite_setSprite (p : Pipeline) (x y : Fin 8) (sp : Sprite) :
    (p.setSprite x sp).sprite y = if x = y then sp else p.sprite y := by
  simp only [Pipeline.sprite, Pipeline.setSprite_spr, Fin.getElem_fin, Vector.getElem_set, Fin.ext_iff]

@[simp] theorem Pipeline.sprite_disarmAll (p : Pipeline) (x : Fin 8) :
    p.disarmAll.sprite x = { p.sprite x with armed := false } := by
  simp [Pipeline.sprite, Pipeline.disarmAll]

@[simp] theorem Pipeline.sprite_setShiftReg (p : Pipeline) (k : Fin 6) (v : BitVec 32) (x : Fin 8) :
    (p.setShiftReg k v).sprite x = p.sprite x := rfl

@[simp] theorem Pipeline.sprite_shiftPlanes (n : Nat) (p : Pipeline) (x : Fin 8) :
    (shiftPlanes n p).sprite x = p.sprite x := rfl

@[simp] theorem Pipeline.sprite_powerOn (x : Fin 8) : Pipeline.powerOn.sprite x = Sprite.powerOn := by
  simp [Pipeline.sprite, Pipeline.powerOn]

@[simp] theorem Pipeline.plane_setShiftReg (p : Pipeline) (k l : Fin 6) (v : BitVec 32) :
    (p.setShiftReg k v).plane l = if k = l then v else p.plane l := by
  simp only [Pipeline.plane, Pipeline.setShiftReg_shiftReg, Fin.getElem_fin, Vector.getElem_set, Fin.ext_iff]

@[simp] theorem Pipeline.plane_shiftPlanes (n : Nat) (p : Pipeline) (k : Fin 6) :
    (shiftPlanes n p).plane k = p.plane k <<< n := by
  simp [Pipeline.plane, shiftPlanes]

@[simp] theorem Pipeline.plane_setSprite (p : Pipeline) (x : Fin 8) (sp : Sprite) (k : Fin 6) :
    (p.setSprite x sp).plane k = p.plane k := rfl

@[simp] theorem Pipeline.plane_disarmAll (p : Pipeline) (k : Fin 6) : p.disarmAll.plane k = p.plane k := rfl

@[simp] theorem Pipeline.plane_powerOn (k : Fin 6) : Pipeline.powerOn.plane k = 0#32 := by
  simp [Pipeline.plane, Pipeline.powerOn]

/-- The sprites are the same when each is. -/
theorem Pipeline.spr_ext {p q : Pipeline} (h : ∀ x, p.sprite x = q.sprite x) : p.spr = q.spr :=
  Vector.ext fun i hi => h ⟨i, hi⟩

/-- The shift registers are the same when each is. -/
theorem Pipeline.shiftReg_ext {p q : Pipeline} (h : ∀ k, p.plane k = q.plane k) : p.shiftReg = q.shiftReg :=
  Vector.ext fun i hi => h ⟨i, hi⟩

/-! `takeFault`, `commit` and `issueNext` -/

@[simp] theorem takeFault_config (r : Raise) (s : State) : (takeFault r s).config = s.config := rfl
@[simp] theorem takeFault_pipe (r : Raise) (s : State) : (takeFault r s).pipe = { s.pipe with fault := some r.code } := rfl
@[simp] theorem takeFault_trace (r : Raise) (s : State) : (takeFault r s).trace = s.trace ++ [.faulted r.code r.info] := rfl
@[simp] theorem takeFault_pending (r : Raise) (s : State) : (takeFault r s).pending = s.pending := rfl
@[simp] theorem commit_config (p : Pipeline) (events : List Event) (s : State) : (commit p events s).config = s.config := rfl
@[simp] theorem commit_pipe (p : Pipeline) (events : List Event) (s : State) : (commit p events s).pipe = p := rfl
@[simp] theorem commit_trace (p : Pipeline) (events : List Event) (s : State) : (commit p events s).trace = s.trace ++ events := rfl
@[simp] theorem commit_pending (p : Pipeline) (events : List Event) (s : State) : (commit p events s).pending = s.pending := rfl
@[simp] theorem issueNext_config (w : CommandWord) (s : State) : (issueNext w s).config = s.config := rfl
@[simp] theorem issueNext_pipe (w : CommandWord) (s : State) : (issueNext w s).pipe = s.pipe := rfl
@[simp] theorem issueNext_trace (w : CommandWord) (s : State) : (issueNext w s).trace = s.trace := rfl
@[simp] theorem issueNext_pending (w : CommandWord) (s : State) : (issueNext w s).pending = w :: s.pending := rfl

@[simp] theorem powerOn_config (c : Config) : (State.powerOn c).config = c := rfl
@[simp] theorem powerOn_pipe (c : Config) : (State.powerOn c).pipe = Pipeline.powerOn := rfl
@[simp] theorem powerOn_trace (c : Config) : (State.powerOn c).trace = [] := rfl
@[simp] theorem powerOn_pending (c : Config) : (State.powerOn c).pending = [] := rfl

end Sys2Proof.Machine
end

