-- ==== Sys2Proof/Laws/ChangeLog.lean ====
section
/-! SUPPORT. What recording a control register change can do (41_change_log.md R143), and the priority check (42_playfield_resolver.md
R162). -/

namespace Sys2Proof.Machine

variable {c : Config} {p q : Pipeline} {reg : LogReg} {val : Word16} {pos : Nat}

theorem recordChange_idle (h : p.phase = .idle) : recordChange c reg val pos p = .ok p := by
  simp [recordChange, h]

theorem recordChange_position (h : p.phase = .inLine) (hp : c.linePixels < pos) :
    recordChange c reg val pos p = .error ⟨.logPosition, .logAt reg pos⟩ := by
  simp [recordChange, h, hp, raiseFault]

theorem recordChange_order {last : LogEntry} (h : p.phase = .inLine) (hp : pos ≤ c.linePixels)
    (hl : p.log.getLast? = some last) (ho : pos < last.pos) :
    recordChange c reg val pos p = .error ⟨.logOrder, .logAfter reg pos last.pos⟩ := by
  simp [recordChange, h, Nat.not_lt.2 hp, hl, ho, raiseFault]

theorem recordChange_overflow (h : p.phase = .inLine) (hp : pos ≤ c.linePixels)
    (hl : ∀ last, p.log.getLast? = some last → last.pos ≤ pos) (hc : p.log.length = c.logCap) :
    recordChange c reg val pos p = .error ⟨.logOverflow, .logAt reg pos⟩ := by
  unfold recordChange
  rw [h]
  simp only [Nat.not_lt.2 hp, if_false]
  split
  · next last hlast => rw [if_neg (Nat.not_lt.2 (hl last hlast)), if_pos hc]; rfl
  · rw [if_pos hc]; rfl

theorem recordChange_appends (h : p.phase = .inLine) (ha : RecordAccepted c p pos) :
    recordChange c reg val pos p = .ok { p with log := p.log ++ [⟨reg, val, pos⟩] } := by
  obtain ⟨hp, hl, hc⟩ := ha h
  unfold recordChange
  rw [h]
  simp only [Nat.not_lt.2 hp, if_false]
  split
  · next last hlast => rw [if_neg (Nat.not_lt.2 (hl last hlast)), if_neg hc]
  · rw [if_neg hc]

/-- Recording either completes under the host's duty, outside a line with nothing changed and in a line with one entry more,
or breaks the duty and raises one of the three log faults. -/
theorem recordChange_cases (c : Config) (reg : LogReg) (val : Word16) (pos : Nat) (p : Pipeline) :
    (p.phase = .idle ∧ recordChange c reg val pos p = .ok p)
      ∨ (p.phase = .inLine ∧ RecordAccepted c p pos
          ∧ recordChange c reg val pos p = .ok { p with log := p.log ++ [⟨reg, val, pos⟩] })
      ∨ (p.phase = .inLine ∧ ¬ RecordAccepted c p pos
          ∧ ∃ r, recordChange c reg val pos p = .error r
            ∧ (r.code = .logPosition ∨ r.code = .logOrder ∨ r.code = .logOverflow)) := by
  cases h : p.phase with
  | idle => exact .inl ⟨rfl, recordChange_idle h⟩
  | inLine =>
    by_cases ha : RecordAccepted c p pos
    · exact .inr (.inl ⟨rfl, ha, by simpa [h] using recordChange_appends (reg := reg) (val := val) h ha⟩)
    · refine .inr (.inr ⟨rfl, ha, ?_⟩)
      by_cases hp : c.linePixels < pos
      · exact ⟨_, recordChange_position h hp, .inl rfl⟩
      · have hp' := Nat.not_lt.1 hp
        by_cases hl : ∀ last, p.log.getLast? = some last → last.pos ≤ pos
        · by_cases hc : p.log.length = c.logCap
          · exact ⟨_, recordChange_overflow h hp' hl hc, .inr (.inr rfl)⟩
          · exact absurd (fun _ => ⟨hp', hl, hc⟩) ha
        · push Not at hl
          obtain ⟨last, h1, h2⟩ := hl
          exact ⟨_, recordChange_order h hp' h1 h2, .inr (.inl rfl)⟩

theorem checkPriority_ok (h : PriorityAccepted c val) : checkPriority c val = .ok () := by
  unfold checkPriority
  rw [if_neg]
  rintro ⟨h1, h2⟩
  simp [h h2] at h1

theorem checkPriority_faults (hc : c.prioReservedPolicy = .fault) (h : reservedPriority val = true) :
    checkPriority c val = .error ⟨.priorityReserved, .value val⟩ := by
  simp [checkPriority, hc, h, raiseFault]

/-- The priority check passes a value or raises `PRIORITY_RESERVED`. -/
theorem checkPriority_cases (c : Config) (val : Word16) :
    (PriorityAccepted c val ∧ checkPriority c val = .ok ())
      ∨ (¬ PriorityAccepted c val ∧ checkPriority c val = .error ⟨.priorityReserved, .value val⟩) := by
  by_cases h : PriorityAccepted c val
  · exact .inl ⟨h, checkPriority_ok h⟩
  · refine .inr ⟨h, ?_⟩
    have h' := h
    simp only [PriorityAccepted, Classical.not_imp, Bool.not_eq_false] at h'
    exact checkPriority_faults h'.1 h'.2

end Sys2Proof.Machine
end

