-- ==== Sys2Proof/Laws/Decode.lean ====
section
/-! SUPPORT. The fields of a word laid out in a format, and a word as the layout of its fields (30_encoding.md R90 to R96). -/

namespace Sys2Proof

/-! ### The fields of a word of each format -/

theorem formatFields_poke : formatFields cmdPoke = 0xF0FFF1FF0000FFFF#64 := by decide

theorem formatFields_draw : formatFields cmdDraw = 0xF000000000001FFF#64 := by decide

theorem formatFields_begin : formatFields cmdBegin = 0xF0000FFF00000FFF#64 := by decide

theorem formatFields_end : formatFields cmdEnd = 0xFCFFFFFF00000FFF#64 := by decide

@[simp] theorem fieldCmd_formatP (pix : Position) (reg : BitVec 9) (val : Word16) : fieldCmd (formatP pix reg val) = cmdPoke := by
  ext i hi
  simp only [fieldCmd, formatP, cmdPoke, BitVec.getElem_extractLsb', BitVec.getLsbD_append]
  interval_cases i <;> simp

@[simp] theorem fieldUpper_formatP (pix : Position) (reg : BitVec 9) (val : Word16) : fieldUpper (formatP pix reg val) = pix := by
  ext i hi
  simp only [fieldUpper, formatP, cmdPoke, BitVec.getElem_extractLsb', BitVec.getLsbD_append]
  interval_cases i <;> simp [BitVec.getLsbD_eq_getElem]

@[simp] theorem fieldReg_formatP (pix : Position) (reg : BitVec 9) (val : Word16) : fieldReg (formatP pix reg val) = reg := by
  ext i hi
  simp only [fieldReg, formatP, cmdPoke, BitVec.getElem_extractLsb', BitVec.getLsbD_append]
  interval_cases i <;> simp [BitVec.getLsbD_eq_getElem]

@[simp] theorem fieldVal_formatP (pix : Position) (reg : BitVec 9) (val : Word16) : fieldVal (formatP pix reg val) = val := by
  ext i hi
  simp only [fieldVal, formatP, cmdPoke, BitVec.getElem_extractLsb', BitVec.getLsbD_append]
  interval_cases i <;> simp [BitVec.getLsbD_eq_getElem]

theorem reserved_formatP (pix : Position) (reg : BitVec 9) (val : Word16) : formatP pix reg val &&& ~~~ formatFields cmdPoke = 0#64 := by
  rw [formatFields_poke]
  ext i hi
  simp only [formatP, cmdPoke, BitVec.getElem_and, BitVec.getElem_not]
  simp only [← BitVec.getLsbD_eq_getElem, BitVec.getLsbD_append]
  interval_cases i <;> simp

@[simp] theorem fieldCmd_formatD (hires : Bool) (n : Position) : fieldCmd (formatD hires n) = cmdDraw := by
  ext i hi
  simp only [fieldCmd, formatD, cmdDraw, BitVec.getElem_extractLsb', BitVec.getLsbD_append]
  interval_cases i <;> simp

@[simp] theorem fieldHires_formatD (hires : Bool) (n : Position) : fieldHires (formatD hires n) = hires := by
  simp only [fieldHires, formatD, cmdDraw, BitVec.getLsbD_append]
  simp

@[simp] theorem fieldLower_formatD (hires : Bool) (n : Position) : fieldLower (formatD hires n) = n := by
  ext i hi
  simp only [fieldLower, formatD, cmdDraw, BitVec.getElem_extractLsb', BitVec.getLsbD_append]
  interval_cases i <;> simp [BitVec.getLsbD_eq_getElem]

theorem reserved_formatD (hires : Bool) (n : Position) : formatD hires n &&& ~~~ formatFields cmdDraw = 0#64 := by
  rw [formatFields_draw]
  ext i hi
  simp only [formatD, cmdDraw, BitVec.getElem_and, BitVec.getElem_not]
  simp only [← BitVec.getLsbD_eq_getElem, BitVec.getLsbD_append]
  interval_cases i <;> simp

@[simp] theorem fieldCmd_formatB (first vpos : Position) : fieldCmd (formatB first vpos) = cmdBegin := by
  ext i hi
  simp only [fieldCmd, formatB, cmdBegin, BitVec.getElem_extractLsb', BitVec.getLsbD_append]
  interval_cases i <;> simp

@[simp] theorem fieldMiddle_formatB (first vpos : Position) : fieldMiddle (formatB first vpos) = first := by
  ext i hi
  simp only [fieldMiddle, formatB, cmdBegin, BitVec.getElem_extractLsb', BitVec.getLsbD_append]
  interval_cases i <;> simp [BitVec.getLsbD_eq_getElem]

@[simp] theorem fieldLower_formatB (first vpos : Position) : fieldLower (formatB first vpos) = vpos := by
  ext i hi
  simp only [fieldLower, formatB, cmdBegin, BitVec.getElem_extractLsb', BitVec.getLsbD_append]
  interval_cases i <;> simp [BitVec.getLsbD_eq_getElem]

theorem reserved_formatB (first vpos : Position) : formatB first vpos &&& ~~~ formatFields cmdBegin = 0#64 := by
  rw [formatFields_begin]
  ext i hi
  simp only [formatB, cmdBegin, BitVec.getElem_and, BitVec.getElem_not]
  simp only [← BitVec.getLsbD_eq_getElem, BitVec.getLsbD_append]
  interval_cases i <;> simp

@[simp] theorem fieldCmd_formatE (vf hf : Bool) (hopen hclose vpos : Position) : fieldCmd (formatE vf hf hopen hclose vpos) = cmdEnd := by
  ext i hi
  simp only [fieldCmd, formatE, cmdEnd, BitVec.getElem_extractLsb', BitVec.getLsbD_append]
  interval_cases i <;> simp

@[simp] theorem fieldVf_formatE (vf hf : Bool) (hopen hclose vpos : Position) : fieldVf (formatE vf hf hopen hclose vpos) = vf := by
  simp only [fieldVf, formatE, cmdEnd, BitVec.getLsbD_append]
  simp

@[simp] theorem fieldHf_formatE (vf hf : Bool) (hopen hclose vpos : Position) : fieldHf (formatE vf hf hopen hclose vpos) = hf := by
  simp only [fieldHf, formatE, cmdEnd, BitVec.getLsbD_append]
  simp

@[simp] theorem fieldUpper_formatE (vf hf : Bool) (hopen hclose vpos : Position) : fieldUpper (formatE vf hf hopen hclose vpos) = hopen := by
  ext i hi
  simp only [fieldUpper, formatE, cmdEnd, BitVec.getElem_extractLsb', BitVec.getLsbD_append]
  interval_cases i <;> simp [BitVec.getLsbD_eq_getElem]

@[simp] theorem fieldMiddle_formatE (vf hf : Bool) (hopen hclose vpos : Position) : fieldMiddle (formatE vf hf hopen hclose vpos) = hclose := by
  ext i hi
  simp only [fieldMiddle, formatE, cmdEnd, BitVec.getElem_extractLsb', BitVec.getLsbD_append]
  interval_cases i <;> simp [BitVec.getLsbD_eq_getElem]

@[simp] theorem fieldLower_formatE (vf hf : Bool) (hopen hclose vpos : Position) : fieldLower (formatE vf hf hopen hclose vpos) = vpos := by
  ext i hi
  simp only [fieldLower, formatE, cmdEnd, BitVec.getElem_extractLsb', BitVec.getLsbD_append]
  interval_cases i <;> simp [BitVec.getLsbD_eq_getElem]

theorem reserved_formatE (vf hf : Bool) (hopen hclose vpos : Position) : formatE vf hf hopen hclose vpos &&& ~~~ formatFields cmdEnd = 0#64 := by
  rw [formatFields_end]
  ext i hi
  simp only [formatE, cmdEnd, BitVec.getElem_and, BitVec.getElem_not]
  simp only [← BitVec.getLsbD_eq_getElem, BitVec.getLsbD_append]
  interval_cases i <;> simp

/-! ### A word as the layout of its fields -/

/-- A bit outside the fields of a word's format is clear. -/
theorem reserved_bit {w m : CommandWord} (h : w &&& ~~~ m = 0#64) {i : Nat} (hm : m.getLsbD i = false) :
    w.getLsbD i = false := by
  by_cases hi : i < 64
  · have := congrArg (fun v : CommandWord => v.getLsbD i) h
    simp only [BitVec.getLsbD_and, BitVec.getLsbD_not, hm, hi] at this
    simpa using this
  · exact BitVec.getLsbD_of_ge w i (by omega)

/-- A bit of the command field. -/
theorem command_bit {w : CommandWord} {cmd : BitVec 4} (h : fieldCmd w = cmd) {i : Nat} (hi : i < 4) :
    w.getLsbD (60 + i) = cmd.getLsbD i := by
  rw [← h]
  simp [fieldCmd, hi]

theorem formatP_fields {w : CommandWord} (hc : fieldCmd w = cmdPoke) (hr : w &&& ~~~ formatFields cmdPoke = 0#64) :
    formatP (fieldUpper w) (fieldReg w) (fieldVal w) = w := by
  have h0 := command_bit hc (i := 0) (by omega)
  have h1 := command_bit hc (i := 1) (by omega)
  have h2 := command_bit hc (i := 2) (by omega)
  have h3 := command_bit hc (i := 3) (by omega)
  have hz : ∀ i, (0xF0FFF1FF0000FFFF#64).getLsbD i = false → w.getLsbD i = false := by
    rw [formatFields_poke] at hr
    exact fun i hi => reserved_bit hr hi
  simp only [cmdPoke] at h0 h1 h2 h3
  ext i hi
  simp only [formatP, cmdPoke, fieldUpper, fieldReg, fieldVal]
  simp only [← BitVec.getLsbD_eq_getElem, BitVec.getLsbD_append, BitVec.getLsbD_extractLsb']
  clear hr hc
  interval_cases i <;>
    first
    | (simp; done)
    | (simp at h0 h1 h2 h3; simp [h0, h1, h2, h3]; done)
    | (simp only [BitVec.getLsbD_zero]; simp; exact hz _ (by decide))

theorem formatD_fields {w : CommandWord} (hc : fieldCmd w = cmdDraw) (hr : w &&& ~~~ formatFields cmdDraw = 0#64) :
    formatD (fieldHires w) (fieldLower w) = w := by
  have h0 := command_bit hc (i := 0) (by omega)
  have h1 := command_bit hc (i := 1) (by omega)
  have h2 := command_bit hc (i := 2) (by omega)
  have h3 := command_bit hc (i := 3) (by omega)
  have hz : ∀ i, (0xF000000000001FFF#64).getLsbD i = false → w.getLsbD i = false := by
    rw [formatFields_draw] at hr
    exact fun i hi => reserved_bit hr hi
  simp only [cmdDraw] at h0 h1 h2 h3
  ext i hi
  simp only [formatD, cmdDraw, fieldHires, fieldLower]
  simp only [← BitVec.getLsbD_eq_getElem, BitVec.getLsbD_append, BitVec.getLsbD_extractLsb']
  clear hr hc
  interval_cases i <;>
    first
    | (simp; done)
    | (simp at h0 h1 h2 h3; simp [h0, h1, h2, h3]; done)
    | (simp only [BitVec.getLsbD_zero]; simp; exact hz _ (by decide))

theorem formatB_fields {w : CommandWord} (hc : fieldCmd w = cmdBegin) (hr : w &&& ~~~ formatFields cmdBegin = 0#64) :
    formatB (fieldMiddle w) (fieldLower w) = w := by
  have h0 := command_bit hc (i := 0) (by omega)
  have h1 := command_bit hc (i := 1) (by omega)
  have h2 := command_bit hc (i := 2) (by omega)
  have h3 := command_bit hc (i := 3) (by omega)
  have hz : ∀ i, (0xF0000FFF00000FFF#64).getLsbD i = false → w.getLsbD i = false := by
    rw [formatFields_begin] at hr
    exact fun i hi => reserved_bit hr hi
  simp only [cmdBegin] at h0 h1 h2 h3
  ext i hi
  simp only [formatB, cmdBegin, fieldMiddle, fieldLower]
  simp only [← BitVec.getLsbD_eq_getElem, BitVec.getLsbD_append, BitVec.getLsbD_extractLsb']
  clear hr hc
  interval_cases i <;>
    first
    | (simp; done)
    | (simp at h0 h1 h2 h3; simp [h0, h1, h2, h3]; done)
    | (simp only [BitVec.getLsbD_zero]; simp; exact hz _ (by decide))

theorem formatE_fields {w : CommandWord} (hc : fieldCmd w = cmdEnd) (hr : w &&& ~~~ formatFields cmdEnd = 0#64) :
    formatE (fieldVf w) (fieldHf w) (fieldUpper w) (fieldMiddle w) (fieldLower w) = w := by
  have h0 := command_bit hc (i := 0) (by omega)
  have h1 := command_bit hc (i := 1) (by omega)
  have h2 := command_bit hc (i := 2) (by omega)
  have h3 := command_bit hc (i := 3) (by omega)
  have hz : ∀ i, (0xFCFFFFFF00000FFF#64).getLsbD i = false → w.getLsbD i = false := by
    rw [formatFields_end] at hr
    exact fun i hi => reserved_bit hr hi
  simp only [cmdEnd] at h0 h1 h2 h3
  ext i hi
  simp only [formatE, cmdEnd, fieldVf, fieldHf, fieldUpper, fieldMiddle, fieldLower]
  simp only [← BitVec.getLsbD_eq_getElem, BitVec.getLsbD_append, BitVec.getLsbD_extractLsb']
  clear hr hc
  interval_cases i <;>
    first
    | (simp; done)
    | (simp at h0 h1 h2 h3; simp [h0, h1, h2, h3]; done)
    | (simp only [BitVec.getLsbD_zero]; simp; exact hz _ (by decide))

/-! ### Decoding a word laid out in a format -/

theorem oddBit_formatP (pix : Position) (reg : BitVec 9) (val : Word16) :
    (formatP pix reg val).getLsbD 32 = reg.getLsbD 0 := by
  simp only [formatP, cmdPoke, BitVec.getLsbD_append]
  simp

theorem decode_formatP (pix : Position) {reg : BitVec 9} (val : Word16) (h : EvenOffset reg) :
    decode (formatP pix reg val) = .ok (pokeOf (regOf reg) pix val) := by
  have hr := reserved_formatP pix reg val
  have ho := oddBit_formatP pix reg val
  rw [h] at ho
  simp only [decode, fieldCmd_formatP, hr, ho, fieldReg_formatP, fieldUpper_formatP, fieldVal_formatP]
  rfl

theorem decode_formatD (hires : Bool) (n : Position) : decode (formatD hires n) = .ok (.draw hires n) := by
  have hr := reserved_formatD hires n
  simp only [decode, fieldCmd_formatD, hr, fieldHires_formatD, fieldLower_formatD]
  rfl

theorem decode_formatB (first vpos : Position) : decode (formatB first vpos) = .ok (.beginLine first vpos) := by
  have hr := reserved_formatB first vpos
  simp only [decode, fieldCmd_formatB, hr, fieldMiddle_formatB, fieldLower_formatB]
  rfl

theorem decode_formatE (vf hf : Bool) (hopen hclose vpos : Position) :
    decode (formatE vf hf hopen hclose vpos) = .ok (.endLine vf hf hopen hclose vpos) := by
  have hr := reserved_formatE vf hf hopen hclose vpos
  simp only [decode, fieldCmd_formatE, hr, fieldVf_formatE, fieldHf_formatE, fieldUpper_formatE, fieldMiddle_formatE,
    fieldLower_formatE]
  rfl

/-! ### The register map -/

theorem regOf_unmapped {reg : BitVec 9} (h : ¬ MappedOffset reg) : regOf reg = .unmapped reg := by
  simp only [MappedOffset, not_or] at h
  obtain ⟨h1, h2, h3, h4, h5, h6⟩ := h
  simp only [BitVec.le_def, ← BitVec.toNat_inj] at h1 h2 h3 h4 h5 h6
  simp only [BitVec.toNat_ofNat] at h1 h2 h3 h4 h5 h6
  norm_num at h1 h2 h3
  simp only [regOf]
  rw [if_neg h1, if_neg h2, if_neg h3, if_neg h4, if_neg h5, if_neg h6]

/-- The offset of a register (R71). -/
def offsetOf : Register → BitVec 9
  | .bplcon0 => 0x100#9
  | .bplcon1 => 0x102#9
  | .bplcon2 => 0x104#9
  | .bplDat k => BitVec.ofNat 9 (0x110 + 2 * k.val)
  | .sprPos x => BitVec.ofNat 9 (0x140 + 8 * x.val)
  | .sprCtl x => BitVec.ofNat 9 (0x142 + 8 * x.val)
  | .sprData x => BitVec.ofNat 9 (0x144 + 8 * x.val)
  | .sprDatb x => BitVec.ofNat 9 (0x146 + 8 * x.val)
  | .color n => BitVec.ofNat 9 (0x180 + 2 * n.val)
  | .unmapped reg => reg

set_option maxRecDepth 100000 in
/-- The map and the offsets agree on every even offset. -/
theorem offsetOf_regOf_even : ∀ n : Fin 256, offsetOf (regOf (BitVec.ofNat 9 (2 * n.val))) = BitVec.ofNat 9 (2 * n.val) := by
  decide
/-- A poke's word carries the offset of its register (R101). -/
theorem encode_pokeOf (r : Register) (pix : Position) (val : Word16) :
    encode (pokeOf r pix val) = formatP pix (offsetOf r) val := by
  cases r with
  | bplcon0 => rfl
  | bplcon1 => rfl
  | bplcon2 => rfl
  | bplDat k => fin_cases k <;> rfl
  | sprPos k => fin_cases k <;> rfl
  | sprCtl k => fin_cases k <;> rfl
  | sprData k => fin_cases k <;> rfl
  | sprDatb k => fin_cases k <;> rfl
  | color k => fin_cases k <;> rfl
  | unmapped reg => rfl
set_option maxRecDepth 100000 in
/-- An even offset the map sends nowhere is unmapped. -/
theorem unmapped_of_regOf_even : ∀ n : Fin 256, ∀ r, regOf (BitVec.ofNat 9 (2 * n.val)) = .unmapped r → EvenOffset r ∧ ¬ MappedOffset r := by
  have : ∀ n : Fin 256, (match regOf (BitVec.ofNat 9 (2 * n.val)) with | .unmapped r => decide (EvenOffset r) && decide (¬ MappedOffset r) | _ => true) = true := by decide
  intro n r h
  have := this n
  rw [h] at this
  simpa only [Bool.and_eq_true, decide_eq_true_eq] using this
theorem even_eq {reg : BitVec 9} (h : EvenOffset reg) : ∃ n : Fin 256, reg = BitVec.ofNat 9 (2 * n.val) := by
  have hb : reg.toNat < 512 := reg.isLt
  have he : reg.toNat % 2 = 0 := by
    have h' : reg.getLsbD 0 = false := h
    simpa [BitVec.getLsbD, Nat.testBit_zero] using h'
  refine ⟨⟨reg.toNat / 2, by omega⟩, BitVec.eq_of_toNat_eq ?_⟩
  simp only [BitVec.toNat_ofNat]
  omega

theorem offsetOf_regOf {reg : BitVec 9} (h : EvenOffset reg) : offsetOf (regOf reg) = reg := by
  obtain ⟨n, rfl⟩ := even_eq h
  exact offsetOf_regOf_even n

theorem unmapped_of_regOf {reg r : BitVec 9} (h : EvenOffset reg) (hr : regOf reg = .unmapped r) :
    EvenOffset r ∧ ¬ MappedOffset r := by
  obtain ⟨n, rfl⟩ := even_eq h
  exact unmapped_of_regOf_even n r hr

/-! ### What decoding can do -/

theorem formatZ_fields {w : CommandWord} {c : BitVec 4} (hc : fieldCmd w = c)
    (hr : w &&& ~~~ 0xF000000000000000#64 = 0#64) : formatZ c = w := by
  have h0 := command_bit hc (i := 0) (by omega)
  have h1 := command_bit hc (i := 1) (by omega)
  have h2 := command_bit hc (i := 2) (by omega)
  have h3 := command_bit hc (i := 3) (by omega)
  have hz : ∀ i, (0xF000000000000000#64).getLsbD i = false → w.getLsbD i = false := fun i hi => reserved_bit hr hi
  ext i hi
  simp only [formatZ]
  simp only [← BitVec.getLsbD_eq_getElem, BitVec.getLsbD_append]
  clear hr hc
  interval_cases i <;>
    first
    | (simp at h0 h1 h2 h3; simp [h0, h1, h2, h3]; done)
    | (simp only [BitVec.getLsbD_zero]; simp; exact hz _ (by decide))

theorem command_split (cmd : BitVec 4) : (0x6#4 ≤ cmd ∧ cmd ≤ 0xE#4) ∨ cmd = cmdPoke ∨ cmd = cmdDraw ∨ cmd = cmdBegin
    ∨ cmd = cmdEnd ∨ cmd = cmdInspect ∨ cmd = cmdReset ∨ cmd = cmdNop := by
  have h : ∀ c : Fin 16, (0x6#4 ≤ BitVec.ofFin c ∧ BitVec.ofFin c ≤ 0xE#4) ∨ BitVec.ofFin c = cmdPoke
      ∨ BitVec.ofFin c = cmdDraw ∨ BitVec.ofFin c = cmdBegin ∨ BitVec.ofFin c = cmdEnd ∨ BitVec.ofFin c = cmdInspect
      ∨ BitVec.ofFin c = cmdReset ∨ BitVec.ofFin c = cmdNop := by decide
  exact h cmd.toFin

/-- A word that decodes has no bit outside the fields of its format, and decodes to the command its fields name. -/
theorem decode_cases {w : CommandWord} {i : Instr} (h : decode w = .ok i) :
    w &&& ~~~ formatFields (fieldCmd w) = 0#64
      ∧ ((fieldCmd w = cmdPoke ∧ EvenOffset (fieldReg w)
            ∧ i = pokeOf (regOf (fieldReg w)) (fieldUpper w) (fieldVal w))
          ∨ (fieldCmd w = cmdDraw ∧ i = .draw (fieldHires w) (fieldLower w))
          ∨ (fieldCmd w = cmdBegin ∧ i = .beginLine (fieldMiddle w) (fieldLower w))
          ∨ (fieldCmd w = cmdEnd ∧ i = .endLine (fieldVf w) (fieldHf w) (fieldUpper w) (fieldMiddle w) (fieldLower w))
          ∨ (fieldCmd w = cmdInspect ∧ i = .inspect)
          ∨ (fieldCmd w = cmdReset ∧ i = .reset)
          ∨ (fieldCmd w = cmdNop ∧ i = .nop)) := by
  simp only [decode] at h
  split at h
  · cases h
  next h1 =>
  split at h
  · cases h
  next h2 =>
  refine ⟨by simpa using h2, ?_⟩
  split at h
  · cases h
  next h3 =>
  split at h
  · next h4 =>
    cases h
    refine .inl ⟨h4, ?_, rfl⟩
    have : w.getLsbD 32 = false := by simpa [h4] using h3
    simpa [EvenOffset, fieldReg] using this
  next h4 =>
  split at h
  · next h5 => cases h; exact .inr (.inl ⟨h5, rfl⟩)
  next h5 =>
  split at h
  · next h6 => cases h; exact .inr (.inr (.inl ⟨h6, rfl⟩))
  next h6 =>
  split at h
  · next h7 => cases h; exact .inr (.inr (.inr (.inl ⟨h7, rfl⟩)))
  next h7 =>
  split at h
  · next h8 => cases h; exact .inr (.inr (.inr (.inr (.inl ⟨h8, rfl⟩))))
  next h8 =>
  split at h
  · next h9 => cases h; exact .inr (.inr (.inr (.inr (.inr (.inl ⟨h9, rfl⟩)))))
  next h9 =>
  cases h
  have h10 : fieldCmd w = cmdNop :=
    ((((((((command_split (fieldCmd w)).resolve_left h1).resolve_left h4).resolve_left h5).resolve_left h6).resolve_left
      h7).resolve_left h8).resolve_left h9)
  exact .inr (.inr (.inr (.inr (.inr (.inr ⟨h10, rfl⟩)))))

end Sys2Proof
end

