-- ==== Sys2Proof/Laws/Draw.lean ====
section
/-! SUPPORT. What DRAW does, cell by cell (40_shift_pipeline.md R124). -/

namespace Sys2Proof.Machine

variable {c : Config}

/-- The bits of a pixel value: bit `k` comes from plane `k` (R123). -/
theorem pixelValue_getLsbD (p : Pipeline) (i : Nat) (k : Fin 6) : (pixelValue p i).getLsbD k = planeBit p k i := by
  have bits : ∀ (b0 b1 b2 b3 b4 b5 : Bool) (k : Fin 6),
      (BitVec.ofBool b5 ++ BitVec.ofBool b4 ++ BitVec.ofBool b3 ++ BitVec.ofBool b2 ++ BitVec.ofBool b1
        ++ BitVec.ofBool b0 : BitVec 6).getLsbD k = ![b0, b1, b2, b3, b4, b5] k := by decide
  unfold pixelValue
  rw [bits]
  fin_cases k <;> rfl

/-- How many cells one pixel covers (R125). -/
def cellsPerPixel (hires : Bool) : Nat := if hires then 1 else 2

theorem drawCells_eq (hires : Bool) (n : Position) : drawCells hires n = cellsPerPixel hires * n.toNat := by
  cases hires <;> simp [drawCells, cellsPerPixel]

/-- The cells of `q` from `start` to its cursor are drawn with the pixels of `pixel`; everything else of `p` is kept. -/
structure DrawnFrom (pixel : Nat → ColourIndex) (hires : Bool) (count : Nat) (p q : Pipeline) : Prop where
  frame : q = { p with raw := q.raw, cursor := p.cursor + cellsPerPixel hires * count }
  raw : ∀ i, readCell q.raw i =
    if p.cursor ≤ i ∧ i < p.cursor + cellsPerPixel hires * count then pixel ((i - p.cursor) / cellsPerPixel hires)
    else readCell p.raw i
  canonical : Memory.wf p = true → Memory.wf q = true

theorem DrawnFrom.cursor {pixel : Nat → ColourIndex} {hires : Bool} {count : Nat} {p q : Pipeline}
    (h : DrawnFrom pixel hires count p q) : q.cursor = p.cursor + cellsPerPixel hires * count := by
  rw [h.frame]

/-- One more pixel. -/
theorem DrawnFrom.drawPixel {pixel : Nat → ColourIndex} {hires : Bool} {k : Nat} {p q : Pipeline}
    (h : DrawnFrom pixel hires k p q) (hfit : p.cursor + cellsPerPixel hires * (k + 1) ≤ c.bufPixels) :
    ∃ r, drawPixel c hires (pixel k) q = .ok r ∧ DrawnFrom pixel hires (k + 1) p r := by
  have hcur := h.cursor
  cases hires with
  | true =>
    simp only [cellsPerPixel, if_true, one_mul] at *
    have hlt : q.cursor < c.bufPixels := by omega
    refine ⟨{ q with raw := writeCell q.raw q.cursor (pixel k), cursor := q.cursor + 1 }, ?_, ?_, fun i => ?_, fun hp => ?_⟩
    · simp [Machine.drawPixel, bufWrite_ok hlt]
    · have := h.frame
      rw [this]
      simp [cellsPerPixel, Nat.add_assoc]
    · have hr := h.raw i
      simp only [readCell_writeCell, cellsPerPixel, if_true, one_mul, Nat.div_one] at hr ⊢
      rw [hr]
      grind
    · obtain ⟨h1, h2, h3⟩ := (Memory.wf_iff q).1 (h.canonical hp)
      rw [Memory.wf_iff]
      exact ⟨wf_writeCell h1 q.cursor (pixel k), h2, h3⟩
  | false =>
    simp only [cellsPerPixel, Bool.false_eq_true, if_false] at *
    have hlt : q.cursor < c.bufPixels := by omega
    have hlt' : q.cursor + 1 < c.bufPixels := by omega
    refine ⟨{ q with
      raw := writeCell (writeCell q.raw q.cursor (pixel k)) (q.cursor + 1) (pixel k), cursor := q.cursor + 2 },
      ?_, ?_, fun i => ?_, fun hp => ?_⟩
    · simp [Machine.drawPixel, bufWrite_ok hlt, bufWrite_ok hlt']
    · have := h.frame
      rw [this]
      simp [cellsPerPixel, Nat.add_assoc, Nat.mul_add]
    · have hr := h.raw i
      simp only [readCell_writeCell, cellsPerPixel, Bool.false_eq_true, if_false] at hr ⊢
      rw [hr]
      by_cases h1 : q.cursor + 1 = i
      · have : (i - p.cursor) / 2 = k := by omega
        rw [if_pos h1, if_pos (by omega), this]
      · by_cases h2 : q.cursor = i
        · have : (i - p.cursor) / 2 = k := by omega
          rw [if_neg h1, if_pos h2, if_pos (by omega), this]
        · rw [if_neg h1, if_neg h2]
          grind
    · obtain ⟨h1, h2, h3⟩ := (Memory.wf_iff q).1 (h.canonical hp)
      rw [Memory.wf_iff]
      exact ⟨wf_writeCell (wf_writeCell h1 q.cursor (pixel k)) (q.cursor + 1) (pixel k), h2, h3⟩

/-- A draw past the buffer end (R127). -/
theorem drawPixels_faults {hires : Bool} {n : Position} {p : Pipeline} (h : c.bufPixels < p.cursor + drawCells hires n) :
    drawPixels hires n c p = .error ⟨.drawOutOfBounds, .drawAt p.cursor n hires⟩ := by
  simp [drawPixels, h, raiseFault]

/-- A draw inside the buffer (R124): the pixels of the registers as the draw found them, then one shift. -/
theorem drawPixels_spec {hires : Bool} {n : Position} {p : Pipeline} (h : p.cursor + drawCells hires n ≤ c.bufPixels) :
    ∃ q, drawPixels hires n c p = .ok (shiftPlanes n.toNat q, []) ∧ DrawnFrom (pixelValue p) hires n.toNat p q := by
  rw [drawCells_eq] at h
  have hmono : ∀ k, k + 1 ≤ n.toNat → cellsPerPixel hires * (k + 1) ≤ cellsPerPixel hires * n.toNat :=
    fun k hk => Nat.mul_le_mul_left _ hk
  obtain ⟨q, hq, hI⟩ := forRange_completes (a := 0) (b := n.toNat)
    (body := fun i q => drawPixel c hires (pixelValue p i) q) (s := p)
    (fun k q => DrawnFrom (pixelValue p) hires k p q)
    ⟨rfl, fun i => by rw [if_neg (by simp)], id⟩
    (fun i t _ h2 hI => hI.drawPixel (by have := hmono i (by omega); omega))
  refine ⟨q, ?_, by simpa using hI⟩
  have hle : ¬ c.bufPixels < p.cursor + drawCells hires n := by rw [drawCells_eq]; omega
  simp [drawPixels, hle, hq]

end Sys2Proof.Machine
end

