-- ==== Sys2Proof/Laws/Frame.lean ====
section
/-! SUPPORT. What a completed command leaves unchanged, in every state: END writes the pixel buffers, the `armed` flags, the log
and the phase, and DRAW writes `raw`, the cursor and the shift registers. -/

namespace Sys2Proof.Machine

variable {c : Config}

/-- Only the pixel buffers of `p` may differ in `q`. -/
def BuffersOnly (p q : Pipeline) : Prop := q = { p with raw := q.raw, cidx := q.cidx, depth := q.depth }

theorem BuffersOnly.refl (p : Pipeline) : BuffersOnly p p := rfl

theorem BuffersOnly.trans {p q r : Pipeline} (h1 : BuffersOnly p q) (h2 : BuffersOnly q r) : BuffersOnly p r := by
  have e1 : q = { p with raw := q.raw, cidx := q.cidx, depth := q.depth } := h1
  have e2 : r = { q with raw := r.raw, cidx := r.cidx, depth := r.depth } := h2
  rw [e1] at e2
  exact e2

theorem resolveCell_buffers {pixel : ColourIndex → Pixel} {i : Nat} {p q : Pipeline} (h : resolveCell c pixel i p = .ok q) :
    BuffersOnly p q := by
  simp only [resolveCell, bind_eq_ok_iff, pure_eq_ok, Except.ok.injEq] at h
  obtain ⟨_, _, _, _, _, _, _, _, rfl⟩ := h
  rfl

theorem resolveSegment_buffers {start stop : Nat} {a0 a2 : Word16} {p q : Pipeline}
    (h : resolveSegment c start stop a0 a2 p = .ok q) : BuffersOnly p q := by
  have key : ∀ pixel, forRange start stop (resolveCell c pixel) p = .ok q → BuffersOnly p q := fun pixel hq =>
    forRange_keeps (BuffersOnly p) (fun i t u hI hu => hI.trans (resolveCell_buffers hu)) (BuffersOnly.refl p) hq
  unfold resolveSegment at h
  split at h
  · cases h
  · split at h
    · exact key _ h
    · exact key _ h

theorem replayEntries_buffers (entries : List LogEntry) :
    ∀ {a : ActiveValues} {prev : Nat} {p q : Pipeline}, replayEntries c entries a prev p = .ok q → BuffersOnly p q := by
  induction entries with
  | nil => intro a prev p q h; cases h; exact BuffersOnly.refl _
  | cons e rest ih =>
    intro a prev p q h
    simp only [replayEntries, bind_eq_ok_iff] at h
    obtain ⟨_, _, r, hr, hq⟩ := h
    exact (resolveSegment_buffers hr).trans (ih hq)

theorem replay_frame {p q : Pipeline} (h : replay c p = .ok q) : ∃ r, BuffersOnly p r ∧ q = { r with log := [] } := by
  simp only [replay, bind_eq_ok_iff, pure_eq_ok, Except.ok.injEq] at h
  obtain ⟨r, hr, rfl⟩ := h
  exact ⟨r, replayEntries_buffers _ hr, rfl⟩

theorem drawSpanCell_buffers {tag : DepthTag} {colour : ColourIndex} {i : Nat} {p q : Pipeline}
    (h : drawSpanCell c tag colour i p = .ok q) : BuffersOnly p q := by
  unfold drawSpanCell at h
  split at h
  · simp only [bind_eq_ok_iff] at h
    obtain ⟨d, _, h⟩ := h
    split at h
    · simp only [bind_eq_ok_iff, pure_eq_ok, Except.ok.injEq] at h
      obtain ⟨_, _, _, _, rfl⟩ := h
      rfl
    · cases h; exact BuffersOnly.refl _
  · cases h; exact BuffersOnly.refl _

theorem drawSpan_buffers {h : Nat} {tag : DepthTag} {colour : Nat → ColourIndex} {p q : Pipeline}
    (hq : drawSpan c h tag colour p = .ok q) : BuffersOnly p q := by
  refine forRangeDown_keeps (BuffersOnly p) (fun j t u hI hu => ?_) (BuffersOnly.refl p) hq
  split at hu
  · exact forRange_keeps (BuffersOnly p) (fun d v w hI' hw => hI'.trans (drawSpanCell_buffers hw)) hI hu
  · cases hu; exact hI

theorem drawIndependent_buffers {pair : Fin 4} {x : Fin 8} {p q : Pipeline} (h : drawIndependent c pair x p = .ok q) :
    BuffersOnly p q := by
  unfold drawIndependent at h
  split at h
  · exact drawSpan_buffers h
  · cases h; exact BuffersOnly.refl _

theorem drawPair_buffers {pair : Fin 4} {p q : Pipeline} (h : drawPair c pair p = .ok q) : BuffersOnly p q := by
  unfold drawPair at h
  simp only at h
  split at h
  · exact drawSpan_buffers h
  · simp only [bind_eq_ok_iff] at h
    obtain ⟨r, hr, hq⟩ := h
    exact (drawIndependent_buffers hr).trans (drawIndependent_buffers hq)

theorem drawPairs_buffers (order : List (Fin 4)) : ∀ {p q : Pipeline}, drawPairs c order p = .ok q → BuffersOnly p q := by
  induction order with
  | nil => intro p q h; cases h; exact BuffersOnly.refl _
  | cons pair rest ih =>
    intro p q h
    simp only [drawPairs, bind_eq_ok_iff] at h
    obtain ⟨r, hr, hq⟩ := h
    exact (drawPair_buffers hr).trans (ih hq)

theorem drawAll_frame {p q : Pipeline} (h : drawAll c p = .ok q) : ∃ r, BuffersOnly p r ∧ q = r.disarmAll := by
  simp only [drawAll, bind_eq_ok_iff, pure_eq_ok, Except.ok.injEq] at h
  obtain ⟨r, hr, rfl⟩ := h
  exact ⟨r, drawPairs_buffers _ hr, rfl⟩

theorem fillBorder_buffers {start stop : Nat} {p q : Pipeline} (h : fillBorder c start stop p = .ok q) : BuffersOnly p q := by
  refine forRange_keeps (BuffersOnly p) (fun i t u hI hu => hI.trans ?_) (BuffersOnly.refl p) h
  simp only [bind_eq_ok_iff, pure_eq_ok, Except.ok.injEq] at hu
  obtain ⟨_, _, rfl⟩ := hu
  rfl

theorem borderFill_buffers {vf hf : Bool} {hopen hclose : Position} {p q : Pipeline}
    (h : borderFill c vf hf hopen hclose p = .ok q) : BuffersOnly p q := by
  unfold borderFill at h
  split at h
  · exact fillBorder_buffers h
  · simp only [bind_eq_ok_iff] at h
    obtain ⟨r, hr, hq⟩ := h
    have h1 : BuffersOnly p r := by
      unfold fillLeft at hr
      split at hr
      · exact fillBorder_buffers hr
      · cases hr; exact BuffersOnly.refl _
    refine h1.trans ?_
    unfold fillRight at hq
    split at hq
    · exact fillBorder_buffers hq
    · cases hq; exact BuffersOnly.refl _

theorem tailCopy_buffers {p q : Pipeline} (h : tailCopy c p = .ok q) : BuffersOnly p q := by
  refine forRange_keeps (BuffersOnly p) (fun i t u hI hu => hI.trans ?_) (BuffersOnly.refl p) h
  simp only [bind_eq_ok_iff, pure_eq_ok, Except.ok.injEq] at hu
  obtain ⟨_, _, _, _, _, _, rfl⟩ := hu
  rfl

/-- What a completed END leaves: outside the buffers, the log and the phase nothing changes but the `armed` flags, all of them
cleared, and those only on a visible line with the vertical display enabled. -/
structure LineClosed (c : Config) (vf : Bool) (vpos : Position) (p q : Pipeline) : Prop where
  frame : q = { p with raw := q.raw, cidx := q.cidx, depth := q.depth, spr := q.spr, log := [], phase := .idle }
  sprites : q.spr = p.spr ∨ (vf = true ∧ c.firstVisibleLine ≤ vpos.toNat ∧ q.spr = p.disarmAll.spr)

/-- What a completed visible END leaves and emits. -/
theorem visibleEnd_frame {vf hf : Bool} {hopen hclose vpos : Position} {p q : Pipeline} {events : List Event}
    (h : visibleEnd c vf hf hopen hclose vpos p = .ok (q, events)) :
    q = { p with raw := q.raw, cidx := q.cidx, depth := q.depth, spr := q.spr, log := [] }
      ∧ (q.spr = p.spr ∨ (vf = true ∧ q.spr = p.disarmAll.spr))
      ∧ ∃ depth shown picture, events = [.collisionHook depth shown, .colorize vpos picture] := by
  simp only [visibleEnd, bind_eq_ok_iff, pure_eq_ok, Except.ok.injEq, Prod.mk.injEq] at h
  obtain ⟨q1, h1, q2, h2, q3, h3, q4, h4, rfl, rfl⟩ := h
  obtain ⟨r1, b1, rfl⟩ := replay_frame h1
  have e1 : r1 = { p with raw := r1.raw, cidx := r1.cidx, depth := r1.depth } := b1
  have b3 := borderFill_buffers h3
  have e3 : q3 = { q2 with raw := q3.raw, cidx := q3.cidx, depth := q3.depth } := b3
  have b4 : BuffersOnly q3 q4 := by
    split at h4
    · exact tailCopy_buffers h4
    · cases h4; exact BuffersOnly.refl _
  have e4 : q4 = { q3 with raw := q4.raw, cidx := q4.cidx, depth := q4.depth } := b4
  have s43 : q4.spr = q2.spr := by rw [e4, e3]
  unfold spriteStep at h2
  split at h2
  · next hrun =>
    obtain ⟨r2, b2, rfl⟩ := drawAll_frame h2
    have e2 : r2 = { r1 with log := [], raw := r2.raw, cidx := r2.cidx, depth := r2.depth } := b2
    have hs : r2.disarmAll.spr = p.disarmAll.spr := by rw [e2, e1]; rfl
    refine ⟨?_, .inr ⟨hrun.1, by rw [s43, hs]⟩, _, _, _, rfl⟩
    rw [e4, e3, e2, e1]
    rfl
  · cases h2
    refine ⟨?_, .inl (by rw [s43, e1]), _, _, _, rfl⟩
    rw [e4, e3, e1]

/-- What a completed END leaves and emits. -/
theorem finishLine_frame {vf hf : Bool} {hopen hclose vpos : Position} {p q : Pipeline} {events : List Event}
    (h : finishLine vf hf hopen hclose vpos c p = .ok (q, events)) :
    p.phase = .inLine ∧ LineClosed c vf vpos p q
      ∧ ((c.firstVisibleLine ≤ vpos.toNat ∧ ∃ depth shown picture, events = [.collisionHook depth shown, .colorize vpos picture])
          ∨ (vpos.toNat < c.firstVisibleLine ∧ events = [.debugOverlay vpos])) := by
  unfold finishLine at h
  split at h
  · cases h
  next hphase =>
  simp only [bind_eq_ok_iff, pure_eq_ok, Except.ok.injEq, Prod.mk.injEq] at h
  obtain ⟨⟨r, ev⟩, hr, rfl, rfl⟩ := h
  refine ⟨hphase, ?_⟩
  by_cases hv : c.firstVisibleLine ≤ vpos.toNat
  · rw [if_pos (by simpa [lineVisible] using hv)] at hr
    obtain ⟨hf, hs, hev⟩ := visibleEnd_frame hr
    refine ⟨⟨?_, ?_⟩, .inl ⟨hv, hev⟩⟩
    · rw [hf]
    · rcases hs with hs | ⟨h1, h2⟩
      · exact .inl hs
      · exact .inr ⟨h1, hv, h2⟩
  · rw [if_neg (by simpa [lineVisible] using hv)] at hr
    simp only [nonVisibleEnd, Except.ok.injEq, Prod.mk.injEq] at hr
    obtain ⟨rfl, rfl⟩ := hr
    exact ⟨⟨rfl, .inl rfl⟩, .inr ⟨by omega, rfl⟩⟩

/-- What a completed DRAW leaves. -/
theorem drawPixels_frame {hires : Bool} {n : Position} {p q : Pipeline} {events : List Event}
    (h : drawPixels hires n c p = .ok (q, events)) :
    q = { p with raw := q.raw, cursor := q.cursor, shiftReg := q.shiftReg } ∧ events = [] := by
  unfold drawPixels at h
  split at h
  · cases h
  · simp only [bind_eq_ok_iff, pure_eq_ok, Except.ok.injEq, Prod.mk.injEq] at h
    obtain ⟨r, hr, rfl, rfl⟩ := h
    refine ⟨?_, rfl⟩
    have hI : r = { p with raw := r.raw, cursor := r.cursor } := by
      refine forRange_keeps (fun r => r = { p with raw := r.raw, cursor := r.cursor }) (fun i t u hI hu => ?_) rfl hr
      unfold drawPixel at hu
      split at hu
      · simp only [bind_eq_ok_iff, pure_eq_ok, Except.ok.injEq] at hu
        obtain ⟨_, _, rfl⟩ := hu
        rw [hI]
      · simp only [bind_eq_ok_iff, pure_eq_ok, Except.ok.injEq] at hu
        obtain ⟨_, _, _, _, rfl⟩ := hu
        rw [hI]
    rw [hI]
    rfl

end Sys2Proof.Machine
end

