-- ==== Sys2Proof/Laws/PerInstr.lean ====
section
/-! SUPPORT. The family `TableRow`: the word of every well-formed command matches its row of spec/opcode_table.json (R101). -/

namespace Sys2Proof.Laws.TableRow

/-- The mask and the match of a row of the table. -/
structure Row where
  mask : CommandWord
  pattern : CommandWord
deriving DecidableEq, Repr

/-- The row of a mapped poke (R101): the mask covers `CMD`, the reserved fields and `REG`. -/
def pokeRow (pattern : CommandWord) : Row := ⟨0xFF000FFFFFFF0000#64, pattern⟩

/-- The row of a command, as the table writes it. -/
def rowOf : Instr → Row
  | .pokeBplcon0 _ _ => pokeRow 0x1000010000000000#64
  | .pokeBplcon1 _ _ => pokeRow 0x1000010200000000#64
  | .pokeBplcon2 _ _ => pokeRow 0x1000010400000000#64
  | .pokeBpl1dat _ _ => pokeRow 0x1000011000000000#64
  | .pokeBpl2dat _ _ => pokeRow 0x1000011200000000#64
  | .pokeBpl3dat _ _ => pokeRow 0x1000011400000000#64
  | .pokeBpl4dat _ _ => pokeRow 0x1000011600000000#64
  | .pokeBpl5dat _ _ => pokeRow 0x1000011800000000#64
  | .pokeBpl6dat _ _ => pokeRow 0x1000011A00000000#64
  | .pokeSpr0pos _ _ => pokeRow 0x1000014000000000#64
  | .pokeSpr0ctl _ _ => pokeRow 0x1000014200000000#64
  | .pokeSpr0data _ _ => pokeRow 0x1000014400000000#64
  | .pokeSpr0datb _ _ => pokeRow 0x1000014600000000#64
  | .pokeSpr1pos _ _ => pokeRow 0x1000014800000000#64
  | .pokeSpr1ctl _ _ => pokeRow 0x1000014A00000000#64
  | .pokeSpr1data _ _ => pokeRow 0x1000014C00000000#64
  | .pokeSpr1datb _ _ => pokeRow 0x1000014E00000000#64
  | .pokeSpr2pos _ _ => pokeRow 0x1000015000000000#64
  | .pokeSpr2ctl _ _ => pokeRow 0x1000015200000000#64
  | .pokeSpr2data _ _ => pokeRow 0x1000015400000000#64
  | .pokeSpr2datb _ _ => pokeRow 0x1000015600000000#64
  | .pokeSpr3pos _ _ => pokeRow 0x1000015800000000#64
  | .pokeSpr3ctl _ _ => pokeRow 0x1000015A00000000#64
  | .pokeSpr3data _ _ => pokeRow 0x1000015C00000000#64
  | .pokeSpr3datb _ _ => pokeRow 0x1000015E00000000#64
  | .pokeSpr4pos _ _ => pokeRow 0x1000016000000000#64
  | .pokeSpr4ctl _ _ => pokeRow 0x1000016200000000#64
  | .pokeSpr4data _ _ => pokeRow 0x1000016400000000#64
  | .pokeSpr4datb _ _ => pokeRow 0x1000016600000000#64
  | .pokeSpr5pos _ _ => pokeRow 0x1000016800000000#64
  | .pokeSpr5ctl _ _ => pokeRow 0x1000016A00000000#64
  | .pokeSpr5data _ _ => pokeRow 0x1000016C00000000#64
  | .pokeSpr5datb _ _ => pokeRow 0x1000016E00000000#64
  | .pokeSpr6pos _ _ => pokeRow 0x1000017000000000#64
  | .pokeSpr6ctl _ _ => pokeRow 0x1000017200000000#64
  | .pokeSpr6data _ _ => pokeRow 0x1000017400000000#64
  | .pokeSpr6datb _ _ => pokeRow 0x1000017600000000#64
  | .pokeSpr7pos _ _ => pokeRow 0x1000017800000000#64
  | .pokeSpr7ctl _ _ => pokeRow 0x1000017A00000000#64
  | .pokeSpr7data _ _ => pokeRow 0x1000017C00000000#64
  | .pokeSpr7datb _ _ => pokeRow 0x1000017E00000000#64
  | .pokeColor00 _ _ => pokeRow 0x1000018000000000#64
  | .pokeColor01 _ _ => pokeRow 0x1000018200000000#64
  | .pokeColor02 _ _ => pokeRow 0x1000018400000000#64
  | .pokeColor03 _ _ => pokeRow 0x1000018600000000#64
  | .pokeColor04 _ _ => pokeRow 0x1000018800000000#64
  | .pokeColor05 _ _ => pokeRow 0x1000018A00000000#64
  | .pokeColor06 _ _ => pokeRow 0x1000018C00000000#64
  | .pokeColor07 _ _ => pokeRow 0x1000018E00000000#64
  | .pokeColor08 _ _ => pokeRow 0x1000019000000000#64
  | .pokeColor09 _ _ => pokeRow 0x1000019200000000#64
  | .pokeColor10 _ _ => pokeRow 0x1000019400000000#64
  | .pokeColor11 _ _ => pokeRow 0x1000019600000000#64
  | .pokeColor12 _ _ => pokeRow 0x1000019800000000#64
  | .pokeColor13 _ _ => pokeRow 0x1000019A00000000#64
  | .pokeColor14 _ _ => pokeRow 0x1000019C00000000#64
  | .pokeColor15 _ _ => pokeRow 0x1000019E00000000#64
  | .pokeColor16 _ _ => pokeRow 0x100001A000000000#64
  | .pokeColor17 _ _ => pokeRow 0x100001A200000000#64
  | .pokeColor18 _ _ => pokeRow 0x100001A400000000#64
  | .pokeColor19 _ _ => pokeRow 0x100001A600000000#64
  | .pokeColor20 _ _ => pokeRow 0x100001A800000000#64
  | .pokeColor21 _ _ => pokeRow 0x100001AA00000000#64
  | .pokeColor22 _ _ => pokeRow 0x100001AC00000000#64
  | .pokeColor23 _ _ => pokeRow 0x100001AE00000000#64
  | .pokeColor24 _ _ => pokeRow 0x100001B000000000#64
  | .pokeColor25 _ _ => pokeRow 0x100001B200000000#64
  | .pokeColor26 _ _ => pokeRow 0x100001B400000000#64
  | .pokeColor27 _ _ => pokeRow 0x100001B600000000#64
  | .pokeColor28 _ _ => pokeRow 0x100001B800000000#64
  | .pokeColor29 _ _ => pokeRow 0x100001BA00000000#64
  | .pokeColor30 _ _ => pokeRow 0x100001BC00000000#64
  | .pokeColor31 _ _ => pokeRow 0x100001BE00000000#64
  | .pokeUnmapped _ _ _ => ⟨0xFF000E01FFFF0000#64, 0x1000000000000000#64⟩
  | .draw _ _ => ⟨0xFFFFFFFFFFFFE000#64, 0x2000000000000000#64⟩
  | .beginLine _ _ => ⟨0xFFFFF000FFFFF000#64, 0x3000000000000000#64⟩
  | .endLine _ _ _ _ _ => ⟨0xF3000000FFFFF000#64, 0x4000000000000000#64⟩
  | .inspect => ⟨0xFFFFFFFFFFFFFFFF#64, 0x5000000000000000#64⟩
  | .reset => ⟨0xFFFFFFFFFFFFFFFF#64, 0xF000000000000000#64⟩
  | .nop => ⟨0xFFFFFFFFFFFFFFFF#64, 0x0000000000000000#64⟩

/-- The word of the command, if it is well formed, matches the command's row. -/
def Statement (i : Instr) : Prop := i.WellFormed → encode i &&& (rowOf i).mask = (rowOf i).pattern

theorem formatP_masked (pix : Position) (reg : BitVec 9) (val : Word16) :
    formatP pix reg val &&& 0xFF000FFFFFFF0000#64 = formatP 0#12 reg 0#16 := by
  ext i hi
  simp only [formatP, cmdPoke, BitVec.getElem_and]
  simp only [← BitVec.getLsbD_eq_getElem, BitVec.getLsbD_append]
  interval_cases i <;> simp

theorem formatP_row (pix : Position) (reg : BitVec 9) (val : Word16) {pattern : CommandWord}
    (h : formatP 0#12 reg 0#16 = pattern) : formatP pix reg val &&& (pokeRow pattern).mask = (pokeRow pattern).pattern := by
  rw [← h]
  exact formatP_masked pix reg val

theorem pokeBplcon0 (pix : Position) (val : Word16) : Statement (.pokeBplcon0 pix val) :=
  fun _ => formatP_row pix _ val (by decide)
theorem pokeBplcon1 (pix : Position) (val : Word16) : Statement (.pokeBplcon1 pix val) :=
  fun _ => formatP_row pix _ val (by decide)
theorem pokeBplcon2 (pix : Position) (val : Word16) : Statement (.pokeBplcon2 pix val) :=
  fun _ => formatP_row pix _ val (by decide)
theorem pokeBpl1dat (pix : Position) (val : Word16) : Statement (.pokeBpl1dat pix val) :=
  fun _ => formatP_row pix _ val (by decide)
theorem pokeBpl2dat (pix : Position) (val : Word16) : Statement (.pokeBpl2dat pix val) :=
  fun _ => formatP_row pix _ val (by decide)
theorem pokeBpl3dat (pix : Position) (val : Word16) : Statement (.pokeBpl3dat pix val) :=
  fun _ => formatP_row pix _ val (by decide)
theorem pokeBpl4dat (pix : Position) (val : Word16) : Statement (.pokeBpl4dat pix val) :=
  fun _ => formatP_row pix _ val (by decide)
theorem pokeBpl5dat (pix : Position) (val : Word16) : Statement (.pokeBpl5dat pix val) :=
  fun _ => formatP_row pix _ val (by decide)
theorem pokeBpl6dat (pix : Position) (val : Word16) : Statement (.pokeBpl6dat pix val) :=
  fun _ => formatP_row pix _ val (by decide)
theorem pokeSpr0pos (pix : Position) (val : Word16) : Statement (.pokeSpr0pos pix val) :=
  fun _ => formatP_row pix _ val (by decide)
theorem pokeSpr0ctl (pix : Position) (val : Word16) : Statement (.pokeSpr0ctl pix val) :=
  fun _ => formatP_row pix _ val (by decide)
theorem pokeSpr0data (pix : Position) (val : Word16) : Statement (.pokeSpr0data pix val) :=
  fun _ => formatP_row pix _ val (by decide)
theorem pokeSpr0datb (pix : Position) (val : Word16) : Statement (.pokeSpr0datb pix val) :=
  fun _ => formatP_row pix _ val (by decide)
theorem pokeSpr1pos (pix : Position) (val : Word16) : Statement (.pokeSpr1pos pix val) :=
  fun _ => formatP_row pix _ val (by decide)
theorem pokeSpr1ctl (pix : Position) (val : Word16) : Statement (.pokeSpr1ctl pix val) :=
  fun _ => formatP_row pix _ val (by decide)
theorem pokeSpr1data (pix : Position) (val : Word16) : Statement (.pokeSpr1data pix val) :=
  fun _ => formatP_row pix _ val (by decide)
theorem pokeSpr1datb (pix : Position) (val : Word16) : Statement (.pokeSpr1datb pix val) :=
  fun _ => formatP_row pix _ val (by decide)
theorem pokeSpr2pos (pix : Position) (val : Word16) : Statement (.pokeSpr2pos pix val) :=
  fun _ => formatP_row pix _ val (by decide)
theorem pokeSpr2ctl (pix : Position) (val : Word16) : Statement (.pokeSpr2ctl pix val) :=
  fun _ => formatP_row pix _ val (by decide)
theorem pokeSpr2data (pix : Position) (val : Word16) : Statement (.pokeSpr2data pix val) :=
  fun _ => formatP_row pix _ val (by decide)
theorem pokeSpr2datb (pix : Position) (val : Word16) : Statement (.pokeSpr2datb pix val) :=
  fun _ => formatP_row pix _ val (by decide)
theorem pokeSpr3pos (pix : Position) (val : Word16) : Statement (.pokeSpr3pos pix val) :=
  fun _ => formatP_row pix _ val (by decide)
theorem pokeSpr3ctl (pix : Position) (val : Word16) : Statement (.pokeSpr3ctl pix val) :=
  fun _ => formatP_row pix _ val (by decide)
theorem pokeSpr3data (pix : Position) (val : Word16) : Statement (.pokeSpr3data pix val) :=
  fun _ => formatP_row pix _ val (by decide)
theorem pokeSpr3datb (pix : Position) (val : Word16) : Statement (.pokeSpr3datb pix val) :=
  fun _ => formatP_row pix _ val (by decide)
theorem pokeSpr4pos (pix : Position) (val : Word16) : Statement (.pokeSpr4pos pix val) :=
  fun _ => formatP_row pix _ val (by decide)
theorem pokeSpr4ctl (pix : Position) (val : Word16) : Statement (.pokeSpr4ctl pix val) :=
  fun _ => formatP_row pix _ val (by decide)
theorem pokeSpr4data (pix : Position) (val : Word16) : Statement (.pokeSpr4data pix val) :=
  fun _ => formatP_row pix _ val (by decide)
theorem pokeSpr4datb (pix : Position) (val : Word16) : Statement (.pokeSpr4datb pix val) :=
  fun _ => formatP_row pix _ val (by decide)
theorem pokeSpr5pos (pix : Position) (val : Word16) : Statement (.pokeSpr5pos pix val) :=
  fun _ => formatP_row pix _ val (by decide)
theorem pokeSpr5ctl (pix : Position) (val : Word16) : Statement (.pokeSpr5ctl pix val) :=
  fun _ => formatP_row pix _ val (by decide)
theorem pokeSpr5data (pix : Position) (val : Word16) : Statement (.pokeSpr5data pix val) :=
  fun _ => formatP_row pix _ val (by decide)
theorem pokeSpr5datb (pix : Position) (val : Word16) : Statement (.pokeSpr5datb pix val) :=
  fun _ => formatP_row pix _ val (by decide)
theorem pokeSpr6pos (pix : Position) (val : Word16) : Statement (.pokeSpr6pos pix val) :=
  fun _ => formatP_row pix _ val (by decide)
theorem pokeSpr6ctl (pix : Position) (val : Word16) : Statement (.pokeSpr6ctl pix val) :=
  fun _ => formatP_row pix _ val (by decide)
theorem pokeSpr6data (pix : Position) (val : Word16) : Statement (.pokeSpr6data pix val) :=
  fun _ => formatP_row pix _ val (by decide)
theorem pokeSpr6datb (pix : Position) (val : Word16) : Statement (.pokeSpr6datb pix val) :=
  fun _ => formatP_row pix _ val (by decide)
theorem pokeSpr7pos (pix : Position) (val : Word16) : Statement (.pokeSpr7pos pix val) :=
  fun _ => formatP_row pix _ val (by decide)
theorem pokeSpr7ctl (pix : Position) (val : Word16) : Statement (.pokeSpr7ctl pix val) :=
  fun _ => formatP_row pix _ val (by decide)
theorem pokeSpr7data (pix : Position) (val : Word16) : Statement (.pokeSpr7data pix val) :=
  fun _ => formatP_row pix _ val (by decide)
theorem pokeSpr7datb (pix : Position) (val : Word16) : Statement (.pokeSpr7datb pix val) :=
  fun _ => formatP_row pix _ val (by decide)
theorem pokeColor00 (pix : Position) (val : Word16) : Statement (.pokeColor00 pix val) :=
  fun _ => formatP_row pix _ val (by decide)
theorem pokeColor01 (pix : Position) (val : Word16) : Statement (.pokeColor01 pix val) :=
  fun _ => formatP_row pix _ val (by decide)
theorem pokeColor02 (pix : Position) (val : Word16) : Statement (.pokeColor02 pix val) :=
  fun _ => formatP_row pix _ val (by decide)
theorem pokeColor03 (pix : Position) (val : Word16) : Statement (.pokeColor03 pix val) :=
  fun _ => formatP_row pix _ val (by decide)
theorem pokeColor04 (pix : Position) (val : Word16) : Statement (.pokeColor04 pix val) :=
  fun _ => formatP_row pix _ val (by decide)
theorem pokeColor05 (pix : Position) (val : Word16) : Statement (.pokeColor05 pix val) :=
  fun _ => formatP_row pix _ val (by decide)
theorem pokeColor06 (pix : Position) (val : Word16) : Statement (.pokeColor06 pix val) :=
  fun _ => formatP_row pix _ val (by decide)
theorem pokeColor07 (pix : Position) (val : Word16) : Statement (.pokeColor07 pix val) :=
  fun _ => formatP_row pix _ val (by decide)
theorem pokeColor08 (pix : Position) (val : Word16) : Statement (.pokeColor08 pix val) :=
  fun _ => formatP_row pix _ val (by decide)
theorem pokeColor09 (pix : Position) (val : Word16) : Statement (.pokeColor09 pix val) :=
  fun _ => formatP_row pix _ val (by decide)
theorem pokeColor10 (pix : Position) (val : Word16) : Statement (.pokeColor10 pix val) :=
  fun _ => formatP_row pix _ val (by decide)
theorem pokeColor11 (pix : Position) (val : Word16) : Statement (.pokeColor11 pix val) :=
  fun _ => formatP_row pix _ val (by decide)
theorem pokeColor12 (pix : Position) (val : Word16) : Statement (.pokeColor12 pix val) :=
  fun _ => formatP_row pix _ val (by decide)
theorem pokeColor13 (pix : Position) (val : Word16) : Statement (.pokeColor13 pix val) :=
  fun _ => formatP_row pix _ val (by decide)
theorem pokeColor14 (pix : Position) (val : Word16) : Statement (.pokeColor14 pix val) :=
  fun _ => formatP_row pix _ val (by decide)
theorem pokeColor15 (pix : Position) (val : Word16) : Statement (.pokeColor15 pix val) :=
  fun _ => formatP_row pix _ val (by decide)
theorem pokeColor16 (pix : Position) (val : Word16) : Statement (.pokeColor16 pix val) :=
  fun _ => formatP_row pix _ val (by decide)
theorem pokeColor17 (pix : Position) (val : Word16) : Statement (.pokeColor17 pix val) :=
  fun _ => formatP_row pix _ val (by decide)
theorem pokeColor18 (pix : Position) (val : Word16) : Statement (.pokeColor18 pix val) :=
  fun _ => formatP_row pix _ val (by decide)
theorem pokeColor19 (pix : Position) (val : Word16) : Statement (.pokeColor19 pix val) :=
  fun _ => formatP_row pix _ val (by decide)
theorem pokeColor20 (pix : Position) (val : Word16) : Statement (.pokeColor20 pix val) :=
  fun _ => formatP_row pix _ val (by decide)
theorem pokeColor21 (pix : Position) (val : Word16) : Statement (.pokeColor21 pix val) :=
  fun _ => formatP_row pix _ val (by decide)
theorem pokeColor22 (pix : Position) (val : Word16) : Statement (.pokeColor22 pix val) :=
  fun _ => formatP_row pix _ val (by decide)
theorem pokeColor23 (pix : Position) (val : Word16) : Statement (.pokeColor23 pix val) :=
  fun _ => formatP_row pix _ val (by decide)
theorem pokeColor24 (pix : Position) (val : Word16) : Statement (.pokeColor24 pix val) :=
  fun _ => formatP_row pix _ val (by decide)
theorem pokeColor25 (pix : Position) (val : Word16) : Statement (.pokeColor25 pix val) :=
  fun _ => formatP_row pix _ val (by decide)
theorem pokeColor26 (pix : Position) (val : Word16) : Statement (.pokeColor26 pix val) :=
  fun _ => formatP_row pix _ val (by decide)
theorem pokeColor27 (pix : Position) (val : Word16) : Statement (.pokeColor27 pix val) :=
  fun _ => formatP_row pix _ val (by decide)
theorem pokeColor28 (pix : Position) (val : Word16) : Statement (.pokeColor28 pix val) :=
  fun _ => formatP_row pix _ val (by decide)
theorem pokeColor29 (pix : Position) (val : Word16) : Statement (.pokeColor29 pix val) :=
  fun _ => formatP_row pix _ val (by decide)
theorem pokeColor30 (pix : Position) (val : Word16) : Statement (.pokeColor30 pix val) :=
  fun _ => formatP_row pix _ val (by decide)
theorem pokeColor31 (pix : Position) (val : Word16) : Statement (.pokeColor31 pix val) :=
  fun _ => formatP_row pix _ val (by decide)
theorem pokeUnmapped (reg : BitVec 9) (pix : Position) (val : Word16) : Statement (.pokeUnmapped reg pix val) := by
  intro h
  have he : reg.getLsbD 0 = false := by
    simp only [Instr.WellFormed, Instr.wellFormed, Bool.and_eq_true, decide_eq_true_eq] at h
    exact h.1
  show formatP pix reg val &&& 0xFF000E01FFFF0000#64 = 0x1000000000000000#64
  ext i hi
  simp only [formatP, cmdPoke, BitVec.getElem_and]
  simp only [← BitVec.getLsbD_eq_getElem, BitVec.getLsbD_append]
  interval_cases i <;> first | (simp; done) | (simp; exact he)
theorem draw (hires : Bool) (n : Position) : Statement (.draw hires n) := by
  intro _
  show formatD hires n &&& 0xFFFFFFFFFFFFE000#64 = 0x2000000000000000#64
  ext i hi
  simp only [formatD, cmdDraw, BitVec.getElem_and]
  simp only [← BitVec.getLsbD_eq_getElem, BitVec.getLsbD_append]
  interval_cases i <;> simp
theorem beginLine (first : Position) (vpos : Position) : Statement (.beginLine first vpos) := by
  intro _
  show formatB first vpos &&& 0xFFFFF000FFFFF000#64 = 0x3000000000000000#64
  ext i hi
  simp only [formatB, cmdBegin, BitVec.getElem_and]
  simp only [← BitVec.getLsbD_eq_getElem, BitVec.getLsbD_append]
  interval_cases i <;> simp
theorem endLine (vf : Bool) (hf : Bool) (hopen : Position) (hclose : Position) (vpos : Position) : Statement (.endLine vf hf hopen hclose vpos) := by
  intro _
  show formatE vf hf hopen hclose vpos &&& 0xF3000000FFFFF000#64 = 0x4000000000000000#64
  ext i hi
  simp only [formatE, cmdEnd, BitVec.getElem_and]
  simp only [← BitVec.getLsbD_eq_getElem, BitVec.getLsbD_append]
  interval_cases i <;> simp
theorem inspect : Statement (.inspect) := fun _ => by decide
theorem reset : Statement (.reset) := fun _ => by decide
theorem nop : Statement (.nop) := fun _ => by decide

end Sys2Proof.Laws.TableRow
end

