-- ==== Sys2Proof/Laws/Raises.lean ====
section
/-! SUPPORT. What the steps of END can raise, in every state: only `BUFFER_INDEX` and `LOG_BAD_TARGET` (45_scanline_orchestrator.md
R221). -/

namespace Sys2Proof.Machine

variable {c : Config}

/-- The two faults that are checked inside END's steps. -/
def Raise.Internal (r : Raise) : Prop := r.code = .bufferIndex ∨ r.code = .logBadTarget

theorem bufRead_raises {w : Nat} {buf : Buffer w} {i : Nat} {r : Raise} (h : bufRead c buf i = .error r) : r.Internal := by
  unfold bufRead at h
  split at h
  · cases h; exact .inl rfl
  · cases h

theorem bufWrite_raises {w : Nat} {buf : Buffer w} {i : Nat} {v : BitVec w} {r : Raise} (h : bufWrite c buf i v = .error r) :
    r.Internal := by
  unfold bufWrite at h
  split at h
  · cases h; exact .inl rfl
  · cases h

theorem resolveCell_raises {pixel : ColourIndex → Pixel} {i : Nat} {p : Pipeline} {r : Raise}
    (h : resolveCell c pixel i p = .error r) : r.Internal := by
  simp only [resolveCell, bind_eq_error_iff, pure_eq_ok, reduceCtorEq, and_false, exists_false, or_false] at h
  rcases h with h | ⟨_, _, h | ⟨_, _, h | ⟨_, _, h⟩⟩⟩
  · exact bufRead_raises h
  · exact bufWrite_raises h
  · exact bufWrite_raises h
  · exact bufWrite_raises h

theorem resolveSegment_raises {start stop : Nat} {a0 a2 : Word16} {p : Pipeline} {r : Raise}
    (h : resolveSegment c start stop a0 a2 p = .error r) : r.Internal := by
  unfold resolveSegment at h
  split at h
  · cases h; exact .inl rfl
  · split at h
    · exact forRange_raises Raise.Internal (fun _ _ _ => resolveCell_raises) h
    · exact forRange_raises Raise.Internal (fun _ _ _ => resolveCell_raises) h

theorem replayEntries_raises (entries : List LogEntry) :
    ∀ {a : ActiveValues} {prev : Nat} {p : Pipeline} {r : Raise}, replayEntries c entries a prev p = .error r → r.Internal := by
  induction entries with
  | nil => intro a prev p r h; cases h
  | cons e rest ih =>
    intro a prev p r h
    simp only [replayEntries, bind_eq_error_iff] at h
    rcases h with h | ⟨_, _, h | ⟨_, _, h⟩⟩
    · unfold checkTarget at h
      split at h
      · cases h; exact .inr rfl
      · cases h
    · exact resolveSegment_raises h
    · exact ih h

theorem replay_raises {p : Pipeline} {r : Raise} (h : replay c p = .error r) : r.Internal := by
  simp only [replay, bind_eq_error_iff, pure_eq_ok, reduceCtorEq, and_false, exists_false, or_false] at h
  exact replayEntries_raises _ h

theorem drawSpanCell_raises {tag : DepthTag} {colour : ColourIndex} {i : Nat} {p : Pipeline} {r : Raise}
    (h : drawSpanCell c tag colour i p = .error r) : r.Internal := by
  unfold drawSpanCell at h
  split at h
  · rcases bind_eq_error_iff.1 h with h | ⟨_, _, h⟩
    · exact bufRead_raises h
    · split at h
      · simp only [bind_eq_error_iff, pure_eq_ok, reduceCtorEq, and_false, exists_false, or_false] at h
        rcases h with h | ⟨_, _, h⟩
        · exact bufWrite_raises h
        · exact bufWrite_raises h
      · cases h
  · cases h

theorem drawSpan_raises {start : Nat} {tag : DepthTag} {colour : Nat → ColourIndex} {p : Pipeline} {r : Raise}
    (h : drawSpan c start tag colour p = .error r) : r.Internal := by
  refine forRangeDown_raises Raise.Internal (fun j t r hr => ?_) h
  split at hr
  · exact forRange_raises Raise.Internal (fun _ _ _ => drawSpanCell_raises) hr
  · cases hr

theorem drawIndependent_raises {pair : Fin 4} {x : Fin 8} {p : Pipeline} {r : Raise}
    (h : drawIndependent c pair x p = .error r) : r.Internal := by
  unfold drawIndependent at h
  split at h
  · exact drawSpan_raises h
  · cases h

theorem drawPairs_raises (order : List (Fin 4)) :
    ∀ {p : Pipeline} {r : Raise}, drawPairs c order p = .error r → r.Internal := by
  induction order with
  | nil => intro p r h; cases h
  | cons pair rest ih =>
    intro p r h
    rcases bind_eq_error_iff.1 h with h | ⟨_, _, h⟩
    · unfold drawPair at h
      simp only at h
      split at h
      · exact drawSpan_raises h
      · rcases bind_eq_error_iff.1 h with h | ⟨_, _, h⟩
        · exact drawIndependent_raises h
        · exact drawIndependent_raises h
    · exact ih h

theorem spriteStep_raises {vf : Bool} {p : Pipeline} {r : Raise} (h : spriteStep c vf p = .error r) : r.Internal := by
  unfold spriteStep at h
  split at h
  · simp only [drawAll, bind_eq_error_iff, pure_eq_ok, reduceCtorEq, and_false, exists_false, or_false] at h
    exact drawPairs_raises _ h
  · cases h

theorem fillBorder_raises {start stop : Nat} {p : Pipeline} {r : Raise} (h : fillBorder c start stop p = .error r) :
    r.Internal := by
  refine forRange_raises Raise.Internal (fun i t r hr => ?_) h
  simp only [bind_eq_error_iff, pure_eq_ok, reduceCtorEq, and_false, exists_false, or_false] at hr
  exact bufWrite_raises hr

theorem borderFill_raises {vf hf : Bool} {hopen hclose : Position} {p : Pipeline} {r : Raise}
    (h : borderFill c vf hf hopen hclose p = .error r) : r.Internal := by
  unfold borderFill at h
  split at h
  · exact fillBorder_raises h
  · rcases bind_eq_error_iff.1 h with h | ⟨_, _, h⟩
    · unfold fillLeft at h
      split at h
      · exact fillBorder_raises h
      · cases h
    · unfold fillRight at h
      split at h
      · exact fillBorder_raises h
      · cases h

theorem tailCopy_raises {p : Pipeline} {r : Raise} (h : tailCopy c p = .error r) : r.Internal := by
  refine forRange_raises Raise.Internal (fun i t r hr => ?_) h
  simp only [bind_eq_error_iff, pure_eq_ok, reduceCtorEq, and_false, exists_false, or_false] at hr
  rcases hr with hr | ⟨_, _, hr | ⟨_, _, hr⟩⟩
  · exact bufRead_raises hr
  · exact bufWrite_raises hr
  · exact bufWrite_raises hr

/-- What a visible END can raise. -/
theorem visibleEnd_raises {vf hf : Bool} {hopen hclose vpos : Position} {p : Pipeline} {r : Raise}
    (h : visibleEnd c vf hf hopen hclose vpos p = .error r) : r.Internal := by
  simp only [visibleEnd, bind_eq_error_iff, pure_eq_ok, reduceCtorEq, and_false, exists_false, or_false] at h
  rcases h with h | ⟨_, _, h | ⟨_, _, h | ⟨_, _, h⟩⟩⟩
  · exact replay_raises h
  · exact spriteStep_raises h
  · exact borderFill_raises h
  · split at h
    · exact tailCopy_raises h
    · cases h

end Sys2Proof.Machine
end

