-- ==== Sys2Proof/Laws/Run.lean ====
section
/-! SUPPORT. What running a command, `exec` and `step` can do, said once. -/

namespace Sys2Proof.Machine

theorem runCommand_discards {command : Command} {s : State} (h : s.pipe.fault ≠ none) : runCommand command s = .next s := by
  unfold runCommand
  split
  · rfl
  · next h0 => exact absurd h0 h

theorem runCommand_commits {command : Command} {s : State} {p : Pipeline} {events : List Event} (h : s.pipe.fault = none)
    (hc : command s.config s.pipe = .ok (p, events)) : runCommand command s = .next (commit p events s) := by
  simp [runCommand, h, hc]

theorem runCommand_faults {command : Command} {s : State} {r : Raise} (h : s.pipe.fault = none)
    (hc : command s.config s.pipe = .error r) : runCommand command s = .next (takeFault r s) := by
  simp [runCommand, h, hc]

/-- What running a command can do: discard it, commit it whole, or fault. -/
theorem runCommand_cases {command : Command} {s t : State} (h : runCommand command s = .next t) :
    (s.pipe.fault ≠ none ∧ t = s)
      ∨ (s.pipe.fault = none ∧ ∃ p events, command s.config s.pipe = .ok (p, events) ∧ t = commit p events s)
      ∨ (s.pipe.fault = none ∧ ∃ r, command s.config s.pipe = .error r ∧ t = takeFault r s) := by
  unfold runCommand at h
  split at h
  · next h0 => cases h; exact .inl ⟨by simp [h0], rfl⟩
  · next h0 =>
    split at h
    · next p events hc => cases h; exact .inr (.inl ⟨h0, p, events, hc, rfl⟩)
    · next r hc => cases h; exact .inr (.inr ⟨h0, r, hc, rfl⟩)

/-- Running a command answers a next state. -/
theorem runCommand_answers (command : Command) (s : State) : ∃ t, runCommand command s = .next t := by
  unfold runCommand
  split
  · exact ⟨_, rfl⟩
  · split <;> exact ⟨_, rfl⟩

/-- The command an instruction runs. -/
def commandOf : Instr → Command
  | .pokeBplcon0 pix val => pokePrimary pix val
  | .pokeBplcon1 pix val => pokeSecondary pix val
  | .pokeBplcon2 pix val => pokeTertiary pix val
  | .pokeBpl1dat _ val => loadPlane 0 val
  | .pokeBpl2dat _ val => loadPlane 1 val
  | .pokeBpl3dat _ val => loadPlane 2 val
  | .pokeBpl4dat _ val => loadPlane 3 val
  | .pokeBpl5dat _ val => loadPlane 4 val
  | .pokeBpl6dat _ val => loadPlane 5 val
  | .pokeSpr0pos _ val => pokeSpritePos 0 val
  | .pokeSpr0ctl _ val => pokeSpriteCtl 0 val
  | .pokeSpr0data _ val => pokeSpriteData 0 val
  | .pokeSpr0datb _ val => pokeSpriteDatb 0 val
  | .pokeSpr1pos _ val => pokeSpritePos 1 val
  | .pokeSpr1ctl _ val => pokeSpriteCtl 1 val
  | .pokeSpr1data _ val => pokeSpriteData 1 val
  | .pokeSpr1datb _ val => pokeSpriteDatb 1 val
  | .pokeSpr2pos _ val => pokeSpritePos 2 val
  | .pokeSpr2ctl _ val => pokeSpriteCtl 2 val
  | .pokeSpr2data _ val => pokeSpriteData 2 val
  | .pokeSpr2datb _ val => pokeSpriteDatb 2 val
  | .pokeSpr3pos _ val => pokeSpritePos 3 val
  | .pokeSpr3ctl _ val => pokeSpriteCtl 3 val
  | .pokeSpr3data _ val => pokeSpriteData 3 val
  | .pokeSpr3datb _ val => pokeSpriteDatb 3 val
  | .pokeSpr4pos _ val => pokeSpritePos 4 val
  | .pokeSpr4ctl _ val => pokeSpriteCtl 4 val
  | .pokeSpr4data _ val => pokeSpriteData 4 val
  | .pokeSpr4datb _ val => pokeSpriteDatb 4 val
  | .pokeSpr5pos _ val => pokeSpritePos 5 val
  | .pokeSpr5ctl _ val => pokeSpriteCtl 5 val
  | .pokeSpr5data _ val => pokeSpriteData 5 val
  | .pokeSpr5datb _ val => pokeSpriteDatb 5 val
  | .pokeSpr6pos _ val => pokeSpritePos 6 val
  | .pokeSpr6ctl _ val => pokeSpriteCtl 6 val
  | .pokeSpr6data _ val => pokeSpriteData 6 val
  | .pokeSpr6datb _ val => pokeSpriteDatb 6 val
  | .pokeSpr7pos _ val => pokeSpritePos 7 val
  | .pokeSpr7ctl _ val => pokeSpriteCtl 7 val
  | .pokeSpr7data _ val => pokeSpriteData 7 val
  | .pokeSpr7datb _ val => pokeSpriteDatb 7 val
  | .pokeColor00 pix val => forwardColour 0 pix val
  | .pokeColor01 pix val => forwardColour 1 pix val
  | .pokeColor02 pix val => forwardColour 2 pix val
  | .pokeColor03 pix val => forwardColour 3 pix val
  | .pokeColor04 pix val => forwardColour 4 pix val
  | .pokeColor05 pix val => forwardColour 5 pix val
  | .pokeColor06 pix val => forwardColour 6 pix val
  | .pokeColor07 pix val => forwardColour 7 pix val
  | .pokeColor08 pix val => forwardColour 8 pix val
  | .pokeColor09 pix val => forwardColour 9 pix val
  | .pokeColor10 pix val => forwardColour 10 pix val
  | .pokeColor11 pix val => forwardColour 11 pix val
  | .pokeColor12 pix val => forwardColour 12 pix val
  | .pokeColor13 pix val => forwardColour 13 pix val
  | .pokeColor14 pix val => forwardColour 14 pix val
  | .pokeColor15 pix val => forwardColour 15 pix val
  | .pokeColor16 pix val => forwardColour 16 pix val
  | .pokeColor17 pix val => forwardColour 17 pix val
  | .pokeColor18 pix val => forwardColour 18 pix val
  | .pokeColor19 pix val => forwardColour 19 pix val
  | .pokeColor20 pix val => forwardColour 20 pix val
  | .pokeColor21 pix val => forwardColour 21 pix val
  | .pokeColor22 pix val => forwardColour 22 pix val
  | .pokeColor23 pix val => forwardColour 23 pix val
  | .pokeColor24 pix val => forwardColour 24 pix val
  | .pokeColor25 pix val => forwardColour 25 pix val
  | .pokeColor26 pix val => forwardColour 26 pix val
  | .pokeColor27 pix val => forwardColour 27 pix val
  | .pokeColor28 pix val => forwardColour 28 pix val
  | .pokeColor29 pix val => forwardColour 29 pix val
  | .pokeColor30 pix val => forwardColour 30 pix val
  | .pokeColor31 pix val => forwardColour 31 pix val
  | .pokeUnmapped _ _ _ => noEffect
  | .draw hires n => drawPixels hires n
  | .beginLine first vpos => startLine first vpos
  | .endLine vf hf hopen hclose vpos => finishLine vf hf hopen hclose vpos
  | .inspect => inspectPipeline
  | .reset => resetPipeline
  | .nop => noEffect

/-- Every arm of `exec` runs one command. -/
theorem exec_eq (i : Instr) (s : State) : exec i s = runCommand (commandOf i) s := by
  cases i <;> rfl

/-- What a step does: nothing with no command issued, else it runs the decoded command, or the illegal one, with the rest of
the input still to come. -/
theorem step_cases (s : State) :
    (s.pending = [] ∧ step s = .next s)
      ∨ ∃ w rest, s.pending = w :: rest
        ∧ ((∃ i, decode w = .ok i ∧ step s = exec i { s with pending := rest })
          ∨ (∃ e, decode w = .error e ∧ step s = runCommand (illegalCommand w) { s with pending := rest })) := by
  cases hp : s.pending with
  | nil => exact .inl ⟨rfl, by simp [step, fetch, hp]⟩
  | cons w rest =>
    refine .inr ⟨w, rest, rfl, ?_⟩
    cases hd : decode w with
    | ok i => exact .inl ⟨i, rfl, by simp [step, fetch, hp, hd]⟩
    | error e => exact .inr ⟨e, rfl, by simp [step, fetch, hp, hd]⟩

end Sys2Proof.Machine
end

