-- ==== Sys2Proof/Laws/Sprite.lean ====
section
/-! SUPPORT. What the sprite compositor does, cell by cell (43_sprite_compositor.md R193, R194, R198). -/

namespace Sys2Proof.Machine

variable {c : Config}

/-- The pixel at cell `i`. -/
def pixelAt (p : Pipeline) (i : Nat) : Pixel := ⟨readCell p.cidx i, readCell p.depth i⟩

/-- Only colour indices and depths of `p` change, and the canonical form is kept. -/
structure SpriteFrame (p q : Pipeline) : Prop where
  frame : q = { p with cidx := q.cidx, depth := q.depth }
  canonical : Memory.wf p = true → Memory.wf q = true

theorem SpriteFrame.refl (p : Pipeline) : SpriteFrame p p := ⟨rfl, id⟩

theorem SpriteFrame.trans {p q r : Pipeline} (h1 : SpriteFrame p q) (h2 : SpriteFrame q r) : SpriteFrame p r := by
  refine ⟨?_, h2.canonical ∘ h1.canonical⟩
  have e1 := h1.frame
  have e2 := h2.frame
  rw [e1] at e2
  exact e2

theorem SpriteFrame.sprite {p q : Pipeline} (h : SpriteFrame p q) (x : Fin 8) : q.sprite x = p.sprite x := by
  rw [h.frame]; rfl

/-- A pixel after a sprite pixel of this tag and colour lands on it (R193). -/
def Pixel.under (before : Pixel) (tag : DepthTag) (colour : ColourIndex) : Pixel :=
  if before.tag < tag then ⟨colour, tag⟩ else before

/-- One cell of a span. -/
theorem drawSpanCell_spec (hL : c.linePixels ≤ c.bufPixels) (tag : DepthTag) (colour : ColourIndex) (i : Nat) (p : Pipeline) :
    ∃ q, drawSpanCell c tag colour i p = .ok q ∧ SpriteFrame p q
      ∧ ∀ j, pixelAt q j = if j = i ∧ i < c.linePixels then (pixelAt p j).under tag colour else pixelAt p j := by
  unfold drawSpanCell
  by_cases hi : i < c.linePixels
  · have hB : i < c.bufPixels := by omega
    rw [if_pos hi, bufRead_ok hB]
    by_cases hd : readCell p.depth i < tag
    · refine ⟨{ p with cidx := writeCell p.cidx i colour, depth := writeCell p.depth i tag }, ?_, ⟨rfl, fun hp => ?_⟩,
        fun j => ?_⟩
      · simp [hd, bufWrite_ok hB]
      · obtain ⟨h1, h2, h3⟩ := (Memory.wf_iff p).1 hp
        rw [Memory.wf_iff]
        exact ⟨h1, wf_writeCell h2 i colour, wf_writeCell h3 i tag⟩
      · by_cases hj : j = i
        · subst hj
          simp [pixelAt, Pixel.under, hi, hd]
        · have : i ≠ j := fun e => hj e.symm
          simp [pixelAt, hj, this]
    · refine ⟨p, by simp [hd], SpriteFrame.refl p, fun j => ?_⟩
      by_cases hj : j = i
      · subst hj
        simp [pixelAt, Pixel.under, hd]
      · simp [hj]
  · exact ⟨p, by simp [hi], SpriteFrame.refl p, fun j => by simp [hi]⟩

/-- The two cells of one sprite pixel. -/
theorem drawSpanPixel_spec (hL : c.linePixels ≤ c.bufPixels) (tag : DepthTag) (colour : ColourIndex) (base : Nat)
    (p : Pipeline) :
    ∃ q, forRange 0 2 (fun d p => drawSpanCell c tag colour (base + d) p) p = .ok q ∧ SpriteFrame p q
      ∧ ∀ j, pixelAt q j =
        if base ≤ j ∧ j < base + 2 ∧ j < c.linePixels then (pixelAt p j).under tag colour else pixelAt p j := by
  obtain ⟨q, hq, hf, hp⟩ := forRange_completes (a := 0) (b := 2) (s := p)
    (body := fun d p => drawSpanCell c tag colour (base + d) p)
    (fun k q => SpriteFrame p q ∧ ∀ j, pixelAt q j =
        if base ≤ j ∧ j < base + k ∧ j < c.linePixels then (pixelAt p j).under tag colour else pixelAt p j)
    ⟨SpriteFrame.refl p, fun j => by rw [if_neg (by omega)]⟩
    (fun d t _ _ hI => by
      obtain ⟨u, hu, hfu, hpu⟩ := drawSpanCell_spec hL tag colour (base + d) t
      refine ⟨u, hu, hI.1.trans hfu, fun j => ?_⟩
      rw [hpu j, hI.2 j]
      by_cases hj : j = base + d
      · by_cases hl : base + d < c.linePixels
        · rw [if_pos ⟨hj, hl⟩, if_neg (by omega), if_pos (by omega)]
        · rw [if_neg (by omega), if_neg (by omega), if_neg (by omega)]
      · rw [if_neg (fun h => hj h.1)]
        by_cases h2 : base ≤ j ∧ j < base + d ∧ j < c.linePixels
        · rw [if_pos h2, if_pos (by omega)]
        · rw [if_neg h2, if_neg (by omega)])
  exact ⟨q, hq, hf, hp⟩

open Classical in
/-- What a span does (R193): each covered cell of the line is compared on its own. -/
theorem drawSpan_spec (hL : c.linePixels ≤ c.bufPixels) (layer : Layer) (p : Pipeline) :
    ∃ q, drawSpan c layer.start layer.tag layer.colour p = .ok q ∧ SpriteFrame p q
      ∧ ∀ i, pixelAt q i =
        if i < c.linePixels ∧ layer.Covers i then (pixelAt p i).under layer.tag (layer.at i) else pixelAt p i := by
  obtain ⟨q, hq, hf, hp⟩ := loopDown_completes (start := 0) (s := p)
    (body := fun j p =>
      if layer.colour j ≠ 0#6 then
        forRange 0 2 (fun d p => drawSpanCell c layer.tag (layer.colour j) (2 * layer.start + 2 * j + d) p) p
      else return p)
    (fun k q => SpriteFrame p q ∧ ∀ i, pixelAt q i =
        if i < c.linePixels ∧ layer.Covers i ∧ k ≤ (i - 2 * layer.start) / 2
        then (pixelAt p i).under layer.tag (layer.at i) else pixelAt p i) 16
    ⟨SpriteFrame.refl p, fun i => by
      rw [if_neg]
      rintro ⟨_, ⟨h1, h2, _⟩, h3⟩
      omega⟩
    (fun k t hk hI => by
      rw [Nat.zero_add]
      by_cases hcol : layer.colour k ≠ 0#6
      · obtain ⟨u, hu, hfu, hpu⟩ := drawSpanPixel_spec hL layer.tag (layer.colour k) (2 * layer.start + 2 * k) t
        refine ⟨u, by rw [if_pos hcol]; exact hu, hI.1.trans hfu, fun i => ?_⟩
        rw [hpu i, hI.2 i]
        by_cases hin : 2 * layer.start + 2 * k ≤ i ∧ i < 2 * layer.start + 2 * k + 2
        · have hidx : (i - 2 * layer.start) / 2 = k := by omega
          have hcov : layer.Covers i := ⟨by omega, by omega, by rw [hidx]; exact hcol⟩
          by_cases hl : i < c.linePixels
          · rw [if_pos ⟨hin.1, hin.2, hl⟩, if_neg (by omega), if_pos ⟨hl, hcov, by omega⟩]
            simp [Layer.at, hidx]
          · rw [if_neg (by omega), if_neg (by tauto), if_neg (by tauto)]
        · rw [if_neg (by tauto)]
          by_cases h3 : i < c.linePixels ∧ layer.Covers i ∧ k + 1 ≤ (i - 2 * layer.start) / 2
          · rw [if_pos h3, if_pos ⟨h3.1, h3.2.1, by omega⟩]
          · rw [if_neg h3, if_neg]
            rintro ⟨hl, hcov, hge⟩
            have := hcov.1
            exact h3 ⟨hl, hcov, by omega⟩
      · refine ⟨t, by rw [if_neg hcol]; rfl, hI.1, fun i => ?_⟩
        rw [hI.2 i]
        by_cases h3 : i < c.linePixels ∧ layer.Covers i ∧ k + 1 ≤ (i - 2 * layer.start) / 2
        · rw [if_pos h3, if_pos ⟨h3.1, h3.2.1, by omega⟩]
        · rw [if_neg h3, if_neg]
          rintro ⟨hl, hcov, hge⟩
          refine h3 ⟨hl, hcov, ?_⟩
          rcases Nat.lt_or_ge k ((i - 2 * layer.start) / 2) with h | h
          · exact h
          · have hidx : (i - 2 * layer.start) / 2 = k := by omega
            exact absurd (hidx ▸ hcov.2.2) hcol)
  refine ⟨q, hq, hf, fun i => ?_⟩
  rw [hp i]
  simp

/-- The layers of a list, drawn in its order. -/
def drawLayers (c : Config) : List Layer → Pipeline → Except Raise Pipeline
  | [], p => .ok p
  | layer :: rest, p => (drawSpan c layer.start layer.tag layer.colour p).bind (drawLayers c rest)

theorem drawLayers_append (l m : List Layer) (p : Pipeline) :
    drawLayers c (l ++ m) p = (drawLayers c l p).bind (drawLayers c m) := by
  induction l generalizing p with
  | nil => rfl
  | cons layer rest ih =>
    simp only [List.cons_append, drawLayers]
    cases drawSpan c layer.start layer.tag layer.colour p with
    | error r => rfl
    | ok q => exact ih q

/-- Nothing drawn leaves the pixel. -/
theorem composited_nil (i : Nat) (before : Pixel) : Composited [] i before before := .inr ⟨by simp, rfl⟩

open Classical in
/-- One more layer. -/
theorem Composited.snoc {layers : List Layer} {i : Nat} {before mid : Pixel} (h : Composited layers i before mid)
    (layer : Layer) :
    Composited (layers ++ [layer]) i before (if layer.Covers i then mid.under layer.tag (layer.at i) else mid) := by
  by_cases hc : layer.Covers i
  · rw [if_pos hc]
    unfold Pixel.under
    rcases h with ⟨win, hmem, hcov, hlt, hmax, rfl⟩ | ⟨hle, rfl⟩
    · by_cases hgt : win.tag < layer.tag
      · rw [if_pos hgt]
        refine .inl ⟨layer, by simp, hc, BitVec.lt_trans hlt hgt, fun other ho hoc => ?_, rfl⟩
        rcases List.mem_append.1 ho with ho | ho
        · exact BitVec.le_trans (hmax other ho hoc) (BitVec.le_of_lt hgt)
        · rw [List.mem_singleton.1 ho]; exact BitVec.le_refl _
      · rw [if_neg hgt]
        refine .inl ⟨win, by simp [hmem], hcov, hlt, fun other ho hoc => ?_, rfl⟩
        rcases List.mem_append.1 ho with ho | ho
        · exact hmax other ho hoc
        · rw [List.mem_singleton.1 ho]; exact BitVec.not_lt.1 hgt
    · by_cases hgt : mid.tag < layer.tag
      · rw [if_pos hgt]
        refine .inl ⟨layer, by simp, hc, hgt, fun other ho hoc => ?_, rfl⟩
        rcases List.mem_append.1 ho with ho | ho
        · exact BitVec.le_trans (hle other ho hoc) (BitVec.le_of_lt hgt)
        · rw [List.mem_singleton.1 ho]; exact BitVec.le_refl _
      · rw [if_neg hgt]
        refine .inr ⟨fun other ho hoc => ?_, rfl⟩
        rcases List.mem_append.1 ho with ho | ho
        · exact hle other ho hoc
        · rw [List.mem_singleton.1 ho]; exact BitVec.not_lt.1 hgt
  · rw [if_neg hc]
    rcases h with ⟨win, hmem, hcov, hlt, hmax, rfl⟩ | ⟨hle, rfl⟩
    · refine .inl ⟨win, by simp [hmem], hcov, hlt, fun other ho hoc => ?_, rfl⟩
      rcases List.mem_append.1 ho with ho | ho
      · exact hmax other ho hoc
      · rw [List.mem_singleton.1 ho] at hoc; exact absurd hoc hc
    · refine .inr ⟨fun other ho hoc => ?_, rfl⟩
      rcases List.mem_append.1 ho with ho | ho
      · exact hle other ho hoc
      · rw [List.mem_singleton.1 ho] at hoc; exact absurd hoc hc

/-- What drawing layers does (R198): at each cell of the line the covering layer with the largest tag wins. -/
theorem drawLayers_spec (hL : c.linePixels ≤ c.bufPixels) (layers : List Layer) (p : Pipeline) :
    ∃ q, drawLayers c layers p = .ok q ∧ SpriteFrame p q
      ∧ (∀ i, i < c.linePixels → Composited layers i (pixelAt p i) (pixelAt q i))
      ∧ ∀ i, c.linePixels ≤ i → pixelAt q i = pixelAt p i := by
  induction layers using List.reverseRecOn with
  | nil => exact ⟨p, rfl, SpriteFrame.refl p, fun i _ => composited_nil i _, fun _ _ => rfl⟩
  | append_singleton layers layer ih =>
    obtain ⟨q, hq, hf, hin, hout⟩ := ih
    obtain ⟨r, hr, hfr, hpr⟩ := drawSpan_spec hL layer q
    refine ⟨r, ?_, hf.trans hfr, fun i hi => ?_, fun i hi => ?_⟩
    · rw [drawLayers_append, hq]
      simp [drawLayers, Except.bind, hr]
    · have := (hin i hi).snoc layer
      rw [hpr i]
      by_cases hc : layer.Covers i
      · rw [if_pos ⟨hi, hc⟩]
        rwa [if_pos hc] at this
      · rw [if_neg (fun h => hc h.2)]
        rwa [if_neg hc] at this
    · rw [hpr i, if_neg (by omega), hout i hi]

/-- A pair draws its layers (R194). -/
theorem drawPair_eq (hL : c.linePixels ≤ c.bufPixels) (pair : Fin 4) (p : Pipeline) :
    drawPair c pair p = drawLayers c (pairLayers p pair) p := by
  unfold drawPair pairLayers
  by_cases hat : attached (p.sprite (evenSprite pair)) (p.sprite (oddSprite pair)) = true
  · simp only [hat, if_true]
    simp only [drawLayers]
    cases drawSpan c _ _ _ p <;> rfl
  · simp only [hat, Bool.false_eq_true, if_false]
    cases ho : (p.sprite (oddSprite pair)).armed
    · cases he : (p.sprite (evenSprite pair)).armed
      · simp [drawIndependent, ho, he, drawLayers]
      · simp only [drawIndependent, ho, he, Bool.false_eq_true, if_false, if_true, pure_eq_ok, ok_bind, List.nil_append,
          drawLayers]
        cases drawSpan c _ _ _ p <;> rfl
    · obtain ⟨q, hq, hf, _⟩ := drawSpan_spec hL
        ⟨(p.sprite (oddSprite pair)).hstart.toNat, sprTag (oddSprite pair), independentColour pair (p.sprite (oddSprite pair))⟩ p
      have hsp := hf.sprite
      cases he : (p.sprite (evenSprite pair)).armed
      · simp only [drawIndependent, ho, he, Bool.false_eq_true, if_true, if_false, List.append_nil, drawLayers, hq,
          Except.bind, ok_bind, hsp, pure_eq_ok]
      · simp only [drawIndependent, ho, he, if_true, List.singleton_append, drawLayers, hq, Except.bind, ok_bind, hsp]
        cases drawSpan c _ _ _ q <;> rfl

/-- Pairs in any order draw the layers of that order. -/
theorem drawPairs_eq (hL : c.linePixels ≤ c.bufPixels) (order : List (Fin 4)) (p : Pipeline) :
    drawPairs c order p = drawLayers c (layersOf p order) p := by
  induction order generalizing p with
  | nil => rfl
  | cons pair rest ih =>
    obtain ⟨q, hq, hf, _⟩ := drawLayers_spec hL (pairLayers p pair) p
    have hpair : pairLayers q = pairLayers p := by
      funext x
      simp only [pairLayers, hf.sprite]
    have hlay : layersOf q rest = layersOf p rest := by simp [layersOf, hpair]
    have : layersOf p (pair :: rest) = pairLayers p pair ++ layersOf p rest := by simp [layersOf]
    rw [this, drawLayers_append, hq]
    simp only [drawPairs, drawPair_eq hL, hq, ok_bind, Except.bind]
    rw [ih q, hlay]

/-- What the compositor does (R194, R195, R198). -/
theorem drawAll_spec (hL : c.linePixels ≤ c.bufPixels) (p : Pipeline) :
    ∃ q, drawAll c p = .ok q.disarmAll ∧ SpriteFrame p q
      ∧ (∀ i, i < c.linePixels → Composited (layersOf p pairOrder) i (pixelAt p i) (pixelAt q i))
      ∧ ∀ i, c.linePixels ≤ i → pixelAt q i = pixelAt p i := by
  obtain ⟨q, hq, hf, hin, hout⟩ := drawLayers_spec hL (layersOf p pairOrder) p
  exact ⟨q, by simp [drawAll, drawPairs_eq hL, hq], hf, hin, hout⟩

end Sys2Proof.Machine
end

