-- ==== Sys2Proof/Laws/Scanline.lean ====
section
/-! SUPPORT. What a visible END does (45_scanline_orchestrator.md R226): its steps one after the other, and no step faults. -/

namespace Sys2Proof.Machine

variable {c : Config}

/-- The sprite step (R226): with the vertical display enabled and a sprite armed, the layers are drawn and every sprite is
disarmed; else nothing happens. -/
theorem spriteStep_spec (hL : c.linePixels ≤ c.bufPixels) (vf : Bool) (p : Pipeline) :
    ∃ q, spriteStep c vf p = .ok q
      ∧ ((vf = true ∧ anyArmed p = true ∧ ∃ r, q = r.disarmAll ∧ SpriteFrame p r
            ∧ (∀ i, i < c.linePixels → Composited (layersOf p pairOrder) i (pixelAt p i) (pixelAt r i))
            ∧ ∀ i, c.linePixels ≤ i → pixelAt r i = pixelAt p i)
          ∨ (¬ (vf = true ∧ anyArmed p = true) ∧ q = p)) := by
  unfold spriteStep
  by_cases h : vf = true ∧ anyArmed p = true
  · obtain ⟨r, hr, hf, hin, hout⟩ := drawAll_spec hL p
    exact ⟨r.disarmAll, by rw [if_pos h, hr], .inl ⟨h.1, h.2, r, rfl, hf, hin, hout⟩⟩
  · exact ⟨p, by rw [if_neg h], .inr ⟨h, rfl⟩⟩

/-- The last step (R226, R228). -/
theorem wrapStep_spec (c : Config) (p : Pipeline) :
    ∃ q, (if c.wrapTail then tailCopy c p else .ok p) = .ok q
      ∧ ((c.wrapTail = true ∧ TailCopied c p q) ∨ (c.wrapTail = false ∧ q = p)) := by
  cases h : c.wrapTail with
  | true =>
    obtain ⟨q, hq, ht⟩ := tailCopy_spec c p
    exact ⟨q, by simpa using hq, .inl ⟨rfl, ht⟩⟩
  | false => exact ⟨p, by simp, .inr ⟨rfl, rfl⟩⟩

/-- A visible END, step by step: `q1` is the pipeline after the replay, `q2` after the sprites, `q3` after the border and `q4`
after the tail copy. -/
structure VisibleSteps (c : Config) (vf hf : Bool) (hopen hclose : Position) (p q1 q2 q3 q4 : Pipeline) : Prop where
  replayed : q1.log = []
    ∧ ResolvesTo (fun i => resolvedPixel c (activeAt p i)) 0 c.linePixels p { q1 with log := p.log }
  composited : (vf = true ∧ anyArmed q1 = true ∧ ∃ r, q2 = r.disarmAll ∧ SpriteFrame q1 r
      ∧ (∀ i, i < c.linePixels → Composited (layersOf q1 pairOrder) i (pixelAt q1 i) (pixelAt r i))
      ∧ ∀ i, c.linePixels ≤ i → pixelAt r i = pixelAt q1 i)
    ∨ (¬ (vf = true ∧ anyArmed q1 = true) ∧ q2 = q1)
  bordered : BorderedBy (fun i => i < c.linePixels ∧ InBorder c vf hf hopen hclose i) q2 q3
  wrapped : (c.wrapTail = true ∧ TailCopied c q3 q4) ∨ (c.wrapTail = false ∧ q4 = q3)

/-- What a visible END does (R226). -/
theorem visibleEnd_spec {p : Pipeline} (hL : c.linePixels ≤ c.bufPixels) (hi : PipelineInv c p) (vf hf : Bool)
    (hopen hclose vpos : Position) :
    ∃ q1 q2 q3 q4, visibleEnd c vf hf hopen hclose vpos p =
        .ok (q4, [.collisionHook (cellsBelow q2.depth c.linePixels) (cellsBelow q2.cidx c.linePixels),
          .colorize vpos (cellsBelow q3.cidx c.linePixels)])
      ∧ VisibleSteps c vf hf hopen hclose p q1 q2 q3 q4 := by
  obtain ⟨q1, h1, s1⟩ := replay_spec hL hi
  obtain ⟨q2, h2, s2⟩ := spriteStep_spec hL vf q1
  obtain ⟨q3, h3, s3⟩ := borderFill_spec hL vf hf hopen hclose q2
  obtain ⟨q4, h4, s4⟩ := wrapStep_spec c q3
  exact ⟨q1, q2, q3, q4, by simp only [visibleEnd, h1, h2, h3, h4, ok_bind, pure_eq_ok], s1, s2, s3, s4⟩

end Sys2Proof.Machine
end

