-- ==== Sys2Proof/Tests/Slice0.lean ====
section
/-! SUPPORT. The model's own tests: ill-formed terms that the check refuses, words that decode as the spec writes them, one step
of each kind of command with the results the spec states, and a witness for every statement with hypotheses. Expected
values are those of the rule or of the vector of 95_test_vectors.md that each test names. -/

namespace Sys2Proof.Tests

open Sys2Proof Sys2Proof.Machine

/-! ### Ill-formed terms -/

/-- An odd offset (R78). -/
theorem test_odd_offset_refused : (Instr.pokeUnmapped 0x097#9 0#12 0#16).wellFormed = false := by decide
/-- A mapped offset (R71). -/
theorem test_mapped_offset_refused : (Instr.pokeUnmapped 0x180#9 0#12 0#16).wellFormed = false := by decide
theorem test_unmapped_offset_accepted : (Instr.pokeUnmapped 0x096#9 0#12 0#16).wellFormed = true := by decide

/-! ### Words, written out from 30_encoding.md and the vectors ENC-1 to ENC-32 -/

set_option maxRecDepth 4000

/-- ENC-1. -/
theorem test_decode_nop : decode 0x0000000000000000#64 = .ok (.nop) := by decide
/-- ENC-2. -/
theorem test_decode_bplcon2 : decode 0x1000A10400000024#64 = .ok (.pokeBplcon2 10#12 0x0024#16) := by decide
/-- ENC-3. -/
theorem test_decode_bpl1dat : decode 0x1000011000008000#64 = .ok (.pokeBpl1dat 0#12 0x8000#16) := by decide
/-- ENC-4. -/
theorem test_decode_draw_lores : decode 0x2000000000000008#64 = .ok (.draw false 8#12) := by decide
/-- ENC-14. -/
theorem test_decode_draw_hires : decode 0x2000000000001FFF#64 = .ok (.draw true 4095#12) := by decide
/-- ENC-13. -/
theorem test_decode_begin : decode 0x300000050000012C#64 = .ok (.beginLine 5#12 300#12) := by decide
/-- ENC-12. -/
theorem test_decode_end : decode 0x480080380000001E#64 = .ok (.endLine true false 8#12 56#12 30#12) := by decide
/-- ENC-7. -/
theorem test_decode_end_unset : decode 0x4CFFFFFF00000028#64 = .ok (.endLine true true 0xFFF#12 0xFFF#12 40#12) := by decide
/-- ENC-8. -/
theorem test_decode_inspect : decode 0x5000000000000000#64 = .ok (.inspect) := by decide
/-- ENC-9. -/
theorem test_decode_reset : decode 0xF000000000000000#64 = .ok (.reset) := by decide
/-- ENC-10. -/
theorem test_decode_spr3datb : decode 0x1000015E00001234#64 = .ok (.pokeSpr3datb 0#12 0x1234#16) := by decide
/-- ENC-11. -/
theorem test_decode_color31 : decode 0x100641BE00000FFF#64 = .ok (.pokeColor31 100#12 0x0FFF#16) := by decide
/-- ENC-15. -/
theorem test_decode_unmapped : decode 0x1000009600008100#64 = .ok (.pokeUnmapped 0x096#9 0#12 0x8100#16) := by decide
/-- ENC-16. -/
theorem test_decode_unmapped_last : decode 0x100001FE0000FFFF#64 = .ok (.pokeUnmapped 0x1FE#9 0#12 0xFFFF#16) := by decide
/-- ENC-17. -/
theorem test_decode_bplcon0 : decode 0x10FFF1000000FFFF#64 = .ok (.pokeBplcon0 4095#12 0xFFFF#16) := by decide
/-- SETSCROLL 1, 3. -/
theorem test_decode_bplcon1 : decode 0x1000010200000031#64 = .ok (.pokeBplcon1 0#12 0x0031#16) := by decide
/-- SPRITE 2, 0x21. -/
theorem test_decode_spr2pos : decode 0x1000015000000010#64 = .ok (.pokeSpr2pos 0#12 0x0010#16) := by decide
/-- SPRITE 2, 0x21. -/
theorem test_decode_spr2ctl : decode 0x1000015200000001#64 = .ok (.pokeSpr2ctl 0#12 0x0001#16) := by decide
/-- SPRITE 2, 0x21. -/
theorem test_decode_spr2data : decode 0x100001540000FFFF#64 = .ok (.pokeSpr2data 0#12 0xFFFF#16) := by decide
/-- ENC-18. -/
theorem test_illegal_reserved_command : decode 0x6000000000000000#64 = .error .reservedCommand := by decide
/-- ENC-19. -/
theorem test_illegal_reserved_command_last : decode 0xE000000000000000#64 = .error .reservedCommand := by decide
/-- ENC-20. -/
theorem test_illegal_nop_bit : decode 0x0000000000000001#64 = .error .reservedBits := by decide
/-- ENC-21. -/
theorem test_illegal_odd_register : decode 0x1000011100000000#64 = .error .oddRegister := by decide
/-- ENC-22. -/
theorem test_illegal_poke_bit56 : decode 0x1100010000000000#64 = .error .reservedBits := by decide
/-- ENC-23. -/
theorem test_illegal_poke_bit41 : decode 0x1000020000000000#64 = .error .reservedBits := by decide
/-- ENC-24. -/
theorem test_illegal_poke_bit16 : decode 0x1000010000010000#64 = .error .reservedBits := by decide
/-- ENC-25. -/
theorem test_illegal_draw_bit13 : decode 0x2000000000002000#64 = .error .reservedBits := by decide
/-- ENC-26. -/
theorem test_illegal_begin_bit44 : decode 0x3000100000000000#64 = .error .reservedBits := by decide
/-- ENC-27. -/
theorem test_illegal_end_bit12 : decode 0x4000000000001000#64 = .error .reservedBits := by decide
/-- ENC-28. -/
theorem test_illegal_end_bit57 : decode 0x4200000000000000#64 = .error .reservedBits := by decide
/-- ENC-29. -/
theorem test_illegal_inspect_bit : decode 0x5000000000000001#64 = .error .reservedBits := by decide
/-- ENC-30. -/
theorem test_illegal_reset_bit : decode 0xF000000000000001#64 = .error .reservedBits := by decide

/-! ### One step -/

/-- The state a command leaves. -/
def after (i : Instr) (s : State) : State :=
  match exec i s with
  | .next t => t
  | _ => s

/-- The state a step leaves. -/
def stepped (s : State) : State :=
  match step s with
  | .next t => t
  | _ => s

theorem step_eq (s : State) : step s = .next (stepped s) := by
  obtain ⟨t, h⟩ : ∃ t, step s = .next t := by
    rw [step]
    split
    · exact ⟨s, rfl⟩
    · split
      · rw [exec_eq]
        exact runCommand_answers _ _
      · exact runCommand_answers _ _
  rw [stepped, h]

theorem step_next {s t : State} (h : stepped s = t) : step s = .next t := h ▸ step_eq s

/-- The power-on state of the test configuration (R8). -/
def idle : State := State.powerOn Config.testConfiguration

/-- The pipeline of an open line with this log. -/
def openPipeline (log : List LogEntry) : Pipeline := { Pipeline.powerOn with phase := .inLine, log := log }

/-- An open line with this log. -/
def openLine (log : List LogEntry) : State := { idle with pipe := openPipeline log }

/-- A state whose shift register 0 holds `v`. -/
def withPlane0 (v : BitVec 32) : State := { idle with pipe := idle.pipe.setShiftReg 0 v }

/-- A state whose sprite `x` is `sp`. -/
def withSprite (x : Fin 8) (sp : Sprite) : State := { idle with pipe := idle.pipe.setSprite x sp }

/-- R120's example. -/
theorem test_bpl1dat : (after (.pokeBpl1dat 0#12 0x8000#16) (withPlane0 0xABCD1234#32)).pipe.plane 0 = 0xABCD8000#32 := by
  decide
theorem test_bpl6dat : (after (.pokeBpl6dat 9#12 0x8001#16) idle).pipe.plane 5 = 0x00008001#32 := by decide
/-- R124's example, vector DRAW-1. -/
theorem test_draw_lores_raw : (after (.draw false 8#12) (withPlane0 0x00008000#32)).pipe.raw = [(0, 1#6), (1, 1#6)] := by decide
theorem test_draw_lores_shift :
    (after (.draw false 8#12) (withPlane0 0x00008000#32)).pipe.plane 0 = 0x00800000#32
      ∧ (after (.draw false 8#12) (withPlane0 0x00008000#32)).pipe.cursor = 16 := by decide
/-- Vector DRAW-2. -/
theorem test_draw_hires : (after (.draw true 4#12) (withPlane0 0x0000A000#32)).pipe.raw = [(0, 1#6), (2, 1#6)] := by decide
/-- Vector DRAW-6. -/
theorem test_draw_out_of_bounds :
    (after (.draw false 41#12) idle).trace = [.faulted .drawOutOfBounds (.drawAt 0 41#12 false)] := by decide

/-- R140's example. -/
theorem test_bplcon0 : (after (.pokeBplcon0 20#12 0x0400#16) (openLine [])).pipe.log = [⟨.bplcon0, 0x0400#16, 20⟩]
    ∧ (after (.pokeBplcon0 20#12 0x0400#16) (openLine [])).pipe.bplcon0 = 0x0400#16 := by decide
/-- R141's example: scroll 1 for the odd planes and 3 for the even ones. -/
theorem test_bplcon1 : scroll (after (.pokeBplcon1 0#12 0x0031#16) idle).pipe.bplcon1 0 = 1
    ∧ scroll (after (.pokeBplcon1 0#12 0x0031#16) idle).pipe.bplcon1 1 = 3 := by decide
/-- Vector LOG-3. -/
theorem test_bplcon1_position : (after (.pokeBplcon1 65#12 0x0022#16) (openLine [⟨.bplcon1, 0x0011#16, 64⟩])).trace
    = [.faulted .logPosition (.logAt .bplcon1 65)] := by decide
/-- R142's example. -/
theorem test_bplcon2 : (after (.pokeBplcon2 10#12 0x0024#16) (openLine [])).pipe.log = [⟨.bplcon2, 0x0024#16, 10⟩] := by
  decide
/-- R265's example: the priority check comes before the log's. -/
theorem test_bplcon2_reserved :
    (after (.pokeBplcon2 3#12 0x0005#16) (openLine [⟨.bplcon0, 0#16, 10⟩, ⟨.bplcon0, 0#16, 10⟩, ⟨.bplcon0, 0#16, 10⟩,
      ⟨.bplcon0, 0#16, 10⟩])).trace = [.faulted .priorityReserved (.value 0x0005#16)] := by decide

/-- R165's example. -/
theorem test_dual_pixel : dualPixel Config.testConfiguration 0x0040#16 0x27#6 = ⟨13#6, 0x8001#16⟩
    ∧ dualPixel Config.testConfiguration 0x0000#16 0x27#6 = ⟨3#6, 0x8001#16⟩ := by decide
/-- R164's example. -/
theorem test_single_pixel : singlePixel Config.testConfiguration 0x0010#16 5#6 = ⟨5#6, 0x0200#16⟩ := by decide

/-- R180's example. -/
theorem test_spr0pos :
    ((after (.pokeSpr0pos 0#12 0x2A40#16) (withSprite 0 ⟨1#11, 0#16, 0#16, false, false⟩)).pipe.sprite 0).hstart = 0x081#11 := by
  decide
/-- R181's example. -/
theorem test_spr1ctl : (after (.pokeSpr1ctl 0#12 0x0081#16) idle).pipe.sprite 1 = ⟨1#11, 0#16, 0#16, false, true⟩ := by decide
/-- R182's example. -/
theorem test_spr2data : (after (.pokeSpr2data 0#12 0xF000#16) idle).pipe.sprite 2 = ⟨0#11, 0xF000#16, 0#16, true, false⟩ := by
  decide
/-- R183's example. -/
theorem test_spr2datb : (after (.pokeSpr2datb 0#12 0x0F00#16) idle).pipe.sprite 2 = ⟨0#11, 0#16, 0x0F00#16, false, false⟩ := by
  decide
theorem test_spr7ctl : (after (.pokeSpr7ctl 5#12 0x0080#16) idle).pipe.sprite 7 = ⟨0#11, 0#16, 0#16, false, true⟩ := by decide

/-- R240's example. -/
theorem test_color17 : (after (.pokeColor17 30#12 0x0F00#16) idle).trace = [.colorPoke 17 0x0F00#16 30#12] := by decide
theorem test_color00 : (after (.pokeColor00 4095#12 0#16) idle).trace = [.colorPoke 0 0#16 4095#12] := by decide
theorem test_color31 : (after (.pokeColor31 0#12 0x0FFF#16) idle).trace = [.colorPoke 31 0x0FFF#16 0#12] := by decide
/-- R246's example. -/
theorem test_unmapped : after (.pokeUnmapped 0x096#9 0#12 0x8100#16) idle = idle := by decide
/-- R248's example. -/
theorem test_nop : after .nop idle = idle := by decide

/-- R220's example. -/
theorem test_begin : (after (.beginLine 0#12 40#12) idle).pipe = { Pipeline.powerOn with phase := .inLine, lineVpos := 40#12 } := by
  decide
/-- R223: the snapshot takes the live values. -/
theorem test_begin_snapshot :
    (after (.beginLine 7#12 40#12) { idle with pipe := { idle.pipe with bplcon0 := 0x0400#16 } }).pipe.snap0 = 0x0400#16 := by
  decide
/-- Vector ORC-2. -/
theorem test_begin_in_line :
    (after (.beginLine 0#12 41#12) (openLine [])).trace = [.faulted .sequence (.sequence .beginLine .inLine)] := by decide
/-- R236: the picture of the end-to-end scenario. -/
theorem test_end_picture : (after (.endLine true true 0xFFF#12 0xFFF#12 40#12)
      { idle with pipe := { openPipeline [] with raw := [(0, 1#6), (1, 1#6)], cursor := 16 } }).trace
    = [.collisionHook (List.replicate 2 0x8000#16 ++ List.replicate 62 0#16) (List.replicate 2 1#6 ++ List.replicate 62 0#6),
      .colorize 40#12 (List.replicate 2 1#6 ++ List.replicate 62 0#6)] := by decide
/-- R204, step 1: the cells of sprite 0, and R228: the tail moves to the start. -/
theorem test_end_sprite_and_tail :
    (fun s => (s.pipe.cidx, s.pipe.raw)) (after (.endLine true true 0xFFF#12 0xFFF#12 40#12)
      { idle with pipe := ({ openPipeline [] with raw := [(65, 9#6)] }).setSprite 0 ⟨2#11, 0xC000#16, 0x4000#16, true, false⟩ })
    = ([(4, 17#6), (5, 17#6), (6, 19#6), (7, 19#6)], [(1, 9#6)]) := by decide
/-- R242's example. -/
theorem test_inspect_after_reset : (after .inspect (after .reset idle)).trace = [.inspect {
    bplcon0 := 0#16, bplcon1 := 0#16, bplcon2 := 0#16, snap0 := 0#16, snap1 := 0#16, snap2 := 0#16
    scroll1 := 0#4, scroll2 := 0#4, dual := false
    prio1 := 0x8000#16, prio2 := 0x8000#16, prio12 := 0x8000#16, pf2pri := false
    shiftReg := Vector.replicate 6 0#32, spr := Vector.replicate 8 ⟨0#11, 0#16, 0#16, false, false⟩
    cursor := 0, phase := .idle, lineVpos := 0#12, logLength := 0, log := [], fault := none }] := by decide
/-- R244: RESET abandons an open line and clears the buffers. -/
theorem test_reset : (after .reset { openLine [⟨.bplcon0, 1#16, 3⟩] with trace := [] }).pipe = Pipeline.powerOn := by decide
/-- R264: a faulted pipeline discards RESET. -/
theorem test_reset_faulted : (after .reset (openLine []|>.faultedWith .logOrder (.index 0))).pipe.phase = .inLine := by decide

/-- The word a table row gives runs as the next step (R82). -/
theorem test_fetch_word :
    stepped (State.reset.withFetchWord 64 0x300000000000001E) = after (.beginLine 0#12 30#12) State.reset := by decide
theorem test_table_word : decodeTableWord 64 0x1000010000000000 = some (.pokeBplcon0 0#12 0#16) := by decide

/-! ### Pseudo-instructions and text (95_test_vectors.md 2.1, R103) -/

theorem test_setScroll : (setScroll 1#4 3#4 0#12).map encode = [0x1000010200000031#64] := by decide
theorem test_setPrio : (setPrio 1#3 2#3 1#1 0#12).map encode = [0x1000010400000051#64] := by decide
theorem test_spriteSetup : (spriteSetup 2 0x21#9 0xFFFF#16 0#16 0#1).map encode
    = [0x1000015000000010#64, 0x1000015200000001#64, 0x1000015600000000#64, 0x100001540000FFFF#64] := by decide
theorem test_blankLine : (blankLine 30#12).map encode = [0x300000000000001E#64, 0x40FFFFFF0000001E#64] := by decide
theorem test_text_poke : commandText (.pokeBplcon2 10#12 0x0024#16) = "POKE BPLCON2, 36 @ 10" := by decide
theorem test_text_end :
    commandText (.endLine true false 8#12 0xFFF#12 30#12) = "END 30, VF=1, HF=0, HOPEN=8, HCLOSE=UNSET" := by decide

/-! ### Witnesses -/

theorem powerOn_hstart : ∀ x : Fin 8, (Pipeline.powerOn.sprite x).hstart.toNat ≤ 511 := by decide

/-- An open line of the power-on pipeline meets the invariant, for every legal log. -/
theorem openPipeline_inv {c : Config} {log : List LogEntry} (h1 : log.Pairwise (fun a b => a.pos ≤ b.pos))
    (h2 : ∀ e ∈ log, e.pos ≤ c.linePixels) (h3 : log.length ≤ c.logCap) (h4 : ∀ e ∈ log, e.reg ≠ .noReg) :
    PipelineInv c (openPipeline log) where
  logOrdered := h1
  logInLine := h2
  logFits := h3
  logTargets := h4
  hstartFits := powerOn_hstart
  idleLogEmpty := fun h => by cases h
  cidxTail := fun _ _ => rfl
  depthTail := fun _ _ => rfl
  rawEnds := fun _ _ => rfl
  cursorInRange := Nat.zero_le _
  canonical := rfl

theorem valid : Config.testConfiguration.Valid := by decide

theorem idle_inv : Inv idle where
  config := valid
  pipe :=
    { logOrdered := List.Pairwise.nil, logInLine := by decide, logFits := by decide, logTargets := by decide
      hstartFits := powerOn_hstart, idleLogEmpty := fun _ => rfl, cidxTail := fun _ _ => rfl, depthTail := fun _ _ => rfl
      rawEnds := fun _ _ => rfl, cursorInRange := Nat.zero_le _, canonical := rfl }
  priority := { live := fun _ => by decide, snapshot := fun _ => by decide, log := fun _ => by decide }

theorem openLine_inv (log : List LogEntry) (h : PipelineInv Config.testConfiguration (openPipeline log))
    (hp : ∀ e ∈ log, e.reg = .bplcon2 → reservedPriority e.value = false) : Inv (openLine log) where
  config := valid
  pipe := h
  priority := { live := fun _ => idle_inv.priority.live rfl, snapshot := fun _ => idle_inv.priority.snapshot rfl, log := fun _ => hp }

theorem exec_answers (i : Instr) (s : State) : ∃ t, exec i s = .next t := by
  rw [exec_eq]
  exact runCommand_answers _ s

/-- Every witness below that names `after i s` speaks of the state `exec i s` answers. -/
theorem exec_after (i : Instr) (s : State) : exec i s = .next (after i s) := by
  obtain ⟨t, h⟩ := exec_answers i s
  rw [after, h]

/-- `DecodeOfEncode`. -/
theorem witness_wellFormed : (Instr.pokeUnmapped 0x1FE#9 0xFFF#12 0xFFFF#16).WellFormed := by decide
/-- `EncodeOfDecode`. -/
theorem witness_decodes : decode 0x10FFF1FE0000FFFF#64 = .ok (.pokeUnmapped 0x1FE#9 0xFFF#12 0xFFFF#16) := by decide
/-- `DecodingIsTotal`: a word for each clause. -/
theorem witness_decoding_accepts :
    ((0x0#64).extractLsb' 60 4 = 0x0#4 ∧ (0x0#64).extractLsb' 0 60 = 0#60)
    ∧ ((0x10FFF1FE0000FFFF#64).extractLsb' 60 4 = 0x1#4 ∧ (0x10FFF1FE0000FFFF#64).extractLsb' 56 4 = 0#4
        ∧ (0x10FFF1FE0000FFFF#64).extractLsb' 41 3 = 0#3 ∧ (0x10FFF1FE0000FFFF#64).extractLsb' 16 16 = 0#16
        ∧ (0x10FFF1FE0000FFFF#64).getLsbD 32 = false)
    ∧ ((0x2000000000001FFF#64).extractLsb' 60 4 = 0x2#4 ∧ (0x2000000000001FFF#64).extractLsb' 13 47 = 0#47)
    ∧ ((0x30000FFF00000FFF#64).extractLsb' 60 4 = 0x3#4 ∧ (0x30000FFF00000FFF#64).extractLsb' 44 16 = 0#16
        ∧ (0x30000FFF00000FFF#64).extractLsb' 12 20 = 0#20)
    ∧ ((0x4CFFFFFF00000FFF#64).extractLsb' 60 4 = 0x4#4 ∧ (0x4CFFFFFF00000FFF#64).extractLsb' 56 2 = 0#2
        ∧ (0x4CFFFFFF00000FFF#64).extractLsb' 12 20 = 0#20)
    ∧ ((0x5000000000000000#64).extractLsb' 60 4 = 0x5#4 ∧ (0x5000000000000000#64).extractLsb' 0 60 = 0#60)
    ∧ ((0xF000000000000000#64).extractLsb' 60 4 = 0xF#4 ∧ (0xF000000000000000#64).extractLsb' 0 60 = 0#60) := by decide
theorem witness_decoding_rejects :
    (6 ≤ ((0x6000000000000000#64).extractLsb' 60 4).toNat ∧ ((0xE000000000000000#64).extractLsb' 60 4).toNat ≤ 14)
    ∧ (0x0800000000000000#64).extractLsb' 0 60 ≠ 0#60
    ∧ ((0x1100000000000000#64).extractLsb' 56 4 ≠ 0#4 ∧ (0x1000080000000000#64).extractLsb' 41 3 ≠ 0#3
        ∧ (0x1000000080000000#64).extractLsb' 16 16 ≠ 0#16 ∧ (0x1000000100000000#64).getLsbD 32 = true)
    ∧ (0x2800000000000000#64).extractLsb' 13 47 ≠ 0#47
    ∧ ((0x3800000000000000#64).extractLsb' 44 16 ≠ 0#16 ∧ (0x3000000000001000#64).extractLsb' 12 20 ≠ 0#20)
    ∧ ((0x4100000000000000#64).extractLsb' 56 2 ≠ 0#2 ∧ (0x4000000080000000#64).extractLsb' 12 20 ≠ 0#20) := by decide
theorem witness_illegal_word : Running idle ∧ ({ idle with pending := [0x6000000000000000#64] } : State).pending
    = 0x6000000000000000#64 :: [] := ⟨rfl, rfl⟩
/-- `RegisterMap`: unmapped offsets at the ends of the map's gaps. -/
theorem witness_unmapped : ∀ reg ∈ [0x000#9, 0x0FE#9, 0x106#9, 0x10E#9, 0x11C#9, 0x13E#9, 0x1C0#9, 0x1FE#9],
    EvenOffset reg ∧ ¬ MappedOffset reg := by decide
/-- `StepRunsDecodedCommand`: a word that decodes, a word that does not, and none. -/
theorem witness_step : (∃ i, decode 0x5000000000000000#64 = .ok i) ∧ (∃ e, decode 0x5000000000000001#64 = .error e)
    ∧ Running idle ∧ idle.pending = [] := ⟨⟨.inspect, by decide⟩, ⟨.reservedBits, by decide⟩, rfl, rfl⟩
/-- `FaultedStateIsTerminal`, `ResetCommand`: a faulted state, and a state that meets the trace invariant and takes a step. -/
theorem witness_faulted : (idle.faultedWith .sequence (.sequence .endLine .idle)).pipe.fault ≠ none := by decide
theorem witness_traceInv : TraceInv idle ∧ step idle = .next idle :=
  ⟨TraceInv.mk (fun _ _ he => by cases he) (fun _ h => by cases h) (fun _ h => by cases h), rfl⟩
/-- `FaultsAreTransactional`: END outside a line, as a command and as a step. -/
theorem witness_fault : Running idle
    ∧ (after (.endLine true true 0xFFF#12 0xFFF#12 40#12) idle).pipe.fault = some .sequence
    ∧ step { idle with pending := [0x4CFFFFFF00000028#64] }
      = .next (after (.endLine true true 0xFFF#12 0xFFF#12 40#12) idle) :=
  ⟨rfl, by decide, step_next (by decide)⟩
/-- `StepFrame`, `StepKeepsTheInvariant`, `UnreachableFaultCodes`: a running state that meets the invariant takes a step. -/
theorem witness_invariant_step : Inv idle ∧ Running idle
    ∧ step { idle with pending := [0x3000000000000028#64] } = .next (after (.beginLine 0#12 40#12) idle) :=
  ⟨idle_inv, rfl, step_next (by decide)⟩
/-- `DutiesKeepThePipelineRunning`: duties kept and broken. -/
theorem witness_duties : Inv idle ∧ Running idle ∧ KeepsDuties idle.config idle.pipe (.draw false 40#12)
    ∧ ¬ KeepsDuties idle.config idle.pipe (.draw false 41#12) := by
  refine ⟨idle_inv, rfl, ?_, ?_⟩
  · show idle.pipe.cursor + drawCells false 40#12 ≤ idle.config.bufPixels
    decide
  · show ¬ idle.pipe.cursor + drawCells false 41#12 ≤ idle.config.bufPixels
    decide
/-- `ReachableStates`: a run of one BEGIN. -/
theorem witness_reached : ReachedFrom { State.powerOn Config.testConfiguration with pending := [0x3000000000000028#64] }
    (after (.beginLine 0#12 40#12) idle) ∧ Running (after (.beginLine 0#12 40#12) idle) :=
  ⟨.step .start (step_next (by decide)), rfl⟩
/-- The register, sprite, colour and interface commands suppose `Running` alone; it holds in both phases. -/
theorem witness_running : Running idle ∧ Running (openLine []) := ⟨rfl, rfl⟩
/-- `DrawPixels`: the last draw that fits and the first that does not, in both resolutions (DRAW-6, DRAW-7b, DRAW-7c). -/
theorem witness_draw_bounds :
    (idle.pipe.cursor + 2 * (40#12).toNat ≤ idle.config.bufPixels ∧ idle.config.bufPixels < idle.pipe.cursor + 2 * (41#12).toNat)
    ∧ (idle.pipe.cursor + (80#12).toNat ≤ idle.config.bufPixels ∧ idle.config.bufPixels < idle.pipe.cursor + (81#12).toNat) := by
  decide
/-- `DrawIgnoresOtherRegisters`: a draw of 16 pixels. -/
theorem witness_draw : Running (withPlane0 0x8000#32)
    ∧ exec (.draw true 16#12) (withPlane0 0x8000#32) = .next (after (.draw true 16#12) (withPlane0 0x8000#32)) :=
  ⟨rfl, exec_after _ _⟩
/-- `ControlPokes`, `PriorityPoke`: each clause, at the boundary. -/
theorem witness_poke_idle : idle.pipe.phase = .idle := rfl
theorem witness_poke_recorded : (openLine []).pipe.phase = .inLine ∧ (64#12).toNat ≤ (openLine []).config.linePixels
    ∧ (∀ last, (openLine []).pipe.log.getLast? = some last → last.pos ≤ (64#12).toNat)
    ∧ (openLine []).pipe.log.length ≠ (openLine []).config.logCap :=
  ⟨rfl, by decide, fun _ h => (by cases h), by decide⟩
theorem witness_poke_position : (openLine []).config.linePixels < (65#12).toNat := by decide
theorem witness_poke_order : (openLine [⟨.bplcon0, 0#16, 20⟩]).pipe.log.getLast? = some ⟨.bplcon0, 0#16, 20⟩
    ∧ (19#12).toNat ≤ (openLine [⟨.bplcon0, 0#16, 20⟩]).config.linePixels ∧ (19#12).toNat < 20 := by decide
theorem witness_poke_overflow :
    (openLine (List.replicate 4 ⟨.bplcon0, 0#16, 20⟩)).pipe.log.length
        = (openLine (List.replicate 4 ⟨.bplcon0, 0#16, 20⟩)).config.logCap
    ∧ (openLine (List.replicate 4 ⟨.bplcon0, 0#16, 20⟩)).pipe.log.getLast? = some ⟨.bplcon0, 0#16, 20⟩
    ∧ (20#12).toNat ≤ (openLine []).config.linePixels := by decide
theorem witness_priority_codes :
    (idle.config.prioReservedPolicy = .fault ∧ 5 ≤ ((0x0005#16).extractLsb' 0 3).toNat ∧ 5 ≤ ((0x0038#16).extractLsb' 3 3).toNat)
    ∧ ((0x0024#16).extractLsb' 0 3).toNat < 5 ∧ ((0x0024#16).extractLsb' 3 3).toNat < 5 := by decide
theorem witness_clamp :
    (State.powerOn { Config.testConfiguration with prioReservedPolicy := .clamp4 }).config.prioReservedPolicy = .clamp4 := rfl
/-- `PriorityFunction`, `PriorityOrder`: reserved and legal codes. -/
theorem witness_codes : 5 ≤ (7#3).toNat ∧ 5 ≤ (5#3).toNat ∧ (4#3).toNat ≤ 4 ∧ (0#3).toNat ≤ 4 := by decide
/-- `DualPlayfieldTable`, `ColourRanges`, `SinglePlayfieldPixel`: a raw value for each row, and both front flags and modes. -/
theorem witness_playfields :
    (playfield1 0#6 = 0#3 ∧ playfield2 0#6 = 0#3) ∧ (playfield1 1#6 ≠ 0#3 ∧ playfield2 1#6 = 0#3)
    ∧ (playfield1 2#6 = 0#3 ∧ playfield2 2#6 ≠ 0#3) ∧ (playfield1 0x27#6 = 3#3 ∧ playfield2 0x27#6 = 5#3)
    ∧ (0x0400#16).getLsbD 10 = true ∧ (0#16).getLsbD 10 = false
    ∧ (0x0040#16).getLsbD 6 = true ∧ (0#16).getLsbD 6 = false := by decide
/-- `SpriteLayers`: the two sprites of the last pair, attached and not. -/
theorem witness_layers : (7 : Fin 8).val = 2 * (3 : Fin 4).val + 1 ∧ (6 : Fin 8).val = 2 * (3 : Fin 4).val
    ∧ ((idle.pipe.setSprite 7 ⟨0#11, 1#16, 0#16, true, true⟩).sprite 7).attach = true
    ∧ ((idle.pipe.setSprite 7 ⟨0#11, 1#16, 0#16, true, true⟩).sprite 6).hstart
      = ((idle.pipe.setSprite 7 ⟨0#11, 1#16, 0#16, true, true⟩).sprite 7).hstart
    ∧ ((idle.pipe.setSprite 7 ⟨0#11, 1#16, 0#16, true, true⟩).sprite 7).armed = true
    ∧ (idle.pipe.sprite 7).attach = false := by decide
/-- `DrawingOrderDoesNotMatter`. -/
theorem witness_order : Config.testConfiguration.linePixels ≤ Config.testConfiguration.bufPixels
    ∧ Memory.wf idle.pipe = true ∧ List.Perm [(0 : Fin 4), 2, 1, 3] [0, 1, 2, 3] := by
  refine ⟨by decide, rfl, ?_⟩
  decide
/-- `NonVisibleEnd` and the statements of a visible END, at the two sides of the threshold. -/
theorem witness_visible : Running (openLine []) ∧ (openLine []).config.Valid
    ∧ PipelineInv (openLine []).config (openLine []).pipe ∧ (openLine []).pipe.phase = .inLine
    ∧ (openLine []).config.firstVisibleLine ≤ (26#12).toNat ∧ (25#12).toNat < (openLine []).config.firstVisibleLine
    ∧ ∃ t, exec (.endLine true true 0xFFF#12 0xFFF#12 26#12) (openLine []) = .next t :=
  ⟨rfl, valid, openPipeline_inv List.Pairwise.nil (by decide) (by decide) (by decide), rfl, by decide, by decide,
    exec_answers _ _⟩
/-- `VisibleEndPicture`: a cell in each kind of border, and one in none. -/
theorem witness_border :
    InBorder Config.testConfiguration false true 0xFFF#12 0xFFF#12 63
    ∧ InBorder Config.testConfiguration true false 0xFFF#12 0xFFF#12 0
    ∧ InBorder Config.testConfiguration true false 8#12 56#12 7 ∧ InBorder Config.testConfiguration true false 8#12 56#12 56
    ∧ ¬ InBorder Config.testConfiguration true false 8#12 56#12 8
    ∧ ¬ InBorder Config.testConfiguration true false 8#12 56#12 55 := by
  simp only [InBorder, unset]
  decide
/-- `VisibleEndTail`: cells of each clause, at the boundary. -/
theorem witness_tail : Config.testConfiguration.wrapTail = true ∧ 0 < Config.testConfiguration.linePixels
    ∧ 15 + Config.testConfiguration.linePixels < Config.testConfiguration.bufPixels
    ∧ Config.testConfiguration.bufPixels ≤ 16 + Config.testConfiguration.linePixels
    ∧ ({ Config.testConfiguration with wrapTail := false } : Config).wrapTail = false := by decide
/-- A buffer of more than two lines and a line of no cells: clause one past the line's end, and `L = 0`. -/
theorem witness_tail_long :
    64 + 64 < ({ Config.testConfiguration with bufPixels := 129 } : Config).bufPixels
    ∧ ({ Config.testConfiguration with bufPixels := 129 } : Config).Valid
    ∧ ({ Config.testConfiguration with linePixels := 0 } : Config).linePixels = 0
    ∧ ({ Config.testConfiguration with linePixels := 0 } : Config).Valid := by decide
theorem witness_tail_empty_line :
    Running { openLine [] with config := { Config.testConfiguration with linePixels := 0 } }
    ∧ PipelineInv { Config.testConfiguration with linePixels := 0 } (openPipeline [])
    ∧ (openPipeline []).phase = .inLine ∧ Config.testConfiguration.firstVisibleLine ≤ (26#12).toNat
    ∧ ∃ t, exec (.endLine true true 0xFFF#12 0xFFF#12 26#12)
        { openLine [] with config := { Config.testConfiguration with linePixels := 0 } } = .next t :=
  ⟨rfl, openPipeline_inv List.Pairwise.nil (by decide) (by decide) (by decide), rfl, by decide, exec_answers _ _⟩
/-- `OnlyTheCompositorDisarms`: RESET disarms an armed sprite. -/
theorem witness_disarmed : ((withSprite 3 ⟨0#11, 0#16, 0#16, true, false⟩).pipe.sprite 3).armed = true
    ∧ ((after .reset (withSprite 3 ⟨0#11, 0#16, 0#16, true, false⟩)).pipe.sprite 3).armed = false := by decide
/-- `ChangesActFromTheirPosition`: one more change at the line's end. -/
theorem witness_one_more_change : Running (openLine []) ∧ (openLine []).config.Valid
    ∧ PipelineInv (openLine []).config (openLine []).pipe
    ∧ PipelineInv (openLine []).config { (openLine []).pipe with log := (openLine []).pipe.log ++ [⟨.bplcon0, 0x0400#16, 64⟩] }
    ∧ (openLine []).pipe.phase = .inLine ∧ (openLine []).config.firstVisibleLine ≤ (26#12).toNat :=
  ⟨rfl, valid, openPipeline_inv List.Pairwise.nil (by decide) (by decide) (by decide),
    openPipeline_inv (by decide) (by decide) (by decide) (by decide), rfl, by decide⟩
/-- A log with two changes of BPLCON2 at position 10, one of BPLCON0 between them and one of BPLCON1 after. -/
def twoChanges : List LogEntry :=
  [⟨.bplcon2, 1#16, 10⟩, ⟨.bplcon0, 0x0400#16, 10⟩, ⟨.bplcon2, 2#16, 10⟩, ⟨.bplcon1, 3#16, 64⟩]
/-- `LastChangeAtAPositionWins`. -/
theorem witness_two_changes : Running (openLine twoChanges) ∧ (openLine twoChanges).config.Valid
    ∧ (openLine twoChanges).pipe.phase = .inLine ∧ PipelineInv (openLine []).config (openPipeline twoChanges)
    ∧ (openLine twoChanges).config.firstVisibleLine ≤ (26#12).toNat
    ∧ (openPipeline twoChanges).log = [] ++ [⟨.bplcon2, 1#16, 10⟩] ++ [⟨.bplcon0, 0x0400#16, 10⟩] ++ [⟨.bplcon2, 2#16, 10⟩]
      ++ [⟨.bplcon1, 3#16, 64⟩] :=
  ⟨rfl, valid, rfl, openPipeline_inv (by decide) (by decide) (by decide) (by decide), by decide, rfl⟩
/-- `RegisterWriters`: an `armed` flag set and cleared. -/
theorem witness_armed : (idle.pipe.sprite 7).armed = false
    ∧ ((after (.pokeSpr7data 0#12 0#16) idle).pipe.sprite 7).armed = true
    ∧ ((after (.endLine true true 0xFFF#12 0xFFF#12 26#12)
      { openLine [] with pipe := (openPipeline []).setSprite 7 ⟨0#11, 0#16, 0#16, true, false⟩ }).pipe.sprite 7).armed = false := by
  decide
/-- `RegisterWriters`, `PixelWriters`: commands that change a register, a sprite, the log and a buffer. -/
theorem witness_writers :
    (after (.pokeBplcon0 1#12 1#16) (openLine [])).pipe.bplcon0 ≠ (openLine []).pipe.bplcon0
    ∧ (after (.pokeBplcon1 1#12 1#16) (openLine [])).pipe.bplcon1 ≠ (openLine []).pipe.bplcon1
    ∧ (after (.pokeBplcon2 1#12 1#16) (openLine [])).pipe.bplcon2 ≠ (openLine []).pipe.bplcon2
    ∧ (after (.pokeBplcon0 1#12 1#16) (openLine [])).pipe.log ≠ (openLine []).pipe.log
    ∧ (after (.beginLine 1#12 1#12) idle).pipe.lineVpos ≠ idle.pipe.lineVpos
    ∧ (after (.beginLine 1#12 1#12) idle).pipe.phase ≠ idle.pipe.phase
    ∧ (after (.beginLine 1#12 1#12) idle).pipe.cursor ≠ idle.pipe.cursor
    ∧ ((after (.pokeSpr7pos 0#12 1#16) idle).pipe.sprite 7).hstart ≠ (idle.pipe.sprite 7).hstart
    ∧ ((after (.pokeSpr7ctl 0#12 0x80#16) idle).pipe.sprite 7).attach ≠ (idle.pipe.sprite 7).attach
    ∧ ((after (.pokeSpr7data 0#12 1#16) idle).pipe.sprite 7).dataA ≠ (idle.pipe.sprite 7).dataA
    ∧ ((after (.pokeSpr7datb 0#12 1#16) idle).pipe.sprite 7).dataB ≠ (idle.pipe.sprite 7).dataB
    ∧ (after (.pokeBpl6dat 0#12 1#16) idle).pipe.plane 5 ≠ idle.pipe.plane 5
    ∧ (after (.draw true 1#12) (withPlane0 0x8000#32)).pipe.raw ≠ (withPlane0 0x8000#32).pipe.raw := by decide
theorem witness_buffer_writer :
    (after (.endLine true true 0xFFF#12 0xFFF#12 40#12) { idle with pipe := { openPipeline [] with raw := [(63, 1#6)] } }).pipe.cidx
      = [(63, 1#6)] := by decide
/-- `EventSources`: commands that emit each kind of event (the picture and the hook: `test_end_picture`). -/
theorem witness_events :
    (after (.endLine true true 0xFFF#12 0xFFF#12 25#12) (openLine [])).trace = (openLine []).trace ++ [.debugOverlay 25#12]
    ∧ (after (.pokeColor31 0#12 1#16) idle).trace = idle.trace ++ [.colorPoke 31 1#16 0#12]
    ∧ (after (.endLine true true 0xFFF#12 0xFFF#12 40#12) idle).trace
      = idle.trace ++ [.faulted .sequence (.sequence .endLine .idle)] := by decide
/-- `PseudoInstructions`: legal codes at the boundary, and the last non-visible line. -/
theorem witness_pseudo : Running idle ∧ idle.pipe.phase = .idle ∧ (4#3).toNat < 5 ∧ (0#3).toNat < 5
    ∧ (25#12).toNat < idle.config.firstVisibleLine := by decide

end Sys2Proof.Tests
end

section
/-! SUPPORT. What a command, run by `exec` or by a step, can make of the pipeline, said once for all the commands
(10_state.md R30); the invariants and the writers of the fields follow from it. -/

namespace Sys2Proof.Machine

variable {c : Config} {p q : Pipeline} {s t : State} {i : Instr}

/-- What recording a change of `reg` leaves of the log when it raises nothing (R143). -/
inductive Recorded (c : Config) (p : Pipeline) (reg : LogReg) (val : Word16) (pos : Nat) : List LogEntry → Prop
  | idle (h : p.phase = .idle) : Recorded c p reg val pos p.log
  | appended (h : p.phase = .inLine) (ha : RecordAccepted c p pos) :
      Recorded c p reg val pos (p.log ++ [⟨reg, val, pos⟩])

theorem recordChange_recorded {reg : LogReg} {val : Word16} {pos : Nat} (h : recordChange c reg val pos p = .ok q) :
    ∃ log, Recorded c p reg val pos log ∧ q = { p with log := log } := by
  rcases recordChange_cases c reg val pos p with ⟨hp, e⟩ | ⟨hp, ha, e⟩ | ⟨_, _, r, e, _⟩
  · rw [e] at h
    cases h
    exact ⟨_, .idle hp, rfl⟩
  · rw [e] at h
    cases h
    exact ⟨_, .appended hp ha, rfl⟩
  · rw [e] at h
    cases h

/-- `Effect c p q i`: the command `i` can leave `q` of the pipeline `p`. The first two constructors are open to every command,
the first one for those that are discarded or write no field, the second for those that fault; each of the others is one kind
of command, completed, and names the fields it writes. -/
inductive Effect (c : Config) (p : Pipeline) : Pipeline → Instr → Prop
  | kept (i : Instr) : Effect c p p i
  | faulted (i : Instr) (code : FaultCode) : Effect c p { p with fault := some code } i
  | bplcon0 (pix : Position) (val : Word16) {log : List LogEntry} (h : Recorded c p .bplcon0 val pix.toNat log) :
      Effect c p { p with log := log, bplcon0 := val } (.pokeBplcon0 pix val)
  | bplcon1 (pix : Position) (val : Word16) {log : List LogEntry} (h : Recorded c p .bplcon1 val pix.toNat log) :
      Effect c p { p with log := log, bplcon1 := val } (.pokeBplcon1 pix val)
  | bplcon2 (pix : Position) (val : Word16) {log : List LogEntry} (h : Recorded c p .bplcon2 val pix.toNat log)
      (hv : PriorityAccepted c val) :
      Effect c p { p with log := log, bplcon2 := val } (.pokeBplcon2 pix val)
  | bplDat (k : Fin 6) (pix : Position) (val : Word16) :
      Effect c p (p.setShiftReg k ((p.plane k).extractLsb' 16 16 ++ val)) (pokeBplDat k pix val)
  | sprPos (x : Fin 8) (pix : Position) (val : Word16) :
      Effect c p (p.setSprite x { p.sprite x with
        hstart := 0#2 ++ val.extractLsb' 0 8 ++ (p.sprite x).hstart.extractLsb' 0 1 }) (pokeSprPos x pix val)
  | sprCtl (x : Fin 8) (pix : Position) (val : Word16) :
      Effect c p (p.setSprite x { p.sprite x with
        hstart := (p.sprite x).hstart.extractLsb' 1 10 ++ val.extractLsb' 0 1
        attach := val.getLsbD 7 }) (pokeSprCtl x pix val)
  | sprData (x : Fin 8) (pix : Position) (val : Word16) :
      Effect c p (p.setSprite x { p.sprite x with dataA := val, armed := true }) (pokeSprData x pix val)
  | sprDatb (x : Fin 8) (pix : Position) (val : Word16) :
      Effect c p (p.setSprite x { p.sprite x with dataB := val }) (pokeSprDatb x pix val)
  | draw (hires : Bool) (n : Position) {raw : Buffer 6} {cursor : Nat} (hfit : p.cursor + drawCells hires n ≤ c.bufPixels)
      (hdrawn : DrawnFrom (pixelValue p) hires n.toNat p { p with raw := raw, cursor := cursor }) :
      Effect c p (shiftPlanes n.toNat { p with raw := raw, cursor := cursor }) (.draw hires n)
  | beginLine (first vpos : Position) :
      Effect c p { p with
        cursor := first.toNat, snap0 := p.bplcon0, snap1 := p.bplcon1, snap2 := p.bplcon2, log := [], lineVpos := vpos
        phase := .inLine } (.beginLine first vpos)
  | endLine (vf hf : Bool) (hopen hclose vpos : Position) {raw cidx : Buffer 6} {depth : Buffer 16} {spr : Vector Sprite 8}
      {events : List Event}
      (h : finishLine vf hf hopen hclose vpos c p = .ok ({ p with
        raw := raw, cidx := cidx, depth := depth, spr := spr, log := [], phase := .idle }, events)) :
      Effect c p { p with raw := raw, cidx := cidx, depth := depth, spr := spr, log := [], phase := .idle }
        (.endLine vf hf hopen hclose vpos)
  | reset : Effect c p { Pipeline.powerOn with fault := p.fault } .reset

theorem pokePrimary_effect {pix : Position} {val : Word16} {events : List Event}
    (h : pokePrimary pix val c p = .ok (q, events)) : Effect c p q (.pokeBplcon0 pix val) := by
  simp only [pokePrimary, bind_eq_ok_iff, pure_eq_ok, Except.ok.injEq, Prod.mk.injEq] at h
  obtain ⟨r, hr, rfl, _⟩ := h
  obtain ⟨log, hlog, rfl⟩ := recordChange_recorded hr
  exact .bplcon0 pix val hlog

theorem pokeSecondary_effect {pix : Position} {val : Word16} {events : List Event}
    (h : pokeSecondary pix val c p = .ok (q, events)) : Effect c p q (.pokeBplcon1 pix val) := by
  simp only [pokeSecondary, bind_eq_ok_iff, pure_eq_ok, Except.ok.injEq, Prod.mk.injEq] at h
  obtain ⟨r, hr, rfl, _⟩ := h
  obtain ⟨log, hlog, rfl⟩ := recordChange_recorded hr
  exact .bplcon1 pix val hlog

theorem pokeTertiary_effect {pix : Position} {val : Word16} {events : List Event}
    (h : pokeTertiary pix val c p = .ok (q, events)) : Effect c p q (.pokeBplcon2 pix val) := by
  simp only [pokeTertiary, bind_eq_ok_iff, pure_eq_ok, Except.ok.injEq, Prod.mk.injEq] at h
  obtain ⟨_, hcheck, r, hr, rfl, _⟩ := h
  obtain ⟨log, hlog, rfl⟩ := recordChange_recorded hr
  rcases checkPriority_cases c val with ⟨hv, _⟩ | ⟨_, e⟩
  · exact .bplcon2 pix val hlog hv
  · rw [e] at hcheck
    cases hcheck

theorem drawPixels_effect {hires : Bool} {n : Position} {events : List Event}
    (h : drawPixels hires n c p = .ok (q, events)) : Effect c p q (.draw hires n) := by
  rcases Nat.lt_or_ge c.bufPixels (p.cursor + drawCells hires n) with hfit | hfit
  · rw [drawPixels_faults hfit] at h
    cases h
  · obtain ⟨r, hr, hdrawn⟩ := drawPixels_spec hfit
    rw [hr] at h
    cases h
    have hframe := hdrawn.frame
    rw [hframe] at hdrawn ⊢
    exact .draw hires n hfit hdrawn

theorem startLine_effect {first vpos : Position} {events : List Event} (h : startLine first vpos c p = .ok (q, events)) :
    Effect c p q (.beginLine first vpos) := by
  unfold startLine at h
  split at h
  · cases h
  · cases h
    exact .beginLine first vpos

theorem finishLine_effect {vf hf : Bool} {hopen hclose vpos : Position} {events : List Event}
    (h : finishLine vf hf hopen hclose vpos c p = .ok (q, events)) : Effect c p q (.endLine vf hf hopen hclose vpos) := by
  have hframe := (finishLine_frame h).2.1.frame
  rw [hframe] at h ⊢
  exact .endLine vf hf hopen hclose vpos h

/-- A completed command has its effect. -/
theorem commandOf_effect {events : List Event} (h : commandOf i c p = .ok (q, events)) : Effect c p q i := by
  cases i with
  | pokeBplcon0 => exact pokePrimary_effect h
  | pokeBplcon1 => exact pokeSecondary_effect h
  | pokeBplcon2 => exact pokeTertiary_effect h
  | pokeBpl1dat pix val | pokeBpl2dat pix val | pokeBpl3dat pix val | pokeBpl4dat pix val | pokeBpl5dat pix val
  | pokeBpl6dat pix val => cases h; exact .bplDat _ pix val
  | pokeSpr0pos pix val | pokeSpr1pos pix val | pokeSpr2pos pix val | pokeSpr3pos pix val | pokeSpr4pos pix val
  | pokeSpr5pos pix val | pokeSpr6pos pix val | pokeSpr7pos pix val => cases h; exact .sprPos _ pix val
  | pokeSpr0ctl pix val | pokeSpr1ctl pix val | pokeSpr2ctl pix val | pokeSpr3ctl pix val | pokeSpr4ctl pix val
  | pokeSpr5ctl pix val | pokeSpr6ctl pix val | pokeSpr7ctl pix val => cases h; exact .sprCtl _ pix val
  | pokeSpr0data pix val | pokeSpr1data pix val | pokeSpr2data pix val | pokeSpr3data pix val | pokeSpr4data pix val
  | pokeSpr5data pix val | pokeSpr6data pix val | pokeSpr7data pix val => cases h; exact .sprData _ pix val
  | pokeSpr0datb pix val | pokeSpr1datb pix val | pokeSpr2datb pix val | pokeSpr3datb pix val | pokeSpr4datb pix val
  | pokeSpr5datb pix val | pokeSpr6datb pix val | pokeSpr7datb pix val => cases h; exact .sprDatb _ pix val
  | draw => exact drawPixels_effect h
  | beginLine => exact startLine_effect h
  | endLine => exact finishLine_effect h
  | reset => cases h; exact .reset
  | _ => cases h; exact .kept _

end Sys2Proof.Machine
end

section
/-! SUPPORT. The frame of a run, and what a run of a command and a step leave of the pipeline (20_memory.md R84, 60_exceptions.md
R263, R264). -/

namespace Sys2Proof.Machine

variable {s t : State} {i : Instr}

/-- Running a command leaves the parameters, the input and the events already emitted alone. -/
theorem runCommand_frame {command : Command} (h : runCommand command s = .next t) :
    t.config = s.config ∧ t.pending = s.pending ∧ s.trace <+: t.trace := by
  rcases runCommand_cases h with ⟨_, rfl⟩ | ⟨_, p, events, _, rfl⟩ | ⟨_, r, _, rfl⟩
  · exact ⟨rfl, rfl, List.prefix_refl _⟩
  · exact ⟨rfl, rfl, List.prefix_append _ _⟩
  · exact ⟨rfl, rfl, List.prefix_append _ _⟩

/-- A step runs one command, the decoded one or the illegal one, on the state with the next word taken off, or finds no
word. -/
theorem step_runs (h : step s = .next t) :
    (s.pending = [] ∧ t = s)
      ∨ ∃ command, runCommand command { s with pending := s.pending.tail } = .next t
        ∧ ((∃ i, command = commandOf i) ∨ ∃ w, command = illegalCommand w) := by
  rcases step_cases s with ⟨hp, e⟩ | ⟨w, rest, hp, ⟨i, _, e⟩ | ⟨_, _, e⟩⟩
  · rw [e] at h
    cases h
    exact .inl ⟨hp, rfl⟩
  · rw [e, exec_eq] at h
    exact .inr ⟨_, by rwa [hp], .inl ⟨i, rfl⟩⟩
  · rw [e] at h
    exact .inr ⟨_, by rwa [hp], .inr ⟨w, rfl⟩⟩

/-- What a command makes of the pipeline is its effect. -/
theorem exec_effect (h : exec i s = .next t) : Effect s.config s.pipe t.pipe i := by
  rw [exec_eq] at h
  rcases runCommand_cases h with ⟨_, rfl⟩ | ⟨_, p, events, hc, rfl⟩ | ⟨_, r, _, rfl⟩
  · exact .kept i
  · exact commandOf_effect hc
  · exact .faulted i r.code

/-- Settles O10: a step finds no word, or takes one off and runs a command. -/
theorem stepFrame : Obligations.StepFrame := by
  intro s t h
  rcases step_runs h with ⟨hp, rfl⟩ | ⟨command, hrun, _⟩
  · exact ⟨rfl, by rw [hp]; rfl, List.prefix_refl _⟩
  · exact runCommand_frame hrun

end Sys2Proof.Machine
end

section
/-! SUPPORT. Every effect keeps the invariants (10_state.md R51, 42_playfield_resolver.md R162). -/

namespace Sys2Proof.Machine

variable {c : Config} {p q : Pipeline} {s t : State} {i : Instr}

/-! ### The log -/

theorem Recorded.ordered {reg : LogReg} {val : Word16} {pos : Nat} {log : List LogEntry} (h : Recorded c p reg val pos log)
    (hp : p.log.Pairwise (fun a b => a.pos ≤ b.pos)) : log.Pairwise (fun a b => a.pos ≤ b.pos) := by
  cases h with
  | idle => exact hp
  | appended hphase ha =>
    obtain ⟨_, hlast, _⟩ := ha hphase
    refine List.pairwise_append.2 ⟨hp, List.pairwise_singleton _ _, fun e he f hf => ?_⟩
    obtain rfl := List.mem_singleton.1 hf
    have hne : p.log ≠ [] := List.ne_nil_of_mem he
    have hle := hlast _ (List.getLast?_eq_some_getLast hne)
    rcases List.mem_append.1 (List.dropLast_append_getLast hne ▸ he) with hd | hd
    · rw [← List.dropLast_append_getLast hne] at hp
      exact ((List.pairwise_append.1 hp).2.2 e hd _ (List.mem_singleton_self _)).trans hle
    · rwa [List.mem_singleton.1 hd]

/-- Recording adds nothing but the change, at a position inside the line. -/
theorem Recorded.mem {reg : LogReg} {val : Word16} {pos : Nat} {log : List LogEntry} (h : Recorded c p reg val pos log)
    {e : LogEntry} (he : e ∈ log) : e ∈ p.log ∨ (e = ⟨reg, val, pos⟩ ∧ pos ≤ c.linePixels) := by
  cases h with
  | idle => exact .inl he
  | appended hphase ha => exact (List.mem_append.1 he).imp_right fun h1 => ⟨List.mem_singleton.1 h1, (ha hphase).1⟩

theorem Recorded.fits {reg : LogReg} {val : Word16} {pos : Nat} {log : List LogEntry} (h : Recorded c p reg val pos log)
    (hp : p.log.length ≤ c.logCap) : log.length ≤ c.logCap := by
  cases h with
  | idle => exact hp
  | appended hphase ha =>
    obtain ⟨_, _, hfull⟩ := ha hphase
    simp only [List.length_append, List.length_singleton]
    omega

/-- Recording a change of one of the three registers keeps the invariant. -/
theorem PipelineInv.recorded {reg : LogReg} {val : Word16} {pos : Nat} {log : List LogEntry} (hi : PipelineInv c p)
    (h : Recorded c p reg val pos log) (hreg : reg ≠ .noReg) : PipelineInv c { p with log := log } :=
  { hi with
    logOrdered := h.ordered hi.logOrdered
    logInLine := fun e he => by
      rcases h.mem he with he | ⟨rfl, hpos⟩
      · exact hi.logInLine e he
      · exact hpos
    logFits := h.fits hi.logFits
    logTargets := fun e he => by
      rcases h.mem he with he | ⟨rfl, _⟩
      · exact hi.logTargets e he
      · exact hreg
    idleLogEmpty := fun hphase => by
      cases h with
      | idle => exact hi.idleLogEmpty hphase
      | appended hphase' => exact absurd (hphase.symm.trans hphase') (by decide) }

/-- Recording an accepted value, or one of another register, keeps the reserved codes out of the log. -/
theorem PriorityInv.recorded {reg : LogReg} {val : Word16} {pos : Nat} {log : List LogEntry} (hi : PriorityInv c p)
    (h : Recorded c p reg val pos log) (hv : reg = .bplcon2 → PriorityAccepted c val) : PriorityInv c { p with log := log } :=
  { hi with
    log := fun hc e he hreg => by
      rcases h.mem he with he | ⟨rfl, _⟩
      · exact hi.log hc e he hreg
      · exact hv hreg hc }

theorem PipelineInv.clearLog (hi : PipelineInv c p) : PipelineInv c { p with log := [] } :=
  { hi with
    logOrdered := .nil
    logInLine := by simp
    logFits := Nat.zero_le _
    logTargets := by simp
    idleLogEmpty := fun _ => rfl }

/-! ### Sprites -/

theorem PipelineInv.setSprite (hi : PipelineInv c p) (x : Fin 8) {sp : Sprite} (hs : sp.hstart.toNat ≤ 511) :
    PipelineInv c (p.setSprite x sp) :=
  { hi with
    hstartFits := fun y => by
      rw [Pipeline.sprite_setSprite]
      split
      · exact hs
      · exact hi.hstartFits y }

theorem PipelineInv.disarmAll (hi : PipelineInv c p) : PipelineInv c p.disarmAll :=
  { hi with hstartFits := fun x => by rw [Pipeline.sprite_disarmAll]; exact hi.hstartFits x }

/-- A field with one bit appended below it. -/
theorem toNat_append_bit {w : Nat} (x : BitVec w) (b : BitVec 1) : (x ++ b).toNat = 2 * x.toNat + b.toNat := by
  rw [BitVec.toNat_append, ← Nat.shiftLeft_add_eq_or_of_lt b.isLt, Nat.shiftLeft_eq]
  omega

/-- A position poke leaves the two high bits of the horizontal start zero (R180). -/
theorem posHstart_fits (val : Word16) (h : BitVec 11) :
    (0#2 ++ val.extractLsb' 0 8 ++ h.extractLsb' 0 1 : BitVec 11).toNat ≤ 511 := by
  have hval := (val.extractLsb' 0 8).isLt
  have hbit := (h.extractLsb' 0 1).isLt
  have hhigh : (0#2 ++ val.extractLsb' 0 8).toNat = (val.extractLsb' 0 8).toNat := by
    rw [BitVec.toNat_append]
    simp
  have happ := toNat_append_bit (0#2 ++ val.extractLsb' 0 8) (h.extractLsb' 0 1)
  omega

/-- A control poke keeps the high bits of the horizontal start (R181). -/
theorem ctlHstart_fits (val : Word16) {h : BitVec 11} (hh : h.toNat ≤ 511) :
    (h.extractLsb' 1 10 ++ val.extractLsb' 0 1 : BitVec 11).toNat ≤ 511 := by
  have hbit := (val.extractLsb' 0 1).isLt
  have hhigh : (h.extractLsb' 1 10).toNat ≤ 255 := by
    rw [BitVec.extractLsb'_toNat, Nat.shiftRight_eq_div_pow]
    omega
  have happ := toNat_append_bit (h.extractLsb' 1 10) (val.extractLsb' 0 1)
  omega

/-! ### The pixel buffers -/

theorem BuffersOnly.of_eq {raw cidx : Buffer 6} {depth : Buffer 16}
    (h : q = { p with raw := raw, cidx := cidx, depth := depth }) : BuffersOnly p q := by
  subst h
  rfl

/-- A change of the buffers that spares the cells past the line, those of `raw` past the buffer, and the canonical form
keeps the invariant. -/
theorem PipelineInv.buffers (hi : PipelineInv c p) (hb : BuffersOnly p q)
    (hcidx : ∀ i, c.linePixels ≤ i → readCell q.cidx i = readCell p.cidx i)
    (hdepth : ∀ i, c.linePixels ≤ i → readCell q.depth i = readCell p.depth i)
    (hraw : ∀ i, c.bufPixels ≤ i → readCell q.raw i = readCell p.raw i)
    (hcanonical : Memory.wf p = true → Memory.wf q = true) : PipelineInv c q := by
  have hq : q = { p with raw := q.raw, cidx := q.cidx, depth := q.depth } := hb
  rw [hq]
  exact { hi with
    cidxTail := fun i h => (hcidx i h).trans (hi.cidxTail i h)
    depthTail := fun i h => (hdepth i h).trans (hi.depthTail i h)
    rawEnds := fun i h => (hraw i h).trans (hi.rawEnds i h)
    canonical := hq ▸ hcanonical hi.canonical }

/-- Resolving cells of the line keeps the invariant. -/
theorem PipelineInv.resolved {pixel : Nat → ColourIndex → Pixel} {a b : Nat} (hi : PipelineInv c p)
    (hb : b ≤ c.linePixels) (hL : c.linePixels ≤ c.bufPixels) (h : ResolvesTo pixel a b p q) : PipelineInv c q :=
  hi.buffers h.frame
    (fun i h' => by rw [h.cidx, if_neg (by omega)])
    (fun i h' => by rw [h.depth, if_neg (by omega)])
    (fun i h' => by rw [h.raw, if_neg (by omega)])
    h.canonical

/-- Compositing inside the line keeps the invariant. -/
theorem PipelineInv.composited (hi : PipelineInv c p) (h : SpriteFrame p q)
    (hout : ∀ i, c.linePixels ≤ i → pixelAt q i = pixelAt p i) : PipelineInv c q := by
  have hraw : q.raw = p.raw := by rw [h.frame]
  exact hi.buffers (.of_eq h.frame) (fun i h' => congrArg Pixel.colour (hout i h'))
    (fun i h' => congrArg Pixel.tag (hout i h')) (fun i _ => by rw [hraw]) h.canonical

/-- A border inside the line keeps the invariant. -/
theorem PipelineInv.bordered {P : Nat → Prop} (hi : PipelineInv c p) (hP : ∀ i, P i → i < c.linePixels)
    (h : BorderedBy P p q) : PipelineInv c q := by
  have hraw : q.raw = p.raw := by rw [h.frame]
  have hdepth : q.depth = p.depth := by rw [h.frame]
  exact hi.buffers (.of_eq h.frame) (fun i h' => h.kept i fun hPi => absurd (hP i hPi) (by omega))
    (fun i _ => by rw [hdepth]) (fun i _ => by rw [hraw]) h.canonical

theorem PipelineInv.tailCopied (hi : PipelineInv c p) (h : TailCopied c p q) : PipelineInv c q := by
  have hcidx : q.cidx = p.cidx := by rw [h.frame]
  have hdepth : q.depth = p.depth := by rw [h.frame]
  exact hi.buffers (.of_eq h.frame) (fun i _ => by rw [hcidx]) (fun i _ => by rw [hdepth])
    (fun i h' => by rw [h.raw, if_neg (by omega), if_neg (by omega)]) h.canonical

theorem PipelineInv.drawn {pixel : Nat → ColourIndex} {hires : Bool} {n : Nat} (hi : PipelineInv c p)
    (hfit : p.cursor + cellsPerPixel hires * n ≤ c.bufPixels) (hB : c.bufPixels ≤ 4095)
    (h : DrawnFrom pixel hires n p q) : PipelineInv c q := by
  have hframe := h.frame
  have hraw : ∀ i, c.bufPixels ≤ i → readCell q.raw i = 0#6 := fun i h' => by
    rw [h.raw, if_neg (by omega), hi.rawEnds i h']
  have hcanonical := h.canonical hi.canonical
  rw [hframe] at hcanonical ⊢
  exact { hi with rawEnds := hraw, cursorInRange := hfit.trans hB, canonical := hcanonical }

/-! ### END -/

/-- Each step of a visible END keeps the invariant (R226). -/
theorem PipelineInv.visibleSteps {vf hf : Bool} {hopen hclose : Position} {q1 q2 q3 q4 : Pipeline}
    (hL : c.linePixels ≤ c.bufPixels) (hi : PipelineInv c p) (h : VisibleSteps c vf hf hopen hclose p q1 q2 q3 q4) :
    PipelineInv c q4 := by
  obtain ⟨⟨hlog, hreplay⟩, hsprites, hborder, hwrap⟩ := h
  have h1 : PipelineInv c q1 := by
    have := (hi.resolved le_rfl hL hreplay).clearLog
    rwa [← hlog] at this
  have h2 : PipelineInv c q2 := by
    rcases hsprites with ⟨_, _, r, rfl, hframe, _, hout⟩ | ⟨_, rfl⟩
    · exact (h1.composited hframe hout).disarmAll
    · exact h1
  have h3 : PipelineInv c q3 := h2.bordered (fun i hin => hin.1) hborder
  rcases hwrap with ⟨_, hcopy⟩ | ⟨_, rfl⟩
  · exact h3.tailCopied hcopy
  · exact h3

/-- A completed END keeps the invariant, whether the line is visible or not (R221). -/
theorem PipelineInv.finishLine {vf hf : Bool} {hopen hclose vpos : Position} {events : List Event}
    (hL : c.linePixels ≤ c.bufPixels) (hi : PipelineInv c p)
    (h : finishLine vf hf hopen hclose vpos c p = .ok (q, events)) : PipelineInv c q := by
  unfold Machine.finishLine at h
  split at h
  · cases h
  simp only [bind_eq_ok_iff, pure_eq_ok, Except.ok.injEq, Prod.mk.injEq] at h
  obtain ⟨⟨r, _⟩, hr, rfl, _⟩ := h
  have hclosed : PipelineInv c r ∧ r.log = [] := by
    split at hr
    · obtain ⟨q1, q2, q3, q4, e, hsteps⟩ := visibleEnd_spec hL hi vf hf hopen hclose vpos
      rw [e] at hr
      cases hr
      exact ⟨hi.visibleSteps hL hsteps, by rw [(visibleEnd_frame e).1]⟩
    · cases hr
      exact ⟨hi.clearLog, rfl⟩
  exact { hclosed.1 with idleLogEmpty := fun _ => hclosed.2 }

/-! ### Every effect -/

theorem PipelineInv.powerOn (c : Config) : PipelineInv c Pipeline.powerOn where
  logOrdered := .nil
  logInLine := by simp [Pipeline.powerOn]
  logFits := Nat.zero_le _
  logTargets := by simp [Pipeline.powerOn]
  hstartFits x := by simp [Sprite.powerOn]
  idleLogEmpty _ := rfl
  cidxTail _ _ := rfl
  depthTail _ _ := rfl
  rawEnds _ _ := rfl
  cursorInRange := Nat.zero_le _
  canonical := rfl

theorem PriorityInv.powerOn (c : Config) : PriorityInv c Pipeline.powerOn where
  live _ := rfl
  snapshot _ := rfl
  log _ := by simp [Pipeline.powerOn]

/-- Every effect keeps what R51 says of the pipeline. -/
theorem Effect.pipelineInv (h : Effect c p q i) (hc : c.Valid) (hi : PipelineInv c p) : PipelineInv c q := by
  obtain ⟨hL, hB, _⟩ := hc
  cases h with
  | kept => exact hi
  | faulted => exact { hi with }
  | bplcon0 pix val hlog => exact { hi.recorded hlog (by decide) with }
  | bplcon1 pix val hlog => exact { hi.recorded hlog (by decide) with }
  | bplcon2 pix val hlog => exact { hi.recorded hlog (by decide) with }
  | bplDat => exact { hi with }
  | sprPos x pix val => exact hi.setSprite x (posHstart_fits val _)
  | sprCtl x pix val => exact hi.setSprite x (ctlHstart_fits val (hi.hstartFits x))
  | sprData x => exact hi.setSprite x (hi.hstartFits x)
  | sprDatb x => exact hi.setSprite x (hi.hstartFits x)
  | draw hires n hfit hdrawn =>
    rw [drawCells_eq] at hfit
    exact { hi.drawn hfit (by omega) hdrawn with }
  | beginLine first =>
    exact { hi.clearLog with idleLogEmpty := fun _ => rfl, cursorInRange := Nat.le_of_lt_succ first.isLt }
  | endLine vf hf hopen hclose vpos h => exact hi.finishLine hL h
  | reset => exact { PipelineInv.powerOn c with }

/-- Every effect keeps what R162 says of the reserved codes. -/
theorem Effect.priorityInv (h : Effect c p q i) (hi : PriorityInv c p) : PriorityInv c q := by
  cases h with
  | bplcon0 pix val hlog => exact { hi.recorded hlog (by simp) with }
  | bplcon1 pix val hlog => exact { hi.recorded hlog (by simp) with }
  | bplcon2 pix val hlog hv => exact { hi.recorded hlog (fun _ => hv) with live := hv }
  | beginLine => exact { live := hi.live, snapshot := hi.live, log := by simp }
  | endLine => exact { hi with log := by simp }
  | reset => exact { PriorityInv.powerOn c with }
  | _ => exact { hi with }

end Sys2Proof.Machine
end

section
/-! SUPPORT. The invariant along a run (10_state.md R51, 42_playfield_resolver.md R162). -/

namespace Sys2Proof.Machine

variable {c : Config} {s t : State}

/-- Running a command keeps the invariant when the command, completed, does; a fault only sets `fault`. -/
theorem Inv.runCommand {command : Command} (hi : Inv s)
    (hcommand : ∀ p events, command s.config s.pipe = .ok (p, events) → PipelineInv s.config p ∧ PriorityInv s.config p)
    (h : runCommand command s = .next t) : Inv t := by
  rcases runCommand_cases h with ⟨_, rfl⟩ | ⟨_, p, events, hc, rfl⟩ | ⟨_, r, _, rfl⟩
  · exact hi
  · obtain ⟨hpipe, hpriority⟩ := hcommand p events hc
    exact ⟨hi.config, hpipe, hpriority⟩
  · exact ⟨hi.config, { hi.pipe with }, { hi.priority with }⟩

/-- Settles O16: a step runs a decoded command, whose effect keeps the invariant, or an illegal one, which never completes. -/
theorem stepKeepsTheInvariant : Obligations.StepKeepsTheInvariant := by
  intro s t hi h
  rcases step_runs h with ⟨_, rfl⟩ | ⟨command, hrun, hcommand⟩
  · exact hi
  · have htaken : Inv { s with pending := s.pending.tail } := ⟨hi.config, hi.pipe, hi.priority⟩
    refine htaken.runCommand (fun p events hc => ?_) hrun
    rcases hcommand with ⟨i, rfl⟩ | ⟨w, rfl⟩
    · have heffect := commandOf_effect hc
      exact ⟨heffect.pipelineInv hi.config hi.pipe, heffect.priorityInv hi.priority⟩
    · cases hc

/-- The power-on machine meets the invariant, whatever the host has issued. -/
theorem Inv.powerOn (hc : c.Valid) (words : List CommandWord) : Inv { State.powerOn c with pending := words } :=
  ⟨hc, .powerOn c, .powerOn c⟩

/-- The invariant holds along a run. -/
theorem ReachedFrom.inv (h : ReachedFrom s t) (hi : Inv s) : Inv t := by
  induction h with
  | start => exact hi
  | step _ hs ih => exact stepKeepsTheInvariant _ _ ih hs

/-- No run changes the parameters (R53). -/
theorem ReachedFrom.config (h : ReachedFrom s t) : t.config = s.config := by
  induction h with
  | start => rfl
  | step _ hs ih => exact (stepFrame _ _ hs).1.trans ih

/-- Settles O17: the invariant holds at power-on and along every run. -/
theorem reachableStates : Obligations.ReachableStates := by
  intro c words s hc hreached _
  have hconfig : s.config = c := hreached.config
  obtain ⟨_, hpipe, hpriority⟩ := hreached.inv (.powerOn hc words)
  rw [hconfig] at hpipe hpriority
  exact ⟨fun i => ⟨Nat.le_of_lt_succ (readCell s.pipe.raw i).isLt, Nat.le_of_lt_succ (readCell s.pipe.cidx i).isLt⟩,
    hpipe.logOrdered, hpipe.logInLine, hpipe.logFits, hpipe.hstartFits, hpipe.idleLogEmpty,
    fun i h _ => ⟨hpipe.cidxTail i h, hpipe.depthTail i h⟩,
    fun hfault => ⟨hpriority.live hfault, hpriority.snapshot hfault, hpriority.log hfault⟩⟩

end Sys2Proof.Machine
end

section
/-! SUPPORT. Which commands write which fields of the pipeline (10_state.md R36 to R45). -/

namespace Sys2Proof.Machine

variable {c : Config} {p q : Pipeline} {i : Instr}

/-! ### Sprites -/

/-- `SpriteEffect c x sp sp' i`: the command `i`, not RESET, can leave `sp'` of the sprite `sp` with the number `x` (R180 to
R183, R195). -/
inductive SpriteEffect (c : Config) (x : Fin 8) (sp : Sprite) : Sprite → Instr → Prop
  | kept (i : Instr) : SpriteEffect c x sp sp i
  | pos (pix : Position) (val : Word16) (hstart : BitVec 11) :
      SpriteEffect c x sp { sp with hstart := hstart } (pokeSprPos x pix val)
  | ctl (pix : Position) (val : Word16) (hstart : BitVec 11) (attach : Bool) :
      SpriteEffect c x sp { sp with hstart := hstart, attach := attach } (pokeSprCtl x pix val)
  | data (pix : Position) (val : Word16) : SpriteEffect c x sp { sp with dataA := val, armed := true } (pokeSprData x pix val)
  | datb (pix : Position) (val : Word16) : SpriteEffect c x sp { sp with dataB := val } (pokeSprDatb x pix val)
  | disarmed (hf : Bool) (hopen hclose vpos : Position) (hv : c.firstVisibleLine ≤ vpos.toNat) :
      SpriteEffect c x sp { sp with armed := false } (.endLine true hf hopen hclose vpos)

/-- A poke of sprite `y` touches sprite `x` only when they are the same. -/
theorem spriteEffect_setSprite {x y : Fin 8} {sp : Sprite} (h : y = x → SpriteEffect c x (p.sprite x) sp i) :
    SpriteEffect c x (p.sprite x) ((p.setSprite y sp).sprite x) i := by
  rw [Pipeline.sprite_setSprite]
  split
  · next hyx => exact h hyx
  · exact .kept i

theorem Effect.sprite (h : Effect c p q i) (hr : i ≠ .reset) (x : Fin 8) : SpriteEffect c x (p.sprite x) (q.sprite x) i := by
  cases h with
  | sprPos y pix val => exact spriteEffect_setSprite (by rintro rfl; exact .pos pix val _)
  | sprCtl y pix val => exact spriteEffect_setSprite (by rintro rfl; exact .ctl pix val _ _)
  | sprData y pix val => exact spriteEffect_setSprite (by rintro rfl; exact .data pix val)
  | sprDatb y pix val => exact spriteEffect_setSprite (by rintro rfl; exact .datb pix val)
  | @endLine vf hf hopen hclose vpos raw cidx depth spr events h =>
    rcases (finishLine_frame h).2.1.sprites with hs | ⟨rfl, hv, hs⟩
    · obtain rfl : spr = p.spr := hs
      exact .kept _
    · obtain rfl : spr = p.disarmAll.spr := hs
      have := SpriteEffect.disarmed (c := c) (x := x) (sp := p.sprite x) hf hopen hclose vpos hv
      rwa [← Pipeline.sprite_disarmAll] at this
  | reset => exact absurd rfl hr
  | _ => exact .kept _

section
variable {x : Fin 8} {sp sp' : Sprite} (h : SpriteEffect c x sp sp' i)
include h

theorem SpriteEffect.hstart_writers (hne : sp'.hstart ≠ sp.hstart) :
    ∃ pix val, i = pokeSprPos x pix val ∨ i = pokeSprCtl x pix val := by
  cases h with
  | pos pix val => exact ⟨pix, val, .inl rfl⟩
  | ctl pix val => exact ⟨pix, val, .inr rfl⟩
  | _ => exact absurd rfl hne

theorem SpriteEffect.attach_writers (hne : sp'.attach ≠ sp.attach) : ∃ pix val, i = pokeSprCtl x pix val := by
  cases h with
  | ctl pix val => exact ⟨pix, val, rfl⟩
  | _ => exact absurd rfl hne

theorem SpriteEffect.dataA_writers (hne : sp'.dataA ≠ sp.dataA) : ∃ pix val, i = pokeSprData x pix val := by
  cases h with
  | data pix val => exact ⟨pix, val, rfl⟩
  | _ => exact absurd rfl hne

theorem SpriteEffect.dataB_writers (hne : sp'.dataB ≠ sp.dataB) : ∃ pix val, i = pokeSprDatb x pix val := by
  cases h with
  | datb pix val => exact ⟨pix, val, rfl⟩
  | _ => exact absurd rfl hne

theorem SpriteEffect.arming_writers (hoff : sp.armed = false) (hon : sp'.armed = true) :
    ∃ pix val, i = pokeSprData x pix val := by
  cases h with
  | data pix val => exact ⟨pix, val, rfl⟩
  | disarmed => cases hon
  | _ => exact absurd (hoff.symm.trans hon) Bool.false_ne_true

theorem SpriteEffect.disarming_writers (hon : sp.armed = true) (hoff : sp'.armed = false) :
    ∃ hf hopen hclose vpos, i = .endLine true hf hopen hclose vpos ∧ c.firstVisibleLine ≤ vpos.toNat := by
  cases h with
  | data => cases hoff
  | disarmed hf hopen hclose vpos hv => exact ⟨hf, hopen, hclose, vpos, rfl, hv⟩
  | _ => exact absurd (hoff.symm.trans hon) Bool.false_ne_true

end

/-! ### The other fields -/

section
variable (h : Effect c p q i) (hr : i ≠ .reset)
include h hr

theorem Effect.bplcon0_writers (hne : q.bplcon0 ≠ p.bplcon0) : ∃ pix val, i = .pokeBplcon0 pix val := by
  cases h with
  | bplcon0 pix val => exact ⟨pix, val, rfl⟩
  | reset => exact absurd rfl hr
  | _ => exact absurd rfl hne

theorem Effect.bplcon1_writers (hne : q.bplcon1 ≠ p.bplcon1) : ∃ pix val, i = .pokeBplcon1 pix val := by
  cases h with
  | bplcon1 pix val => exact ⟨pix, val, rfl⟩
  | reset => exact absurd rfl hr
  | _ => exact absurd rfl hne

theorem Effect.bplcon2_writers (hne : q.bplcon2 ≠ p.bplcon2) : ∃ pix val, i = .pokeBplcon2 pix val := by
  cases h with
  | bplcon2 pix val => exact ⟨pix, val, rfl⟩
  | reset => exact absurd rfl hr
  | _ => exact absurd rfl hne

theorem Effect.snapshot_writers
    (hne : q.snap0 ≠ p.snap0 ∨ q.snap1 ≠ p.snap1 ∨ q.snap2 ≠ p.snap2 ∨ q.lineVpos ≠ p.lineVpos) :
    ∃ first vpos, i = .beginLine first vpos := by
  cases h with
  | beginLine first vpos => exact ⟨first, vpos, rfl⟩
  | reset => exact absurd rfl hr
  | _ => rcases hne with hne | hne | hne | hne <;> exact absurd rfl hne

theorem Effect.phase_writers (hne : q.phase ≠ p.phase) :
    (∃ first vpos, i = .beginLine first vpos) ∨ ∃ vf hf hopen hclose vpos, i = .endLine vf hf hopen hclose vpos := by
  cases h with
  | beginLine first vpos => exact .inl ⟨first, vpos, rfl⟩
  | endLine vf hf hopen hclose vpos => exact .inr ⟨vf, hf, hopen, hclose, vpos, rfl⟩
  | reset => exact absurd rfl hr
  | _ => exact absurd rfl hne

theorem Effect.log_writers (hne : q.log ≠ p.log) :
    (∃ pix val, i = .pokeBplcon0 pix val ∨ i = .pokeBplcon1 pix val ∨ i = .pokeBplcon2 pix val)
      ∨ (∃ first vpos, i = .beginLine first vpos) ∨ ∃ vf hf hopen hclose vpos, i = .endLine vf hf hopen hclose vpos := by
  cases h with
  | bplcon0 pix val => exact .inl ⟨pix, val, .inl rfl⟩
  | bplcon1 pix val => exact .inl ⟨pix, val, .inr (.inl rfl)⟩
  | bplcon2 pix val => exact .inl ⟨pix, val, .inr (.inr rfl)⟩
  | beginLine first vpos => exact .inr (.inl ⟨first, vpos, rfl⟩)
  | endLine vf hf hopen hclose vpos => exact .inr (.inr ⟨vf, hf, hopen, hclose, vpos, rfl⟩)
  | reset => exact absurd rfl hr
  | _ => exact absurd rfl hne

theorem Effect.plane_writers {k : Fin 6} (hne : q.plane k ≠ p.plane k) :
    (∃ pix val, i = pokeBplDat k pix val) ∨ ∃ hires n, i = .draw hires n := by
  cases h with
  | bplDat l pix val =>
    rw [Pipeline.plane_setShiftReg] at hne
    split at hne
    · next hlk => exact .inl ⟨pix, val, by rw [hlk]⟩
    · exact absurd rfl hne
  | draw hires n => exact .inr ⟨hires, n, rfl⟩
  | reset => exact absurd rfl hr
  | _ => exact absurd rfl hne

theorem Effect.cursor_writers (hne : q.cursor ≠ p.cursor) :
    (∃ hires n, i = .draw hires n) ∨ ∃ first vpos, i = .beginLine first vpos := by
  cases h with
  | draw hires n => exact .inl ⟨hires, n, rfl⟩
  | beginLine first vpos => exact .inr ⟨first, vpos, rfl⟩
  | reset => exact absurd rfl hr
  | _ => exact absurd rfl hne

theorem Effect.raw_writers (hne : q.raw ≠ p.raw) :
    (∃ hires n, i = .draw hires n) ∨ ∃ vf hf hopen hclose vpos, i = .endLine vf hf hopen hclose vpos := by
  cases h with
  | draw hires n => exact .inl ⟨hires, n, rfl⟩
  | endLine vf hf hopen hclose vpos => exact .inr ⟨vf, hf, hopen, hclose, vpos, rfl⟩
  | reset => exact absurd rfl hr
  | _ => exact absurd rfl hne

theorem Effect.picture_writers (hne : q.cidx ≠ p.cidx ∨ q.depth ≠ p.depth) :
    ∃ vf hf hopen hclose vpos, i = .endLine vf hf hopen hclose vpos := by
  cases h with
  | endLine vf hf hopen hclose vpos => exact ⟨vf, hf, hopen, hclose, vpos, rfl⟩
  | reset => exact absurd rfl hr
  | _ => rcases hne with hne | hne <;> exact absurd rfl hne

end

/-- Settles O51: the effects of the commands, field by field. -/
theorem registerWriters : Obligations.RegisterWriters := by
  intro s t i h hr
  have he := exec_effect h
  refine ⟨he.bplcon0_writers hr, he.bplcon1_writers hr, he.bplcon2_writers hr, he.snapshot_writers hr, fun x => ?_,
    he.phase_writers hr, he.log_writers hr⟩
  have hx := he.sprite hr x
  exact ⟨hx.hstart_writers, hx.attach_writers, hx.dataA_writers, hx.dataB_writers, hx.arming_writers, hx.disarming_writers⟩

/-- Settles O52: the effects of the commands, field by field. -/
theorem pixelWriters : Obligations.PixelWriters := by
  intro s t i h hr
  have he := exec_effect h
  exact ⟨fun _ => he.plane_writers hr, he.cursor_writers hr, he.raw_writers hr, he.picture_writers hr⟩

end Sys2Proof.Machine
end

section
/-! SUPPORT. Which word a step takes and what it runs (20_memory.md R82), and which events a command emits (R84). -/

namespace Sys2Proof.Machine

variable {c : Config} {p q : Pipeline} {s t : State} {i : Instr} {events : List Event}

/-! ### Steps -/

theorem step_of_pending_nil (hp : s.pending = []) : step s = .next s := by
  simp [step, fetch, hp]

theorem step_of_decode_ok {w : CommandWord} {rest : List CommandWord} (hp : s.pending = w :: rest)
    (hd : decode w = .ok i) : step s = exec i { s with pending := rest } := by
  simp [step, fetch, hp, hd]

/-- The illegal command faults with the word as its info (30_encoding.md R96). -/
theorem runCommand_illegalCommand (w : CommandWord) (hr : Running s) :
    runCommand (illegalCommand w) s = .next (s.faultedWith .illegalCommand (.word w)) :=
  runCommand_faults (r := ⟨.illegalCommand, .word w⟩) hr rfl

theorem step_of_decode_error {w : CommandWord} {rest : List CommandWord} {e : DecodeError} (hp : s.pending = w :: rest)
    (hd : decode w = .error e) (hr : Running s) :
    step s = .next (({ s with pending := rest } : State).faultedWith .illegalCommand (.word w)) := by
  have hrun : step s = runCommand (illegalCommand w) { s with pending := rest } := by simp [step, fetch, hp, hd]
  exact hrun.trans (runCommand_illegalCommand w hr)

/-- Settles O6: a word that decodes, one that does not, and none. -/
theorem stepRunsDecodedCommand : Obligations.StepRunsDecodedCommand := by
  intro s
  exact ⟨fun _ _ _ => step_of_decode_ok, fun _ _ _ => step_of_decode_error, step_of_pending_nil⟩

/-! ### Events -/

/-- `Emits s t events i`: the command `i`, run from `s` to `t`, can emit `events`. Every command can emit nothing or, when it
faults, its report; each of the other constructors is one kind of command, completed. -/
inductive Emits (s t : State) : List Event → Instr → Prop
  | nothing (i : Instr) : Emits s t [] i
  | faulted (i : Instr) (code : FaultCode) (info : FaultInfo) (hs : s.pipe.fault = none) (ht : t.pipe.fault = some code) :
      Emits s t [.faulted code info] i
  | colorPoke (n : Fin 32) (pix : Position) (val : Word16) : Emits s t [.colorPoke n val pix] (pokeColor n pix val)
  | inspect : Emits s t [.inspect (takeSnapshot s.config s.pipe)] .inspect
  | picture (vf hf : Bool) (hopen hclose vpos : Position) (depth : List DepthTag) (shown picture : List ColourIndex)
      (hv : s.config.firstVisibleLine ≤ vpos.toNat) :
      Emits s t [.collisionHook depth shown, .colorize vpos picture] (.endLine vf hf hopen hclose vpos)
  | overlay (vf hf : Bool) (hopen hclose vpos : Position) (hv : vpos.toNat < s.config.firstVisibleLine) :
      Emits s t [.debugOverlay vpos] (.endLine vf hf hopen hclose vpos)

theorem pokePrimary_emits_nothing {pix : Position} {val : Word16}
    (h : pokePrimary pix val c p = .ok (q, events)) : events = [] := by
  simp only [pokePrimary, bind_eq_ok_iff, pure_eq_ok, Except.ok.injEq, Prod.mk.injEq] at h
  obtain ⟨_, _, _, rfl⟩ := h
  rfl

theorem pokeSecondary_emits_nothing {pix : Position} {val : Word16}
    (h : pokeSecondary pix val c p = .ok (q, events)) : events = [] := by
  simp only [pokeSecondary, bind_eq_ok_iff, pure_eq_ok, Except.ok.injEq, Prod.mk.injEq] at h
  obtain ⟨_, _, _, rfl⟩ := h
  rfl

theorem pokeTertiary_emits_nothing {pix : Position} {val : Word16}
    (h : pokeTertiary pix val c p = .ok (q, events)) : events = [] := by
  simp only [pokeTertiary, bind_eq_ok_iff, pure_eq_ok, Except.ok.injEq, Prod.mk.injEq] at h
  obtain ⟨_, _, _, _, _, rfl⟩ := h
  rfl

theorem startLine_emits_nothing {first vpos : Position}
    (h : startLine first vpos c p = .ok (q, events)) : events = [] := by
  unfold startLine at h
  split at h
  · cases h
  · cases h
    rfl

theorem finishLine_emits {vf hf : Bool} {hopen hclose vpos : Position}
    (h : finishLine vf hf hopen hclose vpos s.config s.pipe = .ok (p, events)) :
    Emits s t events (.endLine vf hf hopen hclose vpos) := by
  obtain ⟨_, _, ⟨hv, depth, shown, picture, rfl⟩ | ⟨hv, rfl⟩⟩ := finishLine_frame h
  · exact .picture vf hf hopen hclose vpos depth shown picture hv
  · exact .overlay vf hf hopen hclose vpos hv

/-- What a completed command emits. -/
theorem commandOf_emits (h : commandOf i s.config s.pipe = .ok (p, events)) : Emits s t events i := by
  cases i with
  | pokeBplcon0 => obtain rfl := pokePrimary_emits_nothing h; exact .nothing _
  | pokeBplcon1 => obtain rfl := pokeSecondary_emits_nothing h; exact .nothing _
  | pokeBplcon2 => obtain rfl := pokeTertiary_emits_nothing h; exact .nothing _
  | pokeColor00 pix val | pokeColor01 pix val | pokeColor02 pix val | pokeColor03 pix val | pokeColor04 pix val
  | pokeColor05 pix val | pokeColor06 pix val | pokeColor07 pix val | pokeColor08 pix val | pokeColor09 pix val
  | pokeColor10 pix val | pokeColor11 pix val | pokeColor12 pix val | pokeColor13 pix val | pokeColor14 pix val
  | pokeColor15 pix val | pokeColor16 pix val | pokeColor17 pix val | pokeColor18 pix val | pokeColor19 pix val
  | pokeColor20 pix val | pokeColor21 pix val | pokeColor22 pix val | pokeColor23 pix val | pokeColor24 pix val
  | pokeColor25 pix val | pokeColor26 pix val | pokeColor27 pix val | pokeColor28 pix val | pokeColor29 pix val
  | pokeColor30 pix val | pokeColor31 pix val => cases h; exact .colorPoke _ pix val
  | draw => obtain rfl := (drawPixels_frame h).2; exact .nothing _
  | beginLine => obtain rfl := startLine_emits_nothing (c := s.config) h; exact .nothing _
  | endLine => exact finishLine_emits h
  | inspect => cases h; exact .inspect
  | _ => cases h; exact .nothing _

/-- What a run of a command appends to the trace. -/
theorem exec_emits (h : exec i s = .next t) (htrace : t.trace = s.trace ++ events) : Emits s t events i := by
  rw [exec_eq] at h
  rcases runCommand_cases h with ⟨_, rfl⟩ | ⟨_, p, emitted, hc, rfl⟩ | ⟨hs, r, _, rfl⟩
  · obtain rfl := List.self_eq_append_right.1 htrace
    exact .nothing i
  · obtain rfl := List.append_cancel_left htrace
    exact commandOf_emits hc
  · obtain rfl := List.append_cancel_left htrace
    exact .faulted i r.code r.info hs rfl

section
variable (h : Emits s t events i)
include h

theorem Emits.colorize_source {vpos : Position} {picture : List ColourIndex} (he : .colorize vpos picture ∈ events) :
    s.config.firstVisibleLine ≤ vpos.toNat ∧ ∃ vf hf hopen hclose, i = .endLine vf hf hopen hclose vpos := by
  cases h with
  | picture vf hf hopen hclose vpos' _ _ _ hv =>
    obtain ⟨rfl, _⟩ : vpos = vpos' ∧ _ := by simpa using he
    exact ⟨hv, vf, hf, hopen, hclose, rfl⟩
  | _ => simp at he

theorem Emits.collisionHook_source {depth : List DepthTag} {shown : List ColourIndex}
    (he : .collisionHook depth shown ∈ events) : ∃ vf hf hopen hclose vpos,
      i = .endLine vf hf hopen hclose vpos ∧ s.config.firstVisibleLine ≤ vpos.toNat := by
  cases h with
  | picture vf hf hopen hclose vpos _ _ _ hv => exact ⟨vf, hf, hopen, hclose, vpos, rfl, hv⟩
  | _ => simp at he

theorem Emits.debugOverlay_source {vpos : Position} (he : .debugOverlay vpos ∈ events) :
    vpos.toNat < s.config.firstVisibleLine ∧ ∃ vf hf hopen hclose, i = .endLine vf hf hopen hclose vpos := by
  cases h with
  | overlay vf hf hopen hclose vpos' hv =>
    obtain rfl : vpos = vpos' := by simpa using he
    exact ⟨hv, vf, hf, hopen, hclose, rfl⟩
  | _ => simp at he

theorem Emits.colorPoke_source {n : Fin 32} {val : Word16} {pix : Position} (he : .colorPoke n val pix ∈ events) :
    i = pokeColor n pix val := by
  cases h with
  | colorPoke n' pix' val' =>
    obtain ⟨rfl, rfl, rfl⟩ : n = n' ∧ val = val' ∧ pix = pix' := by simpa using he
    rfl
  | _ => simp at he

theorem Emits.inspect_source {snapshot : Snapshot} (he : .inspect snapshot ∈ events) : i = .inspect := by
  cases h with
  | inspect => rfl
  | _ => simp at he

theorem Emits.faulted_source {code : FaultCode} {info : FaultInfo} (he : .faulted code info ∈ events) :
    s.pipe.fault = none ∧ t.pipe.fault = some code := by
  cases h with
  | faulted _ code' _ hs ht =>
    obtain ⟨rfl, _⟩ : code = code' ∧ _ := by simpa using he
    exact ⟨hs, ht⟩
  | _ => simp at he

end

/-- Settles O53: what a command emits, kind of event by kind of event. -/
theorem eventSources : Obligations.EventSources := by
  intro s t i events h htrace
  have hem := exec_emits h htrace
  exact ⟨fun _ _ => hem.colorize_source, fun _ _ => hem.collisionHook_source, fun _ => hem.debugOverlay_source,
    fun _ _ _ => hem.colorPoke_source, fun _ => hem.inspect_source, fun _ _ => hem.faulted_source⟩

end Sys2Proof.Machine
end

section
/-! SUPPORT. The picture of a visible END is determined cell by cell, by the raw value, the control values in effect there and
the sprites (45_scanline_orchestrator.md R226). -/

namespace Sys2Proof.Machine

variable {c : Config} {p p' q q' : Pipeline} {i : Nat}

/-! ### The layers of the sprites -/

theorem sprTag_injective : Function.Injective sprTag := by decide

/-- The pair of sprite `x` (R186). -/
def pairOf (x : Fin 8) : Fin 4 := ⟨x.val / 2, by omega⟩

theorem pairOf_evenSprite (pair : Fin 4) : pairOf (evenSprite pair) = pair := by decide +revert

theorem pairOf_oddSprite (pair : Fin 4) : pairOf (oddSprite pair) = pair := by decide +revert

/-- The one layer that the compositor can draw with the tag of sprite `x` (R194). -/
def spriteLayer (p : Pipeline) (x : Fin 8) : Layer :=
  let e := p.sprite (evenSprite (pairOf x))
  let o := p.sprite (oddSprite (pairOf x))
  ⟨(p.sprite x).hstart.toNat, sprTag x, if attached e o then attachedColour e o else independentColour (pairOf x) (p.sprite x)⟩

theorem eq_spriteLayer_of_mem_pairLayers {layer : Layer} {pair : Fin 4} (h : layer ∈ pairLayers p pair) :
    ∃ x, layer = spriteLayer p x := by
  unfold pairLayers at h
  by_cases hat : attached (p.sprite (evenSprite pair)) (p.sprite (oddSprite pair)) = true
  · have hlayer : layer = spriteLayer p (evenSprite pair) := by
      simpa [hat, spriteLayer, pairOf_evenSprite] using h
    exact ⟨_, hlayer⟩
  · rw [if_neg hat] at h
    rcases List.mem_append.1 h with h | h
    · have hlayer : layer = spriteLayer p (oddSprite pair) := by
        simpa [hat, spriteLayer, pairOf_oddSprite] using (List.mem_ite_nil_right.1 h).2
      exact ⟨_, hlayer⟩
    · have hlayer : layer = spriteLayer p (evenSprite pair) := by
        simpa [hat, spriteLayer, pairOf_evenSprite] using (List.mem_ite_nil_right.1 h).2
      exact ⟨_, hlayer⟩

/-- The layers of a pipeline are told apart by their tags (R185). -/
theorem layersOf_eq_of_tag_eq {order : List (Fin 4)} {l m : Layer} (hl : l ∈ layersOf p order) (hm : m ∈ layersOf p order)
    (h : l.tag = m.tag) : l = m := by
  obtain ⟨_, _, hl⟩ := List.mem_flatMap.1 hl
  obtain ⟨_, _, hm⟩ := List.mem_flatMap.1 hm
  obtain ⟨x, rfl⟩ := eq_spriteLayer_of_mem_pairLayers hl
  obtain ⟨y, rfl⟩ := eq_spriteLayer_of_mem_pairLayers hm
  rw [sprTag_injective h]

/-- Layers that their tags tell apart leave one pixel at a cell (R198). -/
theorem Composited.unique {layers : List Layer} {before after after' : Pixel}
    (htags : ∀ l ∈ layers, ∀ m ∈ layers, l.tag = m.tag → l = m) (h : Composited layers i before after)
    (h' : Composited layers i before after') : after' = after := by
  rcases h with ⟨l, hl, hcov, hlt, hmax, rfl⟩ | ⟨hnone, rfl⟩
  · rcases h' with ⟨m, hm, hcov', _, hmax', rfl⟩ | ⟨hnone', _⟩
    · rw [htags l hl m hm (BitVec.le_antisymm (hmax' l hl hcov) (hmax m hm hcov'))]
    · exact absurd hlt (BitVec.not_lt.2 (hnone' l hl hcov))
  · rcases h' with ⟨m, hm, hcov', hlt', _, _⟩ | ⟨_, rfl⟩
    · exact absurd hlt' (BitVec.not_lt.2 (hnone m hm hcov'))
    · rfl

theorem Pipeline.sprite_congr (hspr : p'.spr = p.spr) (x : Fin 8) : p'.sprite x = p.sprite x := by
  simp only [Pipeline.sprite, hspr]

theorem layersOf_congr (hspr : p'.spr = p.spr) (order : List (Fin 4)) : layersOf p' order = layersOf p order := by
  have hpairs : pairLayers p' = pairLayers p := by
    funext pair
    simp only [pairLayers, Pipeline.sprite_congr hspr]
  simp only [layersOf, hpairs]

theorem anyArmed_congr (hspr : p'.spr = p.spr) : anyArmed p' = anyArmed p := by
  simp only [anyArmed, Pipeline.sprite_congr hspr]

/-! ### The border -/

theorem BorderedBy.pixelAt_filled {P : Nat → Prop} (h : BorderedBy P p q) (hi : P i) :
    pixelAt q i = ⟨borderIndex, (pixelAt p i).tag⟩ := by
  have hdepth : q.depth = p.depth := by rw [h.frame]
  simp only [pixelAt, h.filled i hi, hdepth]

theorem BorderedBy.pixelAt_kept {P : Nat → Prop} (h : BorderedBy P p q) (hi : ¬ P i) : pixelAt q i = pixelAt p i := by
  have hdepth : q.depth = p.depth := by rw [h.frame]
  simp only [pixelAt, h.kept i hi, hdepth]

theorem BorderedBy.pixelAt_congr {P : Nat → Prop} (h : BorderedBy P p q) (h' : BorderedBy P p' q')
    (hpix : pixelAt p' i = pixelAt p i) : pixelAt q' i = pixelAt q i := by
  by_cases hi : P i
  · rw [h.pixelAt_filled hi, h'.pixelAt_filled hi, hpix]
  · rw [h.pixelAt_kept hi, h'.pixelAt_kept hi, hpix]

/-! ### A visible END -/

section
variable {vf hf : Bool} {hopen hclose : Position} {q1 q2 q3 q4 q1' q2' q3' q4' : Pipeline}
variable (h : VisibleSteps c vf hf hopen hclose p q1 q2 q3 q4)
include h

theorem VisibleSteps.spr_replayed : q1.spr = p.spr := by
  simpa using congrArg Pipeline.spr h.replayed.2.frame

theorem VisibleSteps.pixelAt_replayed (hi : i < c.linePixels) :
    pixelAt q1 i = resolvedPixel c (activeAt p i) (readCell p.raw i) := by
  have hcidx := h.replayed.2.cidx i
  have hdepth := h.replayed.2.depth i
  rw [if_pos ⟨Nat.zero_le i, hi⟩] at hcidx hdepth
  exact congrArg₂ Pixel.mk hcidx hdepth

theorem VisibleSteps.pixelAt_wrapped : pixelAt q4 i = pixelAt q3 i := by
  rcases h.wrapped with ⟨_, hcopy⟩ | ⟨_, rfl⟩
  · rw [hcopy.frame]; rfl
  · rfl

/-- The sprites and the border write no raw cell. -/
theorem VisibleSteps.raw_bordered : q3.raw = q1.raw := by
  have h32 : q3.raw = q2.raw := by rw [h.bordered.frame]
  rcases h.composited with ⟨_, _, r, rfl, hframe, _⟩ | ⟨_, rfl⟩
  · rw [h32, Pipeline.disarmAll_raw, hframe.frame]
  · exact h32

/-- A raw cell after a visible END (R169, R228): the line's cells are consumed, and with the tail copy each
cell takes the cell `L` places on, or zero where there is none or `L = 0`. -/
theorem VisibleSteps.readCell_raw (hL : c.linePixels ≤ c.bufPixels) (i : Nat) : readCell q4.raw i =
    if c.wrapTail = true ∧ 0 < c.linePixels ∧ i + c.linePixels < c.bufPixels then readCell p.raw (i + c.linePixels)
    else if i < c.linePixels ∨ (c.wrapTail = true ∧ i < c.bufPixels) then 0#6 else readCell p.raw i := by
  have hraw : ∀ j, readCell q3.raw j = if j < c.linePixels then 0#6 else readCell p.raw j := fun j => by
    rw [h.raw_bordered]
    simpa using h.replayed.2.raw j
  rcases h.wrapped with ⟨hw, hcopy⟩ | ⟨hw, rfl⟩
  · rw [hcopy.raw, hraw, hraw]
    grind
  · rw [hraw]
    simp [hw]

variable (h' : VisibleSteps c vf hf hopen hclose p' q1' q2' q3' q4')
include h'

theorem VisibleSteps.pixelAt_composited_congr (hspr : q1'.spr = q1.spr) (hi : i < c.linePixels)
    (hpix : pixelAt q1' i = pixelAt q1 i) : pixelAt q2' i = pixelAt q2 i := by
  have harmed := anyArmed_congr hspr
  rcases h.composited with ⟨hvf, hany, r, rfl, _, hin, _⟩ | ⟨hnone, rfl⟩
  · rcases h'.composited with ⟨_, _, r', rfl, _, hin', _⟩ | ⟨hnone', _⟩
    · have hr' := hin' i hi
      rw [layersOf_congr hspr, hpix] at hr'
      exact (hin i hi).unique (fun _ hl _ hm => layersOf_eq_of_tag_eq hl hm) hr'
    · exact absurd ⟨hvf, harmed.trans hany⟩ hnone'
  · rcases h'.composited with ⟨hvf, hany', _⟩ | ⟨_, rfl⟩
    · exact absurd ⟨hvf, harmed.symm.trans hany'⟩ hnone
    · exact hpix

/-- Two visible ENDs with the same sprites and the same window leave the same pixel in a cell that resolves alike. -/
theorem VisibleSteps.pixelAt_congr (hspr : p'.spr = p.spr) (hi : i < c.linePixels)
    (hpix : resolvedPixel c (activeAt p' i) (readCell p'.raw i) = resolvedPixel c (activeAt p i) (readCell p.raw i)) :
    pixelAt q4' i = pixelAt q4 i := by
  have hspr1 : q1'.spr = q1.spr := by rw [h'.spr_replayed, h.spr_replayed, hspr]
  have hpix1 : pixelAt q1' i = pixelAt q1 i := by rw [h'.pixelAt_replayed hi, h.pixelAt_replayed hi, hpix]
  have hpix2 := h.pixelAt_composited_congr h' hspr1 hi hpix1
  rw [h.pixelAt_wrapped, h'.pixelAt_wrapped]
  exact h.bordered.pixelAt_congr h'.bordered hpix2

/-- Two visible ENDs of pipelines with the same raw buffer leave the same raw buffer. -/
theorem VisibleSteps.raw_congr (hL : c.linePixels ≤ c.bufPixels) (hp : PipelineInv c p) (hp' : PipelineInv c p')
    (hraw : p'.raw = p.raw) : q4'.raw = q4.raw := by
  obtain ⟨hwf, _, _⟩ := (Memory.wf_iff q4).1 (hp.visibleSteps hL h).canonical
  obtain ⟨hwf', _, _⟩ := (Memory.wf_iff q4').1 (hp'.visibleSteps hL h').canonical
  exact buffer_ext hwf' hwf fun i => by rw [h.readCell_raw hL, h'.readCell_raw hL, hraw]

end

/-- The END of a visible line commits what its steps leave (R221, R226). -/
theorem exec_endLine_visible {s : State} {vpos : Position} (hr : Running s) (hL : s.config.linePixels ≤ s.config.bufPixels)
    (hi : PipelineInv s.config s.pipe) (hphase : s.pipe.phase = .inLine) (hv : s.config.firstVisibleLine ≤ vpos.toNat)
    (vf hf : Bool) (hopen hclose : Position) :
    ∃ q1 q2 q3 q4, exec (.endLine vf hf hopen hclose vpos) s = .next (commit { q4 with phase := .idle }
        [.collisionHook (cellsBelow q2.depth s.config.linePixels) (cellsBelow q2.cidx s.config.linePixels),
          .colorize vpos (cellsBelow q3.cidx s.config.linePixels)] s)
      ∧ VisibleSteps s.config vf hf hopen hclose s.pipe q1 q2 q3 q4 := by
  obtain ⟨q1, q2, q3, q4, hend, hsteps⟩ := visibleEnd_spec hL hi vf hf hopen hclose vpos
  refine ⟨q1, q2, q3, q4, ?_, hsteps⟩
  have hvisible : lineVisible s.config vpos = true := by simpa [lineVisible] using hv
  rw [exec_eq]
  exact runCommand_commits hr (by simp [commandOf, finishLine, hphase, hvisible, hend])

/-! ### One more change in the log (20_memory.md R83) -/

theorem activeAt_append_of_lt {e : LogEntry} (hi : i < e.pos) :
    activeAt { p with log := p.log ++ [e] } i = activeAt p i := by
  have hfilter : (p.log ++ [e]).filter (fun e => decide (e.pos ≤ i)) = p.log.filter (fun e => decide (e.pos ≤ i)) := by
    simp [Nat.not_le.2 hi]
  simp only [activeAt, hfilter]
  rfl

/-- Settles O42: before its position the appended change is in effect at no cell, so each cell there resolves alike. -/
theorem changesActFromTheirPosition : Obligations.ChangesActFromTheirPosition := by
  intro s e vf hf hopen hclose vpos hr hc hi hi' hphase hv
  obtain ⟨hL, _, _⟩ := hc
  obtain ⟨_, _, _, q, hq, hsteps⟩ := exec_endLine_visible hr hL hi hphase hv vf hf hopen hclose
  obtain ⟨_, _, _, q', hq', hsteps'⟩ := exec_endLine_visible
    (s := { s with pipe := { s.pipe with log := s.pipe.log ++ [e] } }) hr hL hi' hphase hv vf hf hopen hclose
  have hraw : q'.raw = q.raw := hsteps.raw_congr hsteps' hL hi hi' rfl
  refine ⟨_, _, hq, hq', hraw, fun i hpos => ?_⟩
  have hline : e.pos ≤ s.config.linePixels := hi'.logInLine e (by simp)
  have hpix := hsteps.pixelAt_congr hsteps' (i := i) rfl (by omega) (by rw [activeAt_append_of_lt hpos])
  exact ⟨congrArg Pixel.colour hpix, congrArg Pixel.tag hpix⟩

end Sys2Proof.Machine
end

section
/-! SUPPORT. What decoding and encoding say of each other: which words decode, and to what (30_encoding.md R90 to R101). -/

namespace Sys2Proof

/-! ### The registers of the map -/

/-- A register that the map gives an even offset: any register, but an unmapped one only at an even offset outside the map. -/
def Register.InMap (r : Register) : Prop := ∀ reg, r = .unmapped reg → EvenOffset reg ∧ ¬ MappedOffset reg

theorem inMap_regOf {reg : BitVec 9} (h : EvenOffset reg) : (regOf reg).InMap := fun _ => unmapped_of_regOf h

theorem inMap_unmapped {reg : BitVec 9} (h : EvenOffset reg ∧ ¬ MappedOffset reg) : (Register.unmapped reg).InMap := by
  rintro _ ⟨⟩
  exact h

theorem evenOffset_offsetOf {r : Register} (h : r.InMap) : EvenOffset (offsetOf r) := by
  cases r with
  | bplcon0 | bplcon1 | bplcon2 => rfl
  | bplDat k | sprPos k | sprCtl k | sprData k | sprDatb k | color k => clear h; decide +revert
  | unmapped reg => exact (h reg rfl).1

theorem regOf_offsetOf {r : Register} (h : r.InMap) : regOf (offsetOf r) = r := by
  cases r with
  | bplcon0 | bplcon1 | bplcon2 => rfl
  | bplDat k | sprPos k | sprCtl k | sprData k | sprDatb k | color k => clear h; decide +revert
  | unmapped reg => exact regOf_unmapped (h reg rfl).2

theorem wellFormed_pokeUnmapped {reg : BitVec 9} {pix : Position} {val : Word16} :
    (Instr.pokeUnmapped reg pix val).WellFormed ↔ EvenOffset reg ∧ ¬ MappedOffset reg := by
  rw [Instr.WellFormed, Instr.wellFormed, Bool.and_eq_true, decide_eq_true_iff, decide_eq_true_iff]

theorem wellFormed_pokeOf {r : Register} (h : r.InMap) (pix : Position) (val : Word16) : (pokeOf r pix val).WellFormed := by
  cases r with
  | bplcon0 | bplcon1 | bplcon2 => rfl
  | bplDat k | sprPos k | sprCtl k | sprData k | sprDatb k | color k => fin_cases k <;> rfl
  | unmapped reg => exact wellFormed_pokeUnmapped.2 (h reg rfl)

/-- The poke of a register is decoded from its offset (R100). -/
theorem decode_offsetOf {r : Register} (h : r.InMap) (pix : Position) (val : Word16) :
    decode (formatP pix (offsetOf r) val) = .ok (pokeOf r pix val) := by
  rw [decode_formatP pix val (evenOffset_offsetOf h), regOf_offsetOf h]

/-! ### The round trips -/

set_option maxRecDepth 4000 in
theorem decode_encode {i : Instr} (h : i.WellFormed) : decode (encode i) = .ok i := by
  cases i with
  | pokeUnmapped reg pix val =>
    exact decode_offsetOf (inMap_unmapped (wellFormed_pokeUnmapped.1 h)) pix val
  | draw hires n => exact decode_formatD hires n
  | beginLine first vpos => exact decode_formatB first vpos
  | endLine vf hf hopen hclose vpos => exact decode_formatE vf hf hopen hclose vpos
  | inspect | reset | nop => rfl
  | _ => exact decode_formatP _ _ rfl

/-- Settles O1: the word of a command is a format with the command's operands in its fields. -/
theorem decodeOfEncode : Obligations.DecodeOfEncode := fun _ => decode_encode

theorem decode_of_encode_eq {w : CommandWord} {i : Instr} (h : i.WellFormed) (hw : encode i = w) : decode w = .ok i :=
  hw ▸ decode_encode h

theorem wellFormed_of_decode {w : CommandWord} {i : Instr} (h : decode w = .ok i) : i.WellFormed := by
  obtain ⟨_, ⟨_, he, rfl⟩ | ⟨_, rfl⟩ | ⟨_, rfl⟩ | ⟨_, rfl⟩ | ⟨_, rfl⟩ | ⟨_, rfl⟩ | ⟨_, rfl⟩⟩ := decode_cases h
  · exact wellFormed_pokeOf (inMap_regOf he) _ _
  all_goals rfl

theorem encode_of_decode {w : CommandWord} {i : Instr} (h : decode w = .ok i) : encode i = w := by
  obtain ⟨hr, ⟨hc, he, rfl⟩ | ⟨hc, rfl⟩ | ⟨hc, rfl⟩ | ⟨hc, rfl⟩ | ⟨hc, rfl⟩ | ⟨hc, rfl⟩ | ⟨hc, rfl⟩⟩ := decode_cases h
  all_goals rw [hc] at hr
  · rw [encode_pokeOf, offsetOf_regOf he]
    exact formatP_fields hc hr
  · exact formatD_fields hc hr
  · exact formatB_fields hc hr
  · exact formatE_fields hc hr
  all_goals exact formatZ_fields hc hr

/-- Settles O2: a word that decodes is its format with its own fields, and nothing else is set in it. -/
theorem encodeOfDecode : Obligations.EncodeOfDecode := fun _ _ h => ⟨wellFormed_of_decode h, encode_of_decode h⟩

/-! ### The worked encodings and the register map -/

/-- Settles O5: each of the words is the word of its command. -/
theorem workedEncodings : Obligations.WorkedEncodings :=
  ⟨decode_of_encode_eq rfl rfl, decode_of_encode_eq rfl rfl, decode_of_encode_eq rfl rfl, decode_of_encode_eq rfl rfl,
    decode_of_encode_eq rfl rfl, decode_of_encode_eq rfl rfl, decode_of_encode_eq rfl rfl, decode_of_encode_eq rfl rfl,
    decode_of_encode_eq rfl rfl⟩

/-- Settles O4: the words are those of format P, and each offset is that of its register. -/
theorem registerMap : Obligations.RegisterMap := by
  intro pix val
  have decode_at : ∀ r : Register, r.InMap → decode (formatP pix (offsetOf r) val) = .ok (pokeOf r pix val) :=
    fun r h => decode_offsetOf h pix val
  exact ⟨decode_at .bplcon0 nofun, decode_at .bplcon1 nofun, decode_at .bplcon2 nofun, fun k => decode_at (.bplDat k) nofun,
    fun x => decode_at (.sprPos x) nofun, fun x => decode_at (.sprCtl x) nofun, fun x => decode_at (.sprData x) nofun,
    fun x => decode_at (.sprDatb x) nofun, fun n => decode_at (.color n) nofun,
    fun reg he hm => decode_at (.unmapped reg) (inMap_unmapped ⟨he, hm⟩)⟩

end Sys2Proof
end

section
/-! SUPPORT. Decoding is total: which words decode, said of the fields and the reserved slices of a word, and what every other
word does (30_encoding.md R96 to R98). -/

namespace Sys2Proof

variable {w : CommandWord}

/-! ### The reserved slices of each format -/

theorem extractLsb'_eq_zero_iff (start len : Nat) :
    w.extractLsb' start len = 0#len ↔ ∀ i, start ≤ i → i < start + len → w.getLsbD i = false := by
  constructor
  · intro h i hlo hhi
    have hbit := congrArg (fun v : BitVec len => v.getLsbD (i - start)) h
    simpa [show i - start < len by omega, Nat.add_sub_cancel' hlo] using hbit
  · intro h
    ext i hi
    simpa using h (start + i) (by omega) (by omega)

/-- A mask whose clear bits are the bits of some slices holds of a word exactly when those slices of the word are zero. -/
theorem reserved_iff {m : CommandWord} (slices : List (Nat × Nat))
    (hm : ∀ i < 64, m.getLsbD i = false ↔ ∃ r ∈ slices, r.1 ≤ i ∧ i < r.1 + r.2) :
    w &&& ~~~ m = 0#64 ↔ ∀ r ∈ slices, w.extractLsb' r.1 r.2 = 0#r.2 := by
  simp only [extractLsb'_eq_zero_iff]
  constructor
  · intro h r hr i hlo hhi
    rcases Nat.lt_or_ge i 64 with hi | hi
    · exact reserved_bit h ((hm i hi).2 ⟨r, hr, hlo, hhi⟩)
    · exact BitVec.getLsbD_of_ge w i hi
  · intro h
    ext i hi
    rw [BitVec.getElem_and, BitVec.getElem_not, ← BitVec.getLsbD_eq_getElem, ← BitVec.getLsbD_eq_getElem]
    cases hb : m.getLsbD i with
    | true => simp
    | false =>
      obtain ⟨r, hr, hlo, hhi⟩ := (hm i hi).1 hb
      simp [h r hr i hlo hhi]

theorem reserved_poke_iff : w &&& ~~~ formatFields cmdPoke = 0#64 ↔
    w.extractLsb' 56 4 = 0#4 ∧ w.extractLsb' 41 3 = 0#3 ∧ w.extractLsb' 16 16 = 0#16 := by
  rw [reserved_iff [(56, 4), (41, 3), (16, 16)] (by decide)]
  simp

theorem reserved_draw_iff : w &&& ~~~ formatFields cmdDraw = 0#64 ↔ w.extractLsb' 13 47 = 0#47 := by
  rw [reserved_iff [(13, 47)] (by decide)]
  simp

theorem reserved_begin_iff : w &&& ~~~ formatFields cmdBegin = 0#64 ↔
    w.extractLsb' 44 16 = 0#16 ∧ w.extractLsb' 12 20 = 0#20 := by
  rw [reserved_iff [(44, 16), (12, 20)] (by decide)]
  simp

theorem reserved_end_iff : w &&& ~~~ formatFields cmdEnd = 0#64 ↔
    w.extractLsb' 56 2 = 0#2 ∧ w.extractLsb' 12 20 = 0#20 := by
  rw [reserved_iff [(56, 2), (12, 20)] (by decide)]
  simp

/-- The formats without operands (R95). -/
theorem reserved_bare_iff : w &&& ~~~ 0xF000000000000000#64 = 0#64 ↔ w.extractLsb' 0 60 = 0#60 := by
  rw [reserved_iff [(0, 60)] (by decide)]
  simp

theorem evenOffset_fieldReg : EvenOffset (fieldReg w) ↔ w.getLsbD 32 = false := by
  simp [EvenOffset, fieldReg]

/-! ### The words that decode -/

theorem decode_poke (hc : fieldCmd w = cmdPoke) (hr : w &&& ~~~ formatFields cmdPoke = 0#64) (he : EvenOffset (fieldReg w)) :
    decode w = .ok (pokeOf (regOf (fieldReg w)) (fieldUpper w) (fieldVal w)) := by
  have h := decode_formatP (fieldUpper w) (fieldVal w) he
  rwa [formatP_fields hc hr] at h

theorem decode_draw (hc : fieldCmd w = cmdDraw) (hr : w &&& ~~~ formatFields cmdDraw = 0#64) :
    decode w = .ok (.draw (fieldHires w) (fieldLower w)) :=
  decode_of_encode_eq rfl (formatD_fields hc hr)

theorem decode_begin (hc : fieldCmd w = cmdBegin) (hr : w &&& ~~~ formatFields cmdBegin = 0#64) :
    decode w = .ok (.beginLine (fieldMiddle w) (fieldLower w)) :=
  decode_of_encode_eq rfl (formatB_fields hc hr)

theorem decode_end (hc : fieldCmd w = cmdEnd) (hr : w &&& ~~~ formatFields cmdEnd = 0#64) :
    decode w = .ok (.endLine (fieldVf w) (fieldHf w) (fieldUpper w) (fieldMiddle w) (fieldLower w)) :=
  decode_of_encode_eq rfl (formatE_fields hc hr)

theorem decode_bare {cmd : BitVec 4} {i : Instr} (hi : i.WellFormed) (hw : encode i = formatZ cmd) (hc : fieldCmd w = cmd)
    (hr : w.extractLsb' 0 60 = 0#60) : decode w = .ok i :=
  decode_of_encode_eq hi (hw.trans (formatZ_fields hc (reserved_bare_iff.2 hr)))

/-! ### The words that do not -/

/-- A word with an undefined `CMD`, a reserved field that is not zero or, for a poke, an odd `REG` (R96 to R98). -/
def IllegalWord (w : CommandWord) : Prop :=
  (6 ≤ (w.extractLsb' 60 4).toNat ∧ (w.extractLsb' 60 4).toNat ≤ 14)
    ∨ ((w.extractLsb' 60 4 = 0x0#4 ∨ w.extractLsb' 60 4 = 0x5#4 ∨ w.extractLsb' 60 4 = 0xF#4) ∧ w.extractLsb' 0 60 ≠ 0#60)
    ∨ (w.extractLsb' 60 4 = 0x1#4
        ∧ (w.extractLsb' 56 4 ≠ 0#4 ∨ w.extractLsb' 41 3 ≠ 0#3 ∨ w.extractLsb' 16 16 ≠ 0#16 ∨ w.getLsbD 32 = true))
    ∨ (w.extractLsb' 60 4 = 0x2#4 ∧ w.extractLsb' 13 47 ≠ 0#47)
    ∨ (w.extractLsb' 60 4 = 0x3#4 ∧ (w.extractLsb' 44 16 ≠ 0#16 ∨ w.extractLsb' 12 20 ≠ 0#20))
    ∨ (w.extractLsb' 60 4 = 0x4#4 ∧ (w.extractLsb' 56 2 ≠ 0#2 ∨ w.extractLsb' 12 20 ≠ 0#20))

/-- A word that decodes is not illegal: for each command that its `CMD` names, its reserved slices are zero. -/
theorem not_illegal_of_decode {i : Instr} (h : decode w = .ok i) : ¬ IllegalWord w := by
  obtain ⟨hr, hcmd⟩ := decode_cases h
  unfold IllegalWord
  rcases hcmd with ⟨hc, he, _⟩ | ⟨hc, _⟩ | ⟨hc, _⟩ | ⟨hc, _⟩ | ⟨hc, _⟩ | ⟨hc, _⟩ | ⟨hc, _⟩
  all_goals
    rw [hc] at hr
    rw [show w.extractLsb' 60 4 = _ from hc]
  · obtain ⟨h1, h2, h3⟩ := reserved_poke_iff.1 hr
    rw [evenOffset_fieldReg.1 he]
    simp [cmdPoke, h1, h2, h3]
  · simp [cmdDraw, reserved_draw_iff.1 hr]
  · obtain ⟨h1, h2⟩ := reserved_begin_iff.1 hr
    simp [cmdBegin, h1, h2]
  · obtain ⟨h1, h2⟩ := reserved_end_iff.1 hr
    simp [cmdEnd, h1, h2]
  · simp [cmdInspect, reserved_bare_iff.1 hr]
  · simp [cmdReset, reserved_bare_iff.1 hr]
  · simp [cmdNop, reserved_bare_iff.1 hr]

theorem step_of_illegal {s : Machine.State} {rest : List CommandWord} (h : IllegalWord w) (hrun : Machine.Running s)
    (hp : s.pending = w :: rest) :
    Machine.step s = .next (({ s with pending := rest } : Machine.State).faultedWith .illegalCommand (.word w)) := by
  cases hd : decode w with
  | ok i => exact absurd h (not_illegal_of_decode hd)
  | error e => exact Machine.step_of_decode_error hp hd hrun

/-- Settles O3: a word whose reserved slices are zero is its format with its own fields, and a word that decodes is not
illegal. -/
theorem decodingIsTotal : Obligations.DecodingIsTotal := by
  intro w
  refine ⟨decode_bare rfl rfl, ?poke, ?draw, ?beginLine, ?endLine, decode_bare rfl rfl, decode_bare rfl rfl, ?illegal⟩
  case poke => exact fun hc h1 h2 h3 he => decode_poke hc (reserved_poke_iff.2 ⟨h1, h2, h3⟩) (evenOffset_fieldReg.2 he)
  case draw => exact fun hc h => decode_draw hc (reserved_draw_iff.2 h)
  case beginLine => exact fun hc h1 h2 => decode_begin hc (reserved_begin_iff.2 ⟨h1, h2⟩)
  case endLine => exact fun hc h1 h2 => decode_end hc (reserved_end_iff.2 ⟨h1, h2⟩)
  case illegal => exact fun h => ⟨fun _ hd => not_illegal_of_decode hd h, fun _ _ hrun hp => step_of_illegal h hrun hp⟩

end Sys2Proof
end

section
/-! SUPPORT. The pseudo-instructions: running commands one after another, and what the pokes they are made of do
(30_encoding.md R104). -/

namespace Sys2Proof.Machine

variable {c : Config} {p q : Pipeline} {s t : State} {i : Instr} {rest : List Instr} {events : List Event}

/-! ### Running commands one after another -/

theorem execAll_cons (h : exec i s = .next t) : execAll (i :: rest) s = execAll rest t := by
  rw [execAll, h]

theorem execAll_singleton (h : exec i s = .next t) : execAll [i] s = .next t := execAll_cons h

theorem exec_commits (hr : Running s) (hc : commandOf i s.config s.pipe = .ok (q, events)) :
    exec i s = .next (commit q events s) := by
  rw [exec_eq, runCommand_commits hr hc]

/-- A command that emits nothing only changes the pipeline. -/
theorem exec_silent (hr : Running s) (hc : commandOf i s.config s.pipe = .ok (q, [])) :
    exec i s = .next { s with pipe := q } := by
  rw [exec_commits hr hc, commit, List.append_nil]

/-! ### The pokes -/

theorem commandOf_pokeSprPos (x : Fin 8) (pix : Position) (val : Word16) :
    commandOf (pokeSprPos x pix val) = pokeSpritePos x val := by
  fin_cases x <;> rfl

theorem commandOf_pokeSprCtl (x : Fin 8) (pix : Position) (val : Word16) :
    commandOf (pokeSprCtl x pix val) = pokeSpriteCtl x val := by
  fin_cases x <;> rfl

theorem commandOf_pokeSprData (x : Fin 8) (pix : Position) (val : Word16) :
    commandOf (pokeSprData x pix val) = pokeSpriteData x val := by
  fin_cases x <;> rfl

theorem commandOf_pokeSprDatb (x : Fin 8) (pix : Position) (val : Word16) :
    commandOf (pokeSprDatb x pix val) = pokeSpriteDatb x val := by
  fin_cases x <;> rfl

theorem exec_pokeSprPos (x : Fin 8) (pix : Position) (val : Word16) (hr : Running s) :
    exec (pokeSprPos x pix val) s = .next { s with pipe := s.pipe.setSprite x { s.pipe.sprite x with
      hstart := 0#2 ++ val.extractLsb' 0 8 ++ (s.pipe.sprite x).hstart.extractLsb' 0 1 } } :=
  exec_silent hr (by rw [commandOf_pokeSprPos]; rfl)

theorem exec_pokeSprCtl (x : Fin 8) (pix : Position) (val : Word16) (hr : Running s) :
    exec (pokeSprCtl x pix val) s = .next { s with pipe := s.pipe.setSprite x { s.pipe.sprite x with
      hstart := (s.pipe.sprite x).hstart.extractLsb' 1 10 ++ val.extractLsb' 0 1, attach := val.getLsbD 7 } } :=
  exec_silent hr (by rw [commandOf_pokeSprCtl]; rfl)

theorem exec_pokeSprData (x : Fin 8) (pix : Position) (val : Word16) (hr : Running s) :
    exec (pokeSprData x pix val) s
      = .next { s with pipe := s.pipe.setSprite x { s.pipe.sprite x with dataA := val, armed := true } } :=
  exec_silent hr (by rw [commandOf_pokeSprData]; rfl)

theorem exec_pokeSprDatb (x : Fin 8) (pix : Position) (val : Word16) (hr : Running s) :
    exec (pokeSprDatb x pix val) s = .next { s with pipe := s.pipe.setSprite x { s.pipe.sprite x with dataB := val } } :=
  exec_silent hr (by rw [commandOf_pokeSprDatb]; rfl)

/-! ### SPRITE -/

theorem setSprite_setSprite (p : Pipeline) (x : Fin 8) (sp sp' : Sprite) :
    (p.setSprite x sp).setSprite x sp' = p.setSprite x sp' := by
  simp [Pipeline.setSprite]

/-- The start that POS and CTL of `SPRITE` write together: bits 8:1 and bit 0. -/
theorem spriteSetup_hstart (h : BitVec 9) (att old : BitVec 1) :
    (0#2 ++ (0#8 ++ h.extractLsb' 1 8).extractLsb' 0 8 ++ old).extractLsb' 1 10
      ++ (0#8 ++ att ++ 0#6 ++ h.extractLsb' 0 1).extractLsb' 0 1 = 0#2 ++ h := by
  ext i hi
  simp only [← BitVec.getLsbD_eq_getElem, BitVec.getLsbD_append, BitVec.getLsbD_extractLsb']
  interval_cases i <;> simp

theorem spriteSetup_attach (h : BitVec 9) (att : BitVec 1) :
    (0#8 ++ att ++ 0#6 ++ h.extractLsb' 0 1).getLsbD 7 = att.getLsbD 0 := by
  simp only [BitVec.getLsbD_append]
  simp

/-- POS and CTL of `SPRITE` write the start and the attach flag whole. -/
theorem execAll_spriteStart (x : Fin 8) (h : BitVec 9) (att : BitVec 1) (hr : Running s) :
    execAll (pokeSprPos x 0#12 (0#8 ++ h.extractLsb' 1 8)
        :: pokeSprCtl x 0#12 (0#8 ++ att ++ 0#6 ++ h.extractLsb' 0 1) :: rest) s
      = execAll rest { s with pipe := s.pipe.setSprite x { s.pipe.sprite x with
          hstart := 0#2 ++ h, attach := att.getLsbD 0 } } := by
  rw [execAll_cons (exec_pokeSprPos x _ _ hr), execAll_cons (exec_pokeSprCtl x _ _ (by exact hr)),
    setSprite_setSprite, Pipeline.sprite_setSprite, if_pos rfl, spriteSetup_hstart, spriteSetup_attach]

/-- DATA and DATB of `SPRITE` write different fields of the sprite, in either order. -/
theorem execAll_spriteWords (x : Fin 8) (a b : Word16) (hr : Running s) :
    execAll [pokeSprDatb x 0#12 b, pokeSprData x 0#12 a] s
        = .next { s with pipe := s.pipe.setSprite x { s.pipe.sprite x with dataA := a, dataB := b, armed := true } }
      ∧ execAll [pokeSprData x 0#12 a, pokeSprDatb x 0#12 b] s
        = .next { s with pipe := s.pipe.setSprite x { s.pipe.sprite x with dataA := a, dataB := b, armed := true } } := by
  constructor
  · rw [execAll_cons (exec_pokeSprDatb x _ _ hr), execAll_cons (exec_pokeSprData x _ _ (by exact hr)),
      setSprite_setSprite, Pipeline.sprite_setSprite, if_pos rfl, execAll]
  · rw [execAll_cons (exec_pokeSprData x _ _ hr), execAll_cons (exec_pokeSprDatb x _ _ (by exact hr)),
      setSprite_setSprite, Pipeline.sprite_setSprite, if_pos rfl, execAll]

/-! ### LOADPLANES -/

theorem commandOf_pokeBplDat (k : Fin 6) (pix : Position) (val : Word16) :
    commandOf (pokeBplDat k pix val) = loadPlane k val := by
  fin_cases k <;> rfl

/-- The shift registers after a data poke of plane `k` (40_shift_pipeline.md R120). -/
def loadLow (regs : Vector (BitVec 32) 6) (k : Fin 6) (val : Word16) : Vector (BitVec 32) 6 :=
  regs.set k ((regs[k]).extractLsb' 16 16 ++ val)

theorem getElem_loadLow (regs : Vector (BitVec 32) 6) (k l : Fin 6) (val : Word16) :
    (loadLow regs k val)[l] = if k = l then (regs[l]).extractLsb' 16 16 ++ val else regs[l] := by
  simp only [loadLow, Fin.getElem_fin, Vector.getElem_set, Fin.ext_iff]
  split
  · next h => simp only [h]
  · rfl

theorem exec_pokeBplDat (k : Fin 6) (pix : Position) (val : Word16) (hr : Running s) :
    exec (pokeBplDat k pix val) s = .next { s with pipe := { s.pipe with shiftReg := loadLow s.pipe.shiftReg k val } } :=
  exec_silent hr (by rw [commandOf_pokeBplDat]; rfl)

/-! ### SETSCROLL -/

theorem pokeSecondary_idle (pix : Position) (val : Word16) (hp : p.phase = .idle) :
    pokeSecondary pix val c p = .ok ({ p with bplcon1 := val }, []) := by
  rw [pokeSecondary, recordChange_idle hp]
  rfl

theorem execAll_setScroll (odd even : BitVec 4) (pix : Position) (hr : Running s) (hp : s.pipe.phase = .idle) :
    execAll (setScroll odd even pix) s = .next { s with pipe := { s.pipe with bplcon1 := 0#8 ++ even ++ odd } } :=
  execAll_singleton (exec_silent hr (pokeSecondary_idle pix _ hp))

theorem scroll_setScroll (odd even : BitVec 4) (k : Fin 6) :
    scroll (0#8 ++ even ++ odd) k = if k.val % 2 = 0 then odd.toNat else even.toNat := by
  have hodd : pf1h (0#8 ++ even ++ odd) = odd := BitVec.extractLsb'_append_eq_right
  have heven : pf2h (0#8 ++ even ++ odd) = even := by
    rw [pf2h, BitVec.extractLsb'_append_eq_of_le (by decide)]
    exact BitVec.extractLsb'_append_eq_right
  rw [scroll, hodd, heven]

/-! ### SETPRIO -/

theorem pokeTertiary_idle (pix : Position) {val : Word16} (hp : p.phase = .idle) (hv : PriorityAccepted c val) :
    pokeTertiary pix val c p = .ok ({ p with bplcon2 := val }, []) := by
  rw [pokeTertiary, checkPriority_ok hv, recordChange_idle hp]
  rfl

section
variable (p1 p2 : BitVec 3) (f : BitVec 1)

theorem pf1p_setPrio : pf1p (0#9 ++ f ++ p2 ++ p1) = p1 := BitVec.extractLsb'_append_eq_right

theorem pf2p_setPrio : pf2p (0#9 ++ f ++ p2 ++ p1) = p2 := by
  rw [pf2p, BitVec.extractLsb'_append_eq_of_le (by decide)]
  exact BitVec.extractLsb'_append_eq_right

theorem pf2pri_setPrio : pf2pri (0#9 ++ f ++ p2 ++ p1) = f.getLsbD 0 := by
  simp only [pf2pri, BitVec.getLsbD_append]
  simp

theorem priorityAccepted_setPrio (h1 : p1.toNat < 5) (h2 : p2.toNat < 5) : PriorityAccepted c (0#9 ++ f ++ p2 ++ p1) := by
  intro _
  rw [reservedPriority, pf1p_setPrio, pf2p_setPrio]
  simp [h1, h2]

end

theorem execAll_setPrio (p1 p2 : BitVec 3) (f : BitVec 1) (pix : Position) (hr : Running s) (hp : s.pipe.phase = .idle)
    (h1 : p1.toNat < 5) (h2 : p2.toNat < 5) :
    execAll (setPrio p1 p2 f pix) s = .next { s with pipe := { s.pipe with bplcon2 := 0#9 ++ f ++ p2 ++ p1 } } :=
  execAll_singleton (exec_silent hr (pokeTertiary_idle pix hp (priorityAccepted_setPrio p1 p2 f h1 h2)))

/-! ### BLANKLINE -/

theorem exec_beginLine_idle (first vpos : Position) (hr : Running s) (hp : s.pipe.phase = .idle) :
    exec (.beginLine first vpos) s = .next { s with pipe := { s.pipe with
      cursor := first.toNat, snap0 := s.pipe.bplcon0, snap1 := s.pipe.bplcon1, snap2 := s.pipe.bplcon2
      log := [], lineVpos := vpos, phase := .inLine } } :=
  exec_silent hr (by rw [commandOf, startLine, hp])

theorem exec_endLine_nonVisible (vf hf : Bool) (hopen hclose : Position) {vpos : Position} (hr : Running s)
    (hp : s.pipe.phase = .inLine) (hv : vpos.toNat < s.config.firstVisibleLine) :
    exec (.endLine vf hf hopen hclose vpos) s = .next { s with
      pipe := { s.pipe with log := [], phase := .idle }, trace := s.trace ++ [.debugOverlay vpos] } := by
  have hnot : lineVisible s.config vpos = false := decide_eq_false (Nat.not_le.2 hv)
  exact exec_commits hr (by rw [commandOf, finishLine, hp, hnot]; rfl)

theorem execAll_blankLine {v : Position} (hr : Running s) (hp : s.pipe.phase = .idle)
    (hv : v.toNat < s.config.firstVisibleLine) :
    execAll (blankLine v) s = .next { s with
      pipe := { s.pipe with
        cursor := 0, snap0 := s.pipe.bplcon0, snap1 := s.pipe.bplcon1, snap2 := s.pipe.bplcon2
        log := [], lineVpos := v, phase := .idle }
      trace := s.trace ++ [.debugOverlay v] } := by
  rw [blankLine, execAll_cons (exec_beginLine_idle 0#12 v hr hp)]
  exact execAll_singleton (exec_endLine_nonVisible false false unset unset hr rfl hv)

/-- Settles O50: the values the two control pokes write are read back slice by slice, and the two line commands write none of
the sprites, the shift registers and the buffers. -/
theorem pseudoInstructions : Obligations.PseudoInstructions := by
  intro s hr hp
  refine ⟨fun odd even pix => ⟨_, execAll_setScroll odd even pix hr hp, scroll_setScroll odd even⟩,
    fun p1 p2 f pix h1 h2 => ⟨_, execAll_setPrio p1 p2 f pix hr hp h1 h2, ?_, ?_, pf2pri_setPrio p1 p2 f⟩,
    fun v hv => ⟨_, execAll_blankLine hr hp hv, rfl, rfl, rfl, rfl, rfl, rfl⟩⟩
  · exact congrArg _ (pf1p_setPrio p1 p2 f)
  · exact congrArg _ (pf2p_setPrio p1 p2 f)

end Sys2Proof.Machine

/-! The two theorems below stand in `Sys2Proof`: in `Machine` their names are those of the pseudo-instructions. -/

namespace Sys2Proof

open Machine

/-- Settles O48: the start comes from POS and CTL together, and the two data pokes write different fields. -/
theorem spriteSetup : Obligations.SpriteSetup := by
  intro s x h a b att hr
  rw [Machine.spriteSetup, execAll_spriteStart x h att hr, execAll_spriteStart x h att hr]
  obtain ⟨datbFirst, dataFirst⟩ := execAll_spriteWords (s := { s with pipe := s.pipe.setSprite x { s.pipe.sprite x with
    hstart := 0#2 ++ h, attach := att.getLsbD 0 } }) x a b hr
  refine ⟨datbFirst.trans ?_, dataFirst.trans datbFirst.symm⟩
  rw [setSprite_setSprite, Pipeline.sprite_setSprite, if_pos rfl]
  rfl

/-- Settles O49: each poke replaces the low word of its own plane. -/
theorem loadPlanes : Obligations.LoadPlanes := by
  intro s w1 w2 w3 w4 w5 w6 hr
  have hrun : Machine.loadPlanes w1 w2 w3 w4 w5 w6 = [pokeBplDat 5 0#12 w6, pokeBplDat 4 0#12 w5, pokeBplDat 3 0#12 w4,
    pokeBplDat 2 0#12 w3, pokeBplDat 1 0#12 w2, pokeBplDat 0 0#12 w1] := rfl
  rw [hrun, execAll_cons (exec_pokeBplDat 5 _ _ hr),
    execAll_cons (exec_pokeBplDat 4 _ _ (by exact hr)), execAll_cons (exec_pokeBplDat 3 _ _ (by exact hr)),
    execAll_cons (exec_pokeBplDat 2 _ _ (by exact hr)), execAll_cons (exec_pokeBplDat 1 _ _ (by exact hr)),
    execAll_cons (exec_pokeBplDat 0 _ _ (by exact hr))]
  refine ⟨_, rfl, fun k => ?_⟩
  simp only [getElem_loadLow]
  fin_cases k <;> rfl

end Sys2Proof
end

section
/-! SUPPORT. The shift pipeline (40_shift_pipeline.md): what running DRAW does to the machine, and which fields of the
pipeline it reads. -/

namespace Sys2Proof.Machine

variable {c : Config} {s : State} {hires : Bool} {n : Position}

/-- Settles O18: the poke is the load of the low word, for whichever plane. -/
theorem bitplaneDataPoke : Obligations.BitplaneDataPoke := fun _ k pix val hr => exec_pokeBplDat k pix val hr

/-! ### What a draw does -/

/-- What a draw leaves of the pipeline, field by field (R124, R128). -/
theorem DrawnFrom.shiftPlanes {pixel : Nat → ColourIndex} {p q : Pipeline} (h : DrawnFrom pixel hires n.toNat p q) :
    Machine.shiftPlanes n.toNat q = { p with
      raw := q.raw
      cursor := p.cursor + drawCells hires n
      shiftReg := p.shiftReg.map (fun v : BitVec 32 => v <<< n.toNat) } := by
  have hregs : (Machine.shiftPlanes n.toNat p).shiftReg = p.shiftReg.map (fun v : BitVec 32 => v <<< n.toNat) := by
    refine Pipeline.shiftReg_ext (q := { p with shiftReg := p.shiftReg.map _ }) fun k => ?_
    rw [Pipeline.plane_shiftPlanes]
    simp [Pipeline.plane]
  rw [h.frame, drawCells_eq, ← hregs]
  rfl

theorem exec_draw_fits (hr : Running s) (hfit : s.pipe.cursor + drawCells hires n ≤ s.config.bufPixels) :
    ∃ q, exec (.draw hires n) s = .next { s with pipe := shiftPlanes n.toNat q }
      ∧ DrawnFrom (pixelValue s.pipe) hires n.toNat s.pipe q := by
  obtain ⟨q, hq, hdrawn⟩ := drawPixels_spec hfit
  exact ⟨q, exec_silent hr hq, hdrawn⟩

theorem exec_draw_faults (hr : Running s) (hfit : s.config.bufPixels < s.pipe.cursor + drawCells hires n) :
    exec (.draw hires n) s = .next (s.faultedWith .drawOutOfBounds (.drawAt s.pipe.cursor n hires)) := by
  rw [exec_eq]
  exact runCommand_faults hr (drawPixels_faults hfit)

/-- The pixel of the draw that cell `j` from the cursor on shows (R125). -/
theorem div_cellsPerPixel (hires : Bool) (j : Nat) : j / cellsPerPixel hires = if hires then j else j / 2 := by
  cases hires <;> simp [cellsPerPixel]

theorem DrawnFrom.readCell_drawn {pixel : Nat → ColourIndex} {p q : Pipeline} {j : Nat}
    (h : DrawnFrom pixel hires n.toNat p q) (hj : j < drawCells hires n) :
    readCell q.raw (p.cursor + j) = pixel (if hires then j else j / 2) := by
  rw [drawCells_eq] at hj
  rw [h.raw, if_pos (by omega), Nat.add_sub_cancel_left, div_cellsPerPixel]

theorem DrawnFrom.readCell_kept {pixel : Nat → ColourIndex} {p q : Pipeline} {i : Nat}
    (h : DrawnFrom pixel hires n.toNat p q) (hi : i < p.cursor ∨ p.cursor + drawCells hires n ≤ i) :
    readCell q.raw i = readCell p.raw i := by
  rw [drawCells_eq] at hi
  rw [h.raw, if_neg (by omega)]

theorem scroll_eq (bplcon1 : Word16) (k : Fin 6) :
    scroll bplcon1 k = (if k.val % 2 = 0 then bplcon1.extractLsb' 0 4 else bplcon1.extractLsb' 4 4).toNat :=
  (apply_ite BitVec.toNat _ _ _).symm

/-! ### What a draw reads -/

/-- The fields of `p` that a draw reads or writes (R123, R124), laid over the other fields of `r`. -/
def Pipeline.overlayDraw (r p : Pipeline) : Pipeline :=
  { r with bplcon1 := p.bplcon1, shiftReg := p.shiftReg, cursor := p.cursor, raw := p.raw }

/-- A loop whose rounds commute with a map of its state commutes with it. -/
theorem loopUp_map {σ τ : Type} {body : Nat → σ → Except Raise σ} {body' : Nat → τ → Except Raise τ} (g : σ → τ)
    (hbody : ∀ i t, body' i (g t) = (body i t).map g) (count : Nat) :
    ∀ (start : Nat) (t : σ), loopUp body' start count (g t) = (loopUp body start count t).map g := by
  induction count with
  | zero => intro start t; rfl
  | succ count ih =>
    intro start t
    rw [loopUp, loopUp, hbody]
    cases body start t with
    | error r => rfl
    | ok u => exact ih (start + 1) u

theorem drawPixel_overlayDraw (r p : Pipeline) (v : ColourIndex) :
    drawPixel c hires v (r.overlayDraw p) = (drawPixel c hires v p).map r.overlayDraw := by
  have hraw : (r.overlayDraw p).raw = p.raw := rfl
  have hcursor : (r.overlayDraw p).cursor = p.cursor := rfl
  unfold drawPixel
  rw [hraw, hcursor]
  cases bufWrite c p.raw p.cursor v with
  | error e => cases hires <;> rfl
  | ok raw =>
    cases hires with
    | true => rfl
    | false => simp only [ok_bind]; cases bufWrite c raw (p.cursor + 1) v <;> rfl

/-- A draw sees and leaves of the pipeline only the fields it is said to. -/
theorem drawPixels_overlayDraw (r p : Pipeline) :
    drawPixels hires n c (r.overlayDraw p) = (drawPixels hires n c p).map (Prod.map r.overlayDraw id) := by
  rcases Nat.lt_or_ge c.bufPixels (p.cursor + drawCells hires n) with hfit | hfit
  · rw [drawPixels_faults hfit, drawPixels_faults (p := r.overlayDraw p) hfit]
    rfl
  · have hloop := loopUp_map (body := fun i q => drawPixel c hires (pixelValue p i) q) r.overlayDraw
      (fun i t => drawPixel_overlayDraw r t (pixelValue p i)) n.toNat 0 p
    have hcursor : (r.overlayDraw p).cursor = p.cursor := rfl
    have hpixel : pixelValue (r.overlayDraw p) = pixelValue p := rfl
    simp only [drawPixels, hcursor, hpixel, Nat.not_lt.2 hfit, if_false, forRange, Nat.sub_zero, hloop]
    cases loopUp (fun i q => drawPixel c hires (pixelValue p i) q) 0 n.toNat p <;> rfl

/-- Settles O20: a draw commutes with replacing the fields it has no part in. -/
theorem drawIgnoresOtherRegisters : Obligations.DrawIgnoresOtherRegisters := by
  intro s t hires n b0 b2 s0 s1 s2 spr log phase hr h
  have hover := drawPixels_overlayDraw (c := s.config) (hires := hires) (n := n) { s.pipe with
    bplcon0 := b0, bplcon2 := b2, snap0 := s0, snap1 := s1, snap2 := s2, spr := spr, log := log, phase := phase } s.pipe
  rw [exec_eq] at h ⊢
  rcases runCommand_cases h with ⟨hf, _⟩ | ⟨_, q, events, hq, rfl⟩ | ⟨_, r, hq, rfl⟩
  · exact absurd hr hf
  · obtain ⟨hframe, _⟩ := drawPixels_frame hq
    rw [show drawPixels hires n s.config s.pipe = .ok (q, events) from hq] at hover
    rw [runCommand_commits (by exact hr) hover, commit_pipe, hframe]
    rfl
  · rw [show drawPixels hires n s.config s.pipe = .error r from hq] at hover
    rw [runCommand_faults (by exact hr) hover]
    rfl

end Sys2Proof.Machine

/-! The theorem below stands in `Sys2Proof`: in `Machine` its name is that of the command DRAW runs. -/

namespace Sys2Proof

open Machine

/-- Settles O19: the bounds check decides between the fault and the pixels of the registers as the draw found them. -/
theorem drawPixels : Obligations.DrawPixels := by
  intro s hires n hr
  refine ⟨fun hfit => ?_, exec_draw_faults hr⟩
  obtain ⟨q, hexec, hdrawn⟩ := exec_draw_fits hr hfit
  refine ⟨q.raw, ?_, fun j hj k => ?_, fun i hi => hdrawn.readCell_kept hi⟩
  · rw [hexec, hdrawn.shiftPlanes]
    rfl
  · rw [hdrawn.readCell_drawn hj, pixelValue_getLsbD, planeBit, scroll_eq]
    rfl

end Sys2Proof
end

section
/-! SUPPORT. What the END of a line depends on: the pixel buffers, the sprites, and at each cell the resolution under the values
in effect there (45_scanline_orchestrator.md R226). -/

namespace Sys2Proof.Machine

variable {c : Config} {p p' q : Pipeline} {i : Nat} {vf hf : Bool} {hopen hclose vpos : Position} {events : List Event}

theorem cellsBelow_congr {w : Nat} {a b : Buffer w} {n : Nat} (h : ∀ i, i < n → readCell a i = readCell b i) :
    cellsBelow a n = cellsBelow b n :=
  List.map_congr_left fun i hi => h i (List.mem_range.1 hi)

theorem disarmAll_spr_congr (hspr : p'.spr = p.spr) : p'.disarmAll.spr = p.disarmAll.spr :=
  Pipeline.spr_ext fun x => by simp only [Pipeline.sprite_disarmAll, Pipeline.sprite_congr hspr]

/-! ### A visible END -/

section
variable {q1 q2 q3 q4 q1' q2' q3' q4' : Pipeline}
variable (h : VisibleSteps c vf hf hopen hclose p q1 q2 q3 q4)
include h

/-- The sprites after a visible END (R195, R199). -/
theorem VisibleSteps.spr : q4.spr = if vf = true ∧ anyArmed p = true then p.disarmAll.spr else p.spr := by
  have h43 : q4.spr = q3.spr := by
    rcases h.wrapped with ⟨_, hcopy⟩ | ⟨_, rfl⟩
    · rw [hcopy.frame]
    · rfl
  have h32 : q3.spr = q2.spr := by rw [h.bordered.frame]
  rw [h43, h32, ← anyArmed_congr h.spr_replayed]
  rcases h.composited with ⟨hvf, hany, r, rfl, hframe, _⟩ | ⟨hnone, rfl⟩
  · have hr : r.spr = q1.spr := by rw [hframe.frame]
    rw [if_pos ⟨hvf, hany⟩, disarmAll_spr_congr (hr.trans h.spr_replayed)]
  · rw [if_neg hnone, h.spr_replayed]

variable (h' : VisibleSteps c vf hf hopen hclose p' q1' q2' q3' q4')
include h'

theorem VisibleSteps.spr_congr (hspr : p'.spr = p.spr) : q4'.spr = q4.spr := by
  rw [h.spr, h'.spr, anyArmed_congr hspr, disarmAll_spr_congr hspr, hspr]

/-- Two visible ENDs with the same sprites hand the collision hook the same pixel of a cell that resolves alike (R197). -/
theorem VisibleSteps.pixelAt_hook_congr (hspr : p'.spr = p.spr) (hi : i < c.linePixels)
    (hpix : resolvedPixel c (activeAt p' i) (readCell p'.raw i) = resolvedPixel c (activeAt p i) (readCell p.raw i)) :
    pixelAt q2' i = pixelAt q2 i := by
  refine h.pixelAt_composited_congr h' ?_ hi ?_
  · rw [h'.spr_replayed, h.spr_replayed, hspr]
  · rw [h'.pixelAt_replayed hi, h.pixelAt_replayed hi, hpix]

/-- Two visible ENDs that leave the same pixels in the line leave the same colour indices and depths. -/
theorem VisibleSteps.picture_congr (hL : c.linePixels ≤ c.bufPixels) (hp : PipelineInv c p) (hp' : PipelineInv c p')
    (hpix : ∀ i, i < c.linePixels → pixelAt q4' i = pixelAt q4 i) : q4'.cidx = q4.cidx ∧ q4'.depth = q4.depth := by
  have hinv := hp.visibleSteps hL h
  have hinv' := hp'.visibleSteps hL h'
  have hall : ∀ i, pixelAt q4' i = pixelAt q4 i := fun i => by
    rcases Nat.lt_or_ge i c.linePixels with hi | hi
    · exact hpix i hi
    · simp only [pixelAt, hinv.cidxTail i hi, hinv.depthTail i hi, hinv'.cidxTail i hi, hinv'.depthTail i hi]
  obtain ⟨_, hcidx, hdepth⟩ := (Memory.wf_iff q4).1 hinv.canonical
  obtain ⟨_, hcidx', hdepth'⟩ := (Memory.wf_iff q4').1 hinv'.canonical
  exact ⟨buffer_ext hcidx' hcidx fun i => congrArg Pixel.colour (hall i),
    buffer_ext hdepth' hdepth fun i => congrArg Pixel.tag (hall i)⟩

end

/-- Two pipelines with the same raw buffer and sprites whose cells resolve alike: a visible END leaves the same buffers and
sprites, and emits the same events. -/
theorem visibleEnd_congr (hL : c.linePixels ≤ c.bufPixels) (hp : PipelineInv c p) (hp' : PipelineInv c p')
    (hraw : p'.raw = p.raw) (hspr : p'.spr = p.spr)
    (hactive : ∀ i, resolvedPixel c (activeAt p' i) = resolvedPixel c (activeAt p i))
    (h : visibleEnd c vf hf hopen hclose vpos p = .ok (q, events)) :
    visibleEnd c vf hf hopen hclose vpos p' = .ok ({ p' with
      raw := q.raw, cidx := q.cidx, depth := q.depth, spr := q.spr, log := [] }, events) := by
  obtain ⟨q1, q2, q3, q4, hend, hsteps⟩ := visibleEnd_spec hL hp vf hf hopen hclose vpos
  obtain ⟨q1', q2', q3', q4', hend', hsteps'⟩ := visibleEnd_spec hL hp' vf hf hopen hclose vpos
  obtain ⟨rfl, rfl⟩ := Prod.mk.inj (Except.ok.inj (h.symm.trans hend))
  have hpix : ∀ i, i < c.linePixels → resolvedPixel c (activeAt p' i) (readCell p'.raw i)
      = resolvedPixel c (activeAt p i) (readCell p.raw i) := fun i _ => by rw [hactive, hraw]
  have hpix2 : ∀ i, i < c.linePixels → pixelAt q2' i = pixelAt q2 i := fun i hi =>
    hsteps.pixelAt_hook_congr hsteps' hspr hi (hpix i hi)
  have hpix3 : ∀ i, i < c.linePixels → pixelAt q3' i = pixelAt q3 i := fun i hi =>
    hsteps.bordered.pixelAt_congr hsteps'.bordered (hpix2 i hi)
  obtain ⟨hcidx, hdepth⟩ := hsteps.picture_congr hsteps' hL hp hp' fun i hi =>
    hsteps.pixelAt_congr hsteps' hspr hi (hpix i hi)
  have hhookDepth := cellsBelow_congr fun i hi => congrArg Pixel.tag (hpix2 i hi)
  have hhookShown := cellsBelow_congr fun i hi => congrArg Pixel.colour (hpix2 i hi)
  have hpicture := cellsBelow_congr fun i hi => congrArg Pixel.colour (hpix3 i hi)
  obtain ⟨hframe, _⟩ := visibleEnd_frame hend'
  rw [hsteps.raw_congr hsteps' hL hp hp' hraw, hcidx, hdepth, hsteps.spr_congr hsteps' hspr] at hframe
  rw [hend', hframe]
  rw [hhookDepth, hhookShown, hpicture]

/-- The same of any END inside a line. -/
theorem finishLine_congr (hL : c.linePixels ≤ c.bufPixels) (hp : PipelineInv c p) (hp' : PipelineInv c p')
    (hbuffers : p'.raw = p.raw ∧ p'.cidx = p.cidx ∧ p'.depth = p.depth) (hspr : p'.spr = p.spr) (hphase : p'.phase = p.phase)
    (hactive : ∀ i, resolvedPixel c (activeAt p' i) = resolvedPixel c (activeAt p i))
    (h : finishLine vf hf hopen hclose vpos c p = .ok (q, events)) :
    finishLine vf hf hopen hclose vpos c p' = .ok ({ p' with
      raw := q.raw, cidx := q.cidx, depth := q.depth, spr := q.spr, log := [], phase := .idle }, events) := by
  obtain ⟨hraw, hcidx, hdepth⟩ := hbuffers
  obtain ⟨hline, _, _⟩ := finishLine_frame h
  simp only [finishLine, hline, bind_eq_ok_iff, pure_eq_ok, Except.ok.injEq, Prod.mk.injEq] at h
  obtain ⟨⟨r, _⟩, hr, rfl, rfl⟩ := h
  rw [finishLine, hphase, hline]
  cases hv : lineVisible c vpos with
  | true =>
    rw [hv, if_pos rfl] at hr
    simp only [if_true, visibleEnd_congr hL hp hp' hraw hspr hactive hr, ok_bind, pure_eq_ok]
  | false =>
    rw [hv] at hr
    cases hr
    simp only [nonVisibleEnd, ← hraw, ← hcidx, ← hdepth, ← hspr]
    rfl

/-- END inside a line completes (R221). -/
theorem finishLine_completes (hL : c.linePixels ≤ c.bufPixels) (hp : PipelineInv c p) (hline : p.phase = .inLine)
    (vf hf : Bool) (hopen hclose vpos : Position) :
    ∃ q events, finishLine vf hf hopen hclose vpos c p = .ok (q, events) := by
  obtain ⟨_, _, _, q, hend, _⟩ := visibleEnd_spec hL hp vf hf hopen hclose vpos
  rw [finishLine, hline]
  cases hv : lineVisible c vpos with
  | true => simp only [if_true, hend, ok_bind]; exact ⟨_, _, rfl⟩
  | false => exact ⟨_, _, rfl⟩

theorem exec_endLine_commits {s : State} (hr : Running s)
    (h : finishLine vf hf hopen hclose vpos s.config s.pipe = .ok (q, events)) :
    exec (.endLine vf hf hopen hclose vpos) s = .next (commit q events s) :=
  exec_commits (i := .endLine vf hf hopen hclose vpos) hr h

/-! ### Other BPLCON1 values in the log (41_change_log.md R148) -/

/-- The entry with another value if it is one of BPLCON1. -/
def rescrolled (f : LogEntry → Word16) (e : LogEntry) : LogEntry := if e.reg = .bplcon1 then { e with value := f e } else e

@[simp] theorem rescrolled_reg (f : LogEntry → Word16) (e : LogEntry) : (rescrolled f e).reg = e.reg := by
  unfold rescrolled; split <;> rfl

@[simp] theorem rescrolled_pos (f : LogEntry → Word16) (e : LogEntry) : (rescrolled f e).pos = e.pos := by
  unfold rescrolled; split <;> rfl

theorem rescrolled_of_ne {e : LogEntry} (f : LogEntry → Word16) (h : e.reg ≠ .bplcon1) : rescrolled f e = e := if_neg h

/-- The pipeline with other BPLCON1 values, live, in the snapshot and in the log. -/
def Pipeline.rescroll (p : Pipeline) (live snap : Word16) (f : LogEntry → Word16) : Pipeline :=
  { p with bplcon1 := live, snap1 := snap, log := p.log.map (rescrolled f) }

theorem PipelineInv.rescroll (hp : PipelineInv c p) (live snap : Word16) (f : LogEntry → Word16) :
    PipelineInv c (p.rescroll live snap f) :=
  { hp with
    logOrdered := List.pairwise_map.2 (by simpa using hp.logOrdered)
    logInLine := by simpa [Pipeline.rescroll] using hp.logInLine
    logFits := by simpa [Pipeline.rescroll] using hp.logFits
    logTargets := by simpa [Pipeline.rescroll] using hp.logTargets
    idleLogEmpty := fun h => by simpa [Pipeline.rescroll] using hp.idleLogEmpty h }

/-- The values the resolution reads are the same. -/
def ActiveValues.ResolvesLike (a b : ActiveValues) : Prop := a.a0 = b.a0 ∧ a.a2 = b.a2

theorem ActiveValues.ResolvesLike.applyEntry {a b : ActiveValues} (h : a.ResolvesLike b) (f : LogEntry → Word16) (e : LogEntry) :
    (applyEntry (rescrolled f e) a).ResolvesLike (applyEntry e b) := by
  obtain ⟨h0, h2⟩ := h
  cases hreg : e.reg with
  | bplcon1 => simp [Machine.applyEntry, hreg, ResolvesLike, h0, h2]
  | bplcon0 | bplcon2 | noReg =>
    rw [rescrolled_of_ne f (by simp [hreg])]
    simp [Machine.applyEntry, hreg, ResolvesLike, h0, h2]

theorem ActiveValues.ResolvesLike.resolvedPixel {a b : ActiveValues} (h : a.ResolvesLike b) :
    resolvedPixel c a = resolvedPixel c b := by
  funext v
  rw [Machine.resolvedPixel, Machine.resolvedPixel, h.1, h.2]

theorem activeAt_rescroll (p : Pipeline) (live snap : Word16) (f : LogEntry → Word16) (i : Nat) :
    (activeAt (p.rescroll live snap f) i).ResolvesLike (activeAt p i) := by
  have hfilter : (p.log.map (rescrolled f)).filter (fun e => decide (e.pos ≤ i))
      = (p.log.filter (fun e => decide (e.pos ≤ i))).map (rescrolled f) := by
    simp [List.filter_map, Function.comp_def]
  simp only [activeAt, Pipeline.rescroll, hfilter, List.foldl_map]
  exact List.foldl_rel (r := ActiveValues.ResolvesLike) ⟨rfl, rfl⟩ fun e _ _ _ h => h.applyEntry f e

/-- Settles O44: under the values in effect every cell resolves alike, so the END leaves the same buffers and sprites. -/
theorem scrollHasNoPartInEnd : Obligations.ScrollHasNoPartInEnd := by
  intro s t live snap f vf hf hopen hclose vpos hr hc hp hline h
  obtain ⟨hL, _, _⟩ := hc
  obtain ⟨q, events, hq⟩ := finishLine_completes hL hp hline vf hf hopen hclose vpos
  have hq' := finishLine_congr hL hp (hp.rescroll live snap f) ⟨rfl, rfl, rfl⟩ rfl rfl
    (fun i => (activeAt_rescroll s.pipe live snap f i).resolvedPixel) hq
  obtain ⟨_, hclosed, _⟩ := finishLine_frame hq
  rw [exec_endLine_commits hr hq] at h
  cases h
  refine (exec_endLine_commits (s := { s with pipe := s.pipe.rescroll live snap f }) hr hq').trans ?_
  rw [commit_pipe, hclosed.frame]
  rfl

end Sys2Proof.Machine
end

section
/-! SUPPORT. The register change log (41_change_log.md): what a control register poke does (R140 to R143), and that a change
which another one of the same register at the same position follows has no effect (R151). -/

namespace Sys2Proof.Machine

variable {c : Config} {p : Pipeline} {s : State} {i : Instr}

/-! ### Control register pokes -/

theorem exec_faults {code : FaultCode} {info : FaultInfo} (hr : Running s)
    (hc : commandOf i s.config s.pipe = .error ⟨code, info⟩) : exec i s = .next (s.faultedWith code info) := by
  rw [exec_eq, runCommand_faults hr hc]
  rfl

/-- A command that records a change and then writes a register is a control poke: its outcome follows the checks of R143. -/
theorem controlPoke_of_record {reg : LogReg} {val : Word16} {pos : Nat} {write : Pipeline → Pipeline} (hr : Running s)
    (hcommand : commandOf i s.config s.pipe = (recordChange s.config reg val pos s.pipe >>= fun q => .ok (write q, []))) :
    ControlPoke s reg val pos write (exec i s) where
  idle hphase := exec_silent hr (by rw [hcommand, recordChange_idle hphase]; rfl)
  recorded hphase hpos hlast hroom :=
    exec_silent hr (by rw [hcommand, recordChange_appends hphase fun _ => ⟨hpos, hlast, hroom⟩]; rfl)
  position hphase hpos := exec_faults hr (by rw [hcommand, recordChange_position hphase hpos]; rfl)
  order hphase hpos _ hlast hbefore := exec_faults hr (by rw [hcommand, recordChange_order hphase hpos hlast hbefore]; rfl)
  overflow hphase hpos hlast hfull := exec_faults hr (by rw [hcommand, recordChange_overflow hphase hpos hlast hfull]; rfl)

/-- Settles O21: both pokes record the change and then write the live register. -/
theorem controlPokes : Obligations.ControlPokes :=
  fun _ _ _ hr => ⟨controlPoke_of_record hr rfl, controlPoke_of_record hr rfl⟩

theorem reservedPriority_iff (val : Word16) :
    reservedPriority val = true ↔ 5 ≤ (val.extractLsb' 0 3).toNat ∨ 5 ≤ (val.extractLsb' 3 3).toNat := by
  rw [reservedPriority, Bool.or_eq_true, decide_eq_true_iff, decide_eq_true_iff]
  rfl

theorem priorityAccepted_iff (val : Word16) : PriorityAccepted c val ↔
    c.prioReservedPolicy = .clamp4 ∨ ((val.extractLsb' 0 3).toNat < 5 ∧ (val.extractLsb' 3 3).toNat < 5) := by
  rw [PriorityAccepted, ← Bool.not_eq_true, reservedPriority_iff, not_or, Nat.not_le, Nat.not_le]
  cases c.prioReservedPolicy <;> simp

/-- Settles O22: the priority check faults, or it passes the value on to be recorded and written. -/
theorem priorityPoke : Obligations.PriorityPoke := by
  intro s pix val hr
  refine ⟨fun hpolicy hcode => exec_faults hr ?_, fun haccepted => controlPoke_of_record hr ?_⟩
  · rw [commandOf, pokeTertiary, checkPriority_faults hpolicy ((reservedPriority_iff val).2 hcode)]
    rfl
  · rw [commandOf, pokeTertiary, checkPriority_ok ((priorityAccepted_iff val).2 haccepted)]
    rfl

/-! ### Changes that have no effect (R151) -/

/-- A change of a register undoes an earlier one of the same register. -/
theorem applyEntry_overwrites {e f : LogEntry} (h : e.reg = f.reg) (a : ActiveValues) :
    applyEntry f (applyEntry e a) = applyEntry f a := by
  simp only [applyEntry, h]
  cases f.reg <;> rfl

theorem applyEntry_comm {e f : LogEntry} (h : e.reg ≠ f.reg) (a : ActiveValues) :
    applyEntry f (applyEntry e a) = applyEntry e (applyEntry f a) := by
  cases he : e.reg with
  | noReg => simp [applyEntry, he]
  | bplcon0 | bplcon1 | bplcon2 => cases hf : f.reg <;> simp_all [applyEntry]

/-- Values that the change `f` makes equal stay so under any other change before it. -/
theorem applyEntry_congr {f : LogEntry} {a b : ActiveValues} (h : applyEntry f a = applyEntry f b) (e : LogEntry) :
    applyEntry f (applyEntry e a) = applyEntry f (applyEntry e b) := by
  by_cases hreg : e.reg = f.reg
  · rw [applyEntry_overwrites hreg, applyEntry_overwrites hreg, h]
  · rw [applyEntry_comm hreg, applyEntry_comm hreg, h]

theorem activeFrom_append (a : ActiveValues) (log more : List LogEntry) (n : Nat) :
    activeFrom a (log ++ more) n = activeFrom (activeFrom a log n) more n := by
  simp [activeFrom]

theorem activeFrom_singleton (a : ActiveValues) (e : LogEntry) (n : Nat) :
    activeFrom a [e] n = if e.pos ≤ n then applyEntry e a else a := by
  by_cases h : e.pos ≤ n <;> simp [activeFrom, h]

theorem applyEntry_activeFrom_congr {f : LogEntry} {a b : ActiveValues} (h : applyEntry f a = applyEntry f b)
    (log : List LogEntry) (n : Nat) : applyEntry f (activeFrom a log n) = applyEntry f (activeFrom b log n) :=
  List.foldl_rel (r := fun a b => applyEntry f a = applyEntry f b) h fun e _ _ _ h => applyEntry_congr h e

/-- The values in effect at a cell are the same without a change that another one of its register at its position follows. -/
theorem activeFrom_overwritten {e f : LogEntry} (hpos : e.pos = f.pos) (hreg : e.reg = f.reg) (a : ActiveValues)
    (before between later : List LogEntry) (n : Nat) :
    activeFrom a (before ++ [e] ++ between ++ [f] ++ later) n = activeFrom a (before ++ between ++ [f] ++ later) n := by
  simp only [activeFrom_append, activeFrom_singleton, hpos]
  by_cases hn : f.pos ≤ n
  · rw [if_pos hn, if_pos hn, if_pos hn, applyEntry_activeFrom_congr (applyEntry_overwrites hreg _)]
  · rw [if_neg hn, if_neg hn, if_neg hn]

theorem PipelineInv.sublist {log : List LogEntry} (hi : PipelineInv c p) (h : log.Sublist p.log) :
    PipelineInv c { p with log := log } :=
  { hi with
    logOrdered := hi.logOrdered.sublist h
    logInLine := fun e he => hi.logInLine e (h.subset he)
    logFits := h.length_le.trans hi.logFits
    logTargets := fun e he => hi.logTargets e (h.subset he)
    idleLogEmpty := fun hphase => List.eq_nil_of_sublist_nil (hi.idleLogEmpty hphase ▸ h) }

/-- An END with a shorter log does the same when every cell has the same values in effect. -/
theorem exec_endLine_log_congr {log : List LogEntry} (hr : Running s) (hL : s.config.linePixels ≤ s.config.bufPixels)
    (hi : PipelineInv s.config s.pipe) (hphase : s.pipe.phase = .inLine) (hlog : log.Sublist s.pipe.log)
    (hactive : ∀ n, activeAt { s.pipe with log := log } n = activeAt s.pipe n) (vf hf : Bool) (hopen hclose vpos : Position) :
    exec (.endLine vf hf hopen hclose vpos) { s with pipe := { s.pipe with log := log } }
      = exec (.endLine vf hf hopen hclose vpos) s := by
  obtain ⟨q, events, hq⟩ := finishLine_completes hL hi hphase vf hf hopen hclose vpos
  have hq' := finishLine_congr hL hi (hi.sublist hlog) ⟨rfl, rfl, rfl⟩ rfl rfl (fun n => by rw [hactive]) hq
  obtain ⟨_, hclosed, _⟩ := finishLine_frame hq
  rw [exec_endLine_commits hr hq, hclosed.frame]
  exact exec_endLine_commits (s := { s with pipe := { s.pipe with log := log } }) hr hq'

/-- Settles O43: the values in effect at each cell are the same without the first of the two changes. -/
theorem lastChangeAtAPositionWins : Obligations.LastChangeAtAPositionWins := by
  intro s before between later e f vf hf hopen hclose vpos hr hc hi hphase hlog hpos hreg
  obtain ⟨hL, _, _⟩ := hc
  refine (exec_endLine_log_congr hr hL hi hphase ?_ (fun n => ?_) vf hf hopen hclose vpos).symm
  · rw [hlog]
    simp
  · rw [activeAt_eq, activeAt_eq, hlog, activeFrom_overwritten hpos hreg]
    rfl

end Sys2Proof.Machine
end

section
/-! SUPPORT. The picture of a visible line, cell by cell: the cells after the compositor, which the collision hook shows, and
what the border leaves of them (43_sprite_compositor.md R194, R197, 44_border_synthesizer.md R210, R212). -/

namespace Sys2Proof.Machine

variable {c : Config} {p : Pipeline} {i : Nat}

theorem pairLayers_unarmed (h : ∀ x, (p.sprite x).armed = false) (pair : Fin 4) : pairLayers p pair = [] := by
  simp [pairLayers, attached, h]

/-- Unarmed sprites have no layers (R194, R199). -/
theorem layersOf_unarmed (h : ¬ anyArmed p = true) (order : List (Fin 4)) : layersOf p order = [] := by
  have hunarmed : ∀ x, (p.sprite x).armed = false := by simpa [anyArmed] using h
  exact List.flatMap_eq_nil_iff.2 fun pair _ => pairLayers_unarmed hunarmed pair

section
variable {vf hf : Bool} {hopen hclose : Position} {q1 q2 q3 q4 : Pipeline}
variable (h : VisibleSteps c vf hf hopen hclose p q1 q2 q3 q4)
include h

theorem VisibleSteps.cidx_wrapped : q4.cidx = q3.cidx := by
  rcases h.wrapped with ⟨_, hcopy⟩ | ⟨_, rfl⟩
  · rw [hcopy.frame]
  · rfl

/-- The border and the tail copy write no depth (R212). -/
theorem VisibleSteps.depth_composited : q4.depth = q2.depth := by
  have hborder : q3.depth = q2.depth := by rw [h.bordered.frame]
  rcases h.wrapped with ⟨_, hcopy⟩ | ⟨_, rfl⟩
  · rw [hcopy.frame, hborder]
  · exact hborder

/-- With the vertical display enabled a cell of the line shows the sprites' layers over its resolved pixel (R198). -/
theorem VisibleSteps.composited_enabled (hvf : vf = true) (hi : i < c.linePixels) :
    Composited (layersOf p pairOrder) i (resolvedPixel c (activeAt p i) (readCell p.raw i)) (pixelAt q2 i) := by
  rw [← h.pixelAt_replayed hi, ← layersOf_congr h.spr_replayed]
  rcases h.composited with ⟨_, _, r, rfl, _, hin, _⟩ | ⟨hnone, rfl⟩
  · exact hin i hi
  · rw [layersOf_unarmed fun harmed => hnone ⟨hvf, harmed⟩]
    exact composited_nil i _

theorem VisibleSteps.pixelAt_composited_disabled (hvf : vf = false) (hi : i < c.linePixels) :
    pixelAt q2 i = resolvedPixel c (activeAt p i) (readCell p.raw i) := by
  rw [← h.pixelAt_replayed hi]
  rcases h.composited with ⟨hvf', _⟩ | ⟨_, rfl⟩
  · exact absurd (hvf.symm.trans hvf') Bool.false_ne_true
  · rfl

end

/-- Settles O39: the collision hook shows the cells after the compositor, and the picture those after the border. -/
theorem visibleEndPicture : Obligations.VisibleEndPicture := by
  intro s t vf hf hopen hclose vpos hr hc hinv hphase hv hexec
  obtain ⟨hL, _, _⟩ := hc
  obtain ⟨q1, q2, q3, q4, hend, hsteps⟩ := exec_endLine_visible hr hL hinv hphase hv vf hf hopen hclose
  obtain rfl := Host.Outcome.next.inj (hexec.symm.trans hend)
  simp only [commit_pipe, hsteps.depth_composited, hsteps.cidx_wrapped]
  refine ⟨q2.cidx, cellsBelow q3.cidx s.config.linePixels, rfl, cellsBelow_length _ _, fun i hi => ⟨?_, ?_, ?_, ?_, ?_⟩⟩
  · simp [cellsBelow, hi]
  · exact fun hvf => hsteps.composited_enabled hvf hi
  · exact fun hvf => hsteps.pixelAt_composited_disabled hvf hi
  · exact fun hborder => hsteps.bordered.filled i ⟨hi, hborder⟩
  · exact fun hinside => hsteps.bordered.kept i fun hborder => hinside hborder.2

end Sys2Proof.Machine
end

section
/-! SUPPORT. The depth tags of the priority codes, the priorities of a BPLCON2 value (42_playfield_resolver.md R160, R161), and
what the order of the tags means (R163). -/

namespace Sys2Proof.Machine

variable (c : Config)

/-! ### The priority function (R161) -/

@[simp] theorem priorityTag_zero : priorityTag c 0#3 = 0x8000#16 := rfl
@[simp] theorem priorityTag_one : priorityTag c 1#3 = 0x1000#16 := rfl
@[simp] theorem priorityTag_two : priorityTag c 2#3 = 0x0200#16 := rfl
@[simp] theorem priorityTag_three : priorityTag c 3#3 = 0x0040#16 := rfl
@[simp] theorem priorityTag_four : priorityTag c 4#3 = 0x0008#16 := rfl

/-- The codes that have a tag under either policy. -/
theorem legalCode_cases {code : BitVec 3} (h : code.toNat ≤ 4) :
    code = 0#3 ∨ code = 1#3 ∨ code = 2#3 ∨ code = 3#3 ∨ code = 4#3 := by decide +revert

theorem reservedCode_cases {code : BitVec 3} (h : 5 ≤ code.toNat) : code = 5#3 ∨ code = 6#3 ∨ code = 7#3 := by
  decide +revert

/-- A reserved code counts as code 4 under `CLAMP4`. -/
theorem priorityTag_reserved {code : BitVec 3} (h : 5 ≤ code.toNat) (hc : c.prioReservedPolicy = .clamp4) :
    priorityTag c code = 0x0008#16 := by
  rcases reservedCode_cases h with rfl | rfl | rfl <;> simp [priorityTag, hc, z4]

theorem prio12_toNat (v : Word16) : (prio12 c v).toNat = max (prio1 c v).toNat (prio2 c v).toNat := by
  rw [prio12]
  split
  · next h => exact (max_eq_right (BitVec.le_of_lt h)).symm
  · next h => exact (max_eq_left (BitVec.not_lt.1 h)).symm

/-- Settles O23: the tags code by code, and the fields of the value. -/
theorem priorityFunction : Obligations.PriorityFunction := by
  intro c v
  refine ⟨fun code => ?_, rfl, rfl, prio12_toNat c v, rfl⟩
  exact ⟨fun h => h ▸ priorityTag_zero c, fun h => h ▸ priorityTag_one c, fun h => h ▸ priorityTag_two c,
    fun h => h ▸ priorityTag_three c, fun h => h ▸ priorityTag_four c, priorityTag_reserved c⟩

/-! ### The order of the tags (R163) -/

theorem priorityTag_lt_sprTag_iff {code : BitVec 3} (h : code.toNat ≤ 4) (x : Fin 8) :
    priorityTag c code < sprTag x ↔ x.val / 2 < code.toNat := by
  rcases legalCode_cases h with rfl | rfl | rfl | rfl | rfl <;>
    simp only [priorityTag_zero, priorityTag_one, priorityTag_two, priorityTag_three, priorityTag_four]
  all_goals decide +revert

theorem sprTag_lt_sprTag_iff (x y : Fin 8) : sprTag y < sprTag x ↔ x < y := by decide +revert

/-- Bit 0, the dual-playfield marker's, is in no sprite's tag. -/
theorem two_dvd_sprTag (x : Fin 8) : 2 ∣ (sprTag x).toNat := by decide +revert

/-- Setting bit 0 moves no tag past an even one. -/
theorem marked_lt_sprTag_iff (tag : DepthTag) (x : Fin 8) : tag ||| 0x0001#16 < sprTag x ↔ tag < sprTag x := by
  rw [BitVec.lt_def, BitVec.lt_def, ← Nat.div_mul_cancel (two_dvd_sprTag x), ← Nat.div_lt_iff_lt_mul Nat.two_pos,
    ← Nat.div_lt_iff_lt_mul Nat.two_pos, BitVec.toNat_or, Nat.or_div_two]
  change tag.toNat / 2 ||| 0 < _ ↔ _
  rw [Nat.or_zero]

theorem marker_lt_sprTag (x : Fin 8) : 0x0001#16 < sprTag x := by decide +revert

theorem background_lt_sprTag (x : Fin 8) : 0x0000#16 < sprTag x := by decide +revert

/-- Settles O24: the tags compared, and bit 0 in no sprite's tag. -/
theorem priorityOrder : Obligations.PriorityOrder := fun c _ x hcode =>
  ⟨priorityTag_lt_sprTag_iff c hcode x, marked_lt_sprTag_iff _ x, sprTag_lt_sprTag_iff x, marker_lt_sprTag x,
    background_lt_sprTag x⟩

end Sys2Proof.Machine
end

section
/-! SUPPORT. What a raw value resolves to in either mode (42_playfield_resolver.md R164, R165, R167), and the colour indices the
playfields and the sprites produce (R171, 43_sprite_compositor.md R192). -/

namespace Sys2Proof.Machine

variable {c : Config} {a : ActiveValues} {bplcon2 : Word16} {v : ColourIndex}

theorem resolvedPixel_single (h : a.a0.getLsbD 10 = false) : resolvedPixel c a v = singlePixel c a.a2 v := by
  rw [resolvedPixel, dblpf, h, if_neg Bool.false_ne_true]

theorem resolvedPixel_dual (h : a.a0.getLsbD 10 = true) : resolvedPixel c a v = dualPixel c a.a2 v := by
  rw [resolvedPixel, dblpf, h, if_pos rfl]

/-- Settles O26: the two cases of the depth. -/
theorem singlePlayfieldPixel : Obligations.SinglePlayfieldPixel := by
  intro c a v h
  rw [resolvedPixel_single h]
  exact ⟨rfl, fun hv => if_neg (not_not_intro hv), fun hv => if_pos hv⟩

/-! ### Dual-playfield mode -/

/-- A pixel of playfield 1 (R165). -/
def frontPixel1 (c : Config) (bplcon2 : Word16) (v : ColourIndex) : Pixel :=
  ⟨(playfield1 v).setWidth 6, prio1 c bplcon2 ||| zDpf⟩

/-- A pixel of playfield 2, whose colours start at 8 (R165). -/
def frontPixel2 (c : Config) (bplcon2 : Word16) (v : ColourIndex) : Pixel :=
  ⟨(playfield2 v).setWidth 6 + 8#6, prio2 c bplcon2 ||| zDpf⟩

@[simp] theorem frontPixel1_tag : (frontPixel1 c bplcon2 v).tag = prio1 c bplcon2 ||| 0x0001#16 := rfl
@[simp] theorem frontPixel2_tag : (frontPixel2 c bplcon2 v).tag = prio2 c bplcon2 ||| 0x0001#16 := rfl

@[simp] theorem frontPixel1_colour : (frontPixel1 c bplcon2 v).colour.toNat = (playfield1 v).toNat :=
  BitVec.toNat_setWidth_of_le (by decide)

@[simp] theorem frontPixel2_colour : (frontPixel2 c bplcon2 v).colour.toNat = (playfield2 v).toNat + 8 := by
  have hwidth : ((playfield2 v).setWidth 6).toNat = (playfield2 v).toNat := BitVec.toNat_setWidth_of_le (by decide)
  rw [frontPixel2, BitVec.toNat_add_of_lt (by rw [hwidth]; simp; omega), hwidth]
  rfl

theorem dualPixel_neither (h1 : playfield1 v = 0#3) (h2 : playfield2 v = 0#3) : dualPixel c bplcon2 v = ⟨0#6, 0x0001#16⟩ := by
  simp [dualPixel, h1, h2, zDpf]

theorem dualPixel_first (h1 : playfield1 v ≠ 0#3) (h2 : playfield2 v = 0#3) :
    dualPixel c bplcon2 v = frontPixel1 c bplcon2 v := by
  simp [dualPixel, h1, h2, frontPixel1]

theorem dualPixel_second (h1 : playfield1 v = 0#3) (h2 : playfield2 v ≠ 0#3) :
    dualPixel c bplcon2 v = frontPixel2 c bplcon2 v := by
  simp [dualPixel, h1, h2, frontPixel2]

/-- Where both playfields have a colour the front flag decides (R168). -/
theorem dualPixel_both (h1 : playfield1 v ≠ 0#3) (h2 : playfield2 v ≠ 0#3) :
    dualPixel c bplcon2 v = if pf2pri bplcon2 = true then frontPixel2 c bplcon2 v else frontPixel1 c bplcon2 v := by
  simp [dualPixel, h1, h2, frontPixel1, frontPixel2]

/-- Settles O25: row by row, with the front playfield's pixel. -/
theorem dualPlayfieldTable : Obligations.DualPlayfieldTable := by
  rintro c a v _ _ h rfl rfl
  rw [resolvedPixel_dual h]
  refine ⟨dualPixel_neither, fun h1 h2 => ?_, fun h1 h2 => ?_, fun h1 h2 hfront => ?_, fun h1 h2 hfront => ?_⟩
  · rw [dualPixel_first h1 h2]
    exact ⟨frontPixel1_colour, frontPixel1_tag⟩
  · rw [dualPixel_second h1 h2]
    exact ⟨frontPixel2_colour, frontPixel2_tag⟩
  · rw [dualPixel_both h1 h2, pf2pri, if_pos hfront]
    exact ⟨frontPixel2_colour, frontPixel2_tag⟩
  · rw [dualPixel_both h1 h2, pf2pri, hfront, if_neg Bool.false_ne_true]
    exact ⟨frontPixel1_colour, frontPixel1_tag⟩

/-! ### Colour ranges -/

/-- A pixel of dual-playfield mode is the background's, playfield 1's, or playfield 2's with a colour of its own. -/
theorem dualPixel_cases (c : Config) (bplcon2 : Word16) (v : ColourIndex) :
    dualPixel c bplcon2 v = ⟨0#6, 0x0001#16⟩ ∨ dualPixel c bplcon2 v = frontPixel1 c bplcon2 v
      ∨ playfield2 v ≠ 0#3 ∧ dualPixel c bplcon2 v = frontPixel2 c bplcon2 v := by
  by_cases h1 : playfield1 v = 0#3 <;> by_cases h2 : playfield2 v = 0#3
  · exact .inl (dualPixel_neither h1 h2)
  · exact .inr (.inr ⟨h2, dualPixel_second h1 h2⟩)
  · exact .inr (.inl (dualPixel_first h1 h2))
  · rw [dualPixel_both h1 h2]
    split
    · exact .inr (.inr ⟨h2, rfl⟩)
    · exact .inr (.inl rfl)

theorem dualPixel_colour_range (c : Config) (bplcon2 : Word16) (v : ColourIndex) :
    (dualPixel c bplcon2 v).colour.toNat ≤ 7
      ∨ 9 ≤ (dualPixel c bplcon2 v).colour.toNat ∧ (dualPixel c bplcon2 v).colour.toNat ≤ 15 := by
  rcases dualPixel_cases c bplcon2 v with h | h | ⟨h2, h⟩
  · rw [h]
    exact .inl (Nat.zero_le 7)
  · rw [h, frontPixel1_colour]
    omega
  · rw [h, frontPixel2_colour]
    bv_omega

theorem independentColour_toNat {sp : Sprite} {j : Nat} (pair : Fin 4) (h : code2 sp j ≠ 0#2) :
    (independentColour pair sp j).toNat = 16 + 4 * pair.val + (code2 sp j).toNat := by
  rw [independentColour, if_neg h, baseColour, BitVec.toNat_add, BitVec.toNat_ofNat,
    BitVec.toNat_setWidth_of_le (by decide)]
  omega

theorem attachedColour_toNat {e o : Sprite} {j : Nat} (h : code4 e o j ≠ 0#4) :
    (attachedColour e o j).toNat = 16 + (code4 e o j).toNat := by
  rw [attachedColour, if_neg h, BitVec.toNat_add, BitVec.toNat_ofNat, BitVec.toNat_setWidth_of_le (by decide)]
  omega

/-- Settles O27: an opaque pixel's colour is its base plus its non-zero code. -/
theorem colourRanges : Obligations.ColourRanges := by
  refine ⟨fun c a v h => ?_, fun pair sp j => ?_, fun e o j => ?_⟩
  · rw [resolvedPixel_dual h]
    exact dualPixel_colour_range c a.a2 v
  · by_cases h : code2 sp j = 0#2
    · exact .inl (if_pos h)
    · rw [independentColour_toNat pair h]
      bv_omega
  · by_cases h : code4 e o j = 0#4
    · exact .inl (if_pos h)
    · rw [attachedColour_toNat h]
      bv_omega

end Sys2Proof.Machine
end

section
/-! SUPPORT. The raw buffer after a visible line (42_playfield_resolver.md R169, 45_scanline_orchestrator.md R228). -/

namespace Sys2Proof.Machine

/-- Settles O40: the three clauses are the cases of a raw cell after the steps of the END. -/
theorem visibleEndTail : Obligations.VisibleEndTail := by
  intro s t vf hf hopen hclose vpos hr hc hinv hphase hv hexec i hi
  obtain ⟨hL, _, _⟩ := hc
  obtain ⟨_, _, _, q, hend, hsteps⟩ := exec_endLine_visible hr hL hinv hphase hv vf hf hopen hclose
  obtain rfl := Host.Outcome.next.inj (hexec.symm.trans hend)
  rw [commit_pipe, hsteps.readCell_raw hL]
  refine ⟨fun hwrap hpos hcopy => ?_, fun hwrap hlast => ?_, fun hwrap => ?_⟩
  · rw [if_pos ⟨hwrap, hpos, hcopy⟩]
  · rw [if_neg (by omega), if_pos (.inr ⟨hwrap, hi⟩)]
  · simp [hwrap]

end Sys2Proof.Machine
end

section
/-! SUPPORT. The sprite pokes (43_sprite_compositor.md R180 to R183). -/

namespace Sys2Proof.Machine

/-- Settles O28: a running pipeline completes the poke, which sets the one sprite. -/
theorem spritePositionPoke : Obligations.SpritePositionPoke := fun _ x pix val hr => exec_pokeSprPos x pix val hr

/-- Settles O29: a running pipeline completes the poke, which sets the one sprite. -/
theorem spriteControlPoke : Obligations.SpriteControlPoke := fun _ x pix val hr => exec_pokeSprCtl x pix val hr

/-- Settles O30: a running pipeline completes the poke, which sets the one sprite. -/
theorem spriteDataPoke : Obligations.SpriteDataPoke := fun _ x pix val hr => exec_pokeSprData x pix val hr

/-- Settles O31: a running pipeline completes the poke, which sets the one sprite. -/
theorem spriteDatbPoke : Obligations.SpriteDatbPoke := fun _ x pix val hr => exec_pokeSprDatb x pix val hr

end Sys2Proof.Machine
end

section
/-! SUPPORT. The sprite compositor (43_sprite_compositor.md): the layers of a pair and their colour codes (R185 to R189), the
`armed` flags (R195), and the order of the pairs (R198). -/

namespace Sys2Proof.Machine

variable {c : Config} {p q q' : Pipeline} {s t : State}

/-! ### The layers of a pair (R185 to R189) -/

theorem attached_iff {e o : Sprite} : attached e o = true ↔
    o.attach = true ∧ e.hstart = o.hstart ∧ (e.armed = true ∨ o.armed = true) := by
  simp [attached, and_assoc]

theorem patternBit_pixel {j : Nat} (hj : j < 16) (armed : Bool) (word : Word16) :
    patternBit armed word j = BitVec.ofBool (armed && word.getLsbD (15 - j)) := by
  simp [patternBit, Nat.le_of_lt_succ hj]

/-- The 4-bit code of a pixel of an attached pair (R189), the even sprite's bits its low ones. -/
theorem code4_toNat {j : Nat} (hj : j < 16) (e o : Sprite) : (code4 e o j).toNat =
    (e.armed && e.dataA.getLsbD (15 - j)).toNat + 2 * (e.armed && e.dataB.getLsbD (15 - j)).toNat
      + 4 * (o.armed && o.dataA.getLsbD (15 - j)).toNat + 8 * (o.armed && o.dataB.getLsbD (15 - j)).toNat := by
  simp only [code4, patternBit_pixel hj, BitVec.append_ofBool, BitVec.toNat_concat, BitVec.toNat_ofBool]
  omega

/-- The 2-bit code of a pixel of an armed sprite (R187). -/
theorem code2_toNat {j : Nat} (hj : j < 16) {sp : Sprite} (harmed : sp.armed = true) :
    (code2 sp j).toNat = (sp.dataA.getLsbD (15 - j)).toNat + 2 * (sp.dataB.getLsbD (15 - j)).toNat := by
  simp only [code2, patternBit_pixel hj, BitVec.append_ofBool, BitVec.toNat_concat, BitVec.toNat_ofBool, harmed,
    Bool.true_and]
  omega

/-- The colour of a pixel of an attached pair, transparent ones included (R189, R194). -/
theorem attachedColour_toNat_eq_ite (e o : Sprite) (j : Nat) :
    (attachedColour e o j).toNat = if (code4 e o j).toNat = 0 then 0 else 16 + (code4 e o j).toNat := by
  by_cases h : code4 e o j = 0#4
  · simp [attachedColour, h]
  · have hcode : (code4 e o j).toNat ≠ 0 := fun h0 => h (BitVec.eq_of_toNat_eq h0)
    rw [attachedColour_toNat h, if_neg hcode]

/-- The colour of a pixel of a sprite drawn on its own, transparent ones included (R187, R194). -/
theorem independentColour_toNat_eq_ite (pair : Fin 4) (sp : Sprite) (j : Nat) :
    (independentColour pair sp j).toNat = if (code2 sp j).toNat = 0 then 0 else 16 + 4 * pair.val + (code2 sp j).toNat := by
  by_cases h : code2 sp j = 0#2
  · simp [independentColour, h]
  · have hcode : (code2 sp j).toNat ≠ 0 := fun h0 => h (BitVec.eq_of_toNat_eq h0)
    rw [independentColour_toNat pair h, if_neg hcode]

theorem pairLayers_attached {pair : Fin 4} (h : attached (p.sprite (evenSprite pair)) (p.sprite (oddSprite pair)) = true) :
    pairLayers p pair = [⟨(p.sprite (evenSprite pair)).hstart.toNat, sprTag (evenSprite pair),
      attachedColour (p.sprite (evenSprite pair)) (p.sprite (oddSprite pair))⟩] := by
  rw [pairLayers, if_pos h]

theorem pairLayers_independent {pair : Fin 4}
    (h : ¬ attached (p.sprite (evenSprite pair)) (p.sprite (oddSprite pair)) = true) :
    pairLayers p pair =
      (if (p.sprite (oddSprite pair)).armed then [⟨(p.sprite (oddSprite pair)).hstart.toNat, sprTag (oddSprite pair),
        independentColour pair (p.sprite (oddSprite pair))⟩] else [])
      ++ (if (p.sprite (evenSprite pair)).armed then [⟨(p.sprite (evenSprite pair)).hstart.toNat, sprTag (evenSprite pair),
        independentColour pair (p.sprite (evenSprite pair))⟩] else []) := by
  rw [pairLayers, if_neg h]

/-- Settles O32: the two kinds of pair are told apart by the attach condition, and the codes are the sums of their bits. -/
theorem spriteLayers : Obligations.SpriteLayers := by
  intro p pair e o he ho
  obtain rfl : e = evenSprite pair := Fin.ext he
  obtain rfl : o = oddSprite pair := Fin.ext ho
  refine ⟨by decide, fun hattach hstart harmed => ?_, fun hnot => ?_⟩
  · refine ⟨_, pairLayers_attached (attached_iff.2 ⟨hattach, hstart, harmed⟩), fun j hj => ?_⟩
    rw [← code4_toNat hj]
    exact attachedColour_toNat_eq_ite _ _ j
  · refine ⟨_, _, pairLayers_independent fun h => hnot (attached_iff.1 h), fun j hj => ⟨fun harmed => ?_, fun harmed => ?_⟩⟩
    · rw [← code2_toNat hj harmed]
      exact independentColour_toNat_eq_ite pair _ j
    · rw [← code2_toNat hj harmed]
      exact independentColour_toNat_eq_ite pair _ j

/-! ### The armed flags (R195) -/

theorem disarmAll_spr_of_unarmed (h : ¬ anyArmed p = true) : p.disarmAll.spr = p.spr := by
  refine Pipeline.spr_ext fun x => ?_
  have hunarmed : ∀ x, (p.sprite x).armed = false := by simpa [anyArmed] using h
  rw [Pipeline.sprite_disarmAll, ← hunarmed x]

/-- With the vertical display enabled no sprite stays armed, whether or not the compositor ran (R195, R199). -/
theorem VisibleSteps.spr_enabled {hf : Bool} {hopen hclose : Position} {q1 q2 q3 q4 : Pipeline}
    (h : VisibleSteps c true hf hopen hclose p q1 q2 q3 q4) : q4.spr = p.disarmAll.spr := by
  rw [h.spr]
  split
  · rfl
  · next hnone => exact (disarmAll_spr_of_unarmed fun harmed => hnone ⟨rfl, harmed⟩).symm

theorem sprite_of_disarmed (h : q.spr = p.disarmAll.spr) (y : Fin 8) : q.sprite y = { p.sprite y with armed := false } := by
  rw [Pipeline.sprite_congr h, Pipeline.sprite_disarmAll]

/-- An END, completed or not, leaves the sprites alone or disarms all of them. -/
theorem exec_endLine_spr {vf hf : Bool} {hopen hclose vpos : Position}
    (h : exec (.endLine vf hf hopen hclose vpos) s = .next t) :
    t.pipe.spr = s.pipe.spr ∨ t.pipe.spr = s.pipe.disarmAll.spr := by
  rw [exec_eq] at h
  rcases runCommand_cases h with ⟨_, rfl⟩ | ⟨_, q, events, hq, rfl⟩ | ⟨_, r, _, rfl⟩
  · exact .inl rfl
  · obtain ⟨_, hclosed, _⟩ := finishLine_frame hq
    exact hclosed.sprites.imp_right fun ⟨_, _, hspr⟩ => hspr
  · exact .inl rfl

/-- Settles O33: of the effects of the commands only those of RESET and of such an END disarm a sprite, and an END disarms all
of them or none. -/
theorem onlyTheCompositorDisarms : Obligations.OnlyTheCompositorDisarms := by
  refine ⟨fun s hf hopen hclose vpos hr hc hinv hphase hv => ?_, fun s t i x h hon hoff => ?_⟩
  · obtain ⟨hL, _, _⟩ := hc
    obtain ⟨_, _, _, q, hend, hsteps⟩ := exec_endLine_visible hr hL hinv hphase hv true hf hopen hclose
    exact ⟨_, hend, sprite_of_disarmed hsteps.spr_enabled⟩
  · by_cases hi : i = .reset
    · exact .inl hi
    · obtain ⟨hf, hopen, hclose, vpos, rfl, hv⟩ := ((exec_effect h).sprite hi x).disarming_writers hon hoff
      refine .inr ⟨hf, hopen, hclose, vpos, rfl, hv, ?_⟩
      rcases exec_endLine_spr h with hspr | hspr
      · have hkept : t.pipe.sprite x = s.pipe.sprite x := Pipeline.sprite_congr hspr x
        have hoff' : (s.pipe.sprite x).armed = false := hkept ▸ hoff
        exact absurd (hoff'.symm.trans hon) Bool.false_ne_true
      · exact sprite_of_disarmed hspr

/-! ### The order of the pairs (R198) -/

theorem layersOf_perm {order order' : List (Fin 4)} (h : order.Perm order') : (layersOf p order).Perm (layersOf p order') :=
  h.flatMap_right _

/-- What layers leave at a cell depends on which layers they are, not on their order. -/
theorem Composited.perm {layers layers' : List Layer} {i : Nat} {before after : Pixel} (hperm : layers.Perm layers')
    (h : Composited layers i before after) : Composited layers' i before after := by
  simpa only [Composited, hperm.mem_iff] using h

/-- Two results of drawing on the same pipeline are equal when they show the same pixels. -/
theorem SpriteFrame.ext (h : SpriteFrame p q) (h' : SpriteFrame p q') (hwf : Memory.wf p = true)
    (hpix : ∀ i, pixelAt q i = pixelAt q' i) : q = q' := by
  obtain ⟨_, hcidx, hdepth⟩ := (Memory.wf_iff q).1 (h.canonical hwf)
  obtain ⟨_, hcidx', hdepth'⟩ := (Memory.wf_iff q').1 (h'.canonical hwf)
  have hc : q.cidx = q'.cidx := buffer_ext hcidx hcidx' fun i => congrArg Pixel.colour (hpix i)
  have hd : q.depth = q'.depth := buffer_ext hdepth hdepth' fun i => congrArg Pixel.tag (hpix i)
  rw [h.frame, h'.frame, hc, hd]

/-- The same layers in another order leave the same pipeline, when their tags tell them apart. -/
theorem drawLayers_perm (hL : c.linePixels ≤ c.bufPixels) (hwf : Memory.wf p = true) {layers layers' : List Layer}
    (hperm : layers.Perm layers') (htags : ∀ l ∈ layers, ∀ m ∈ layers, l.tag = m.tag → l = m) :
    drawLayers c layers p = drawLayers c layers' p := by
  obtain ⟨q, hq, hframe, hin, hout⟩ := drawLayers_spec hL layers p
  obtain ⟨q', hq', hframe', hin', hout'⟩ := drawLayers_spec hL layers' p
  have hpix : ∀ i, pixelAt q i = pixelAt q' i := fun i => by
    rcases Nat.lt_or_ge i c.linePixels with hi | hi
    · exact ((hin' i hi).perm hperm.symm).unique htags (hin i hi)
    · rw [hout i hi, hout' i hi]
  rw [hq, hq', hframe.ext hframe' hwf hpix]

/-- Settles O34: the layers of the pairs have different tags, so their order does not matter. -/
theorem drawingOrderDoesNotMatter : Obligations.DrawingOrderDoesNotMatter := by
  intro c p order hL hwf horder
  have hpairs : order.Perm pairOrder := horder.trans (by decide)
  rw [drawPairs_eq hL, drawPairs_eq hL]
  exact drawLayers_perm hL hwf (layersOf_perm hpairs) fun _ hl _ hm => layersOf_eq_of_tag_eq hl hm

end Sys2Proof.Machine
end

section
/-! SUPPORT. Which command raises which fault code (60_exceptions.md R261), and the sequence protocol of the two line commands
(45_scanline_orchestrator.md R220 to R222). -/

namespace Sys2Proof.Machine

variable {c : Config} {p q : Pipeline} {s t : State} {i : Instr} {r : Raise} {events : List Event}

/-! ### What a command raises -/

/-- The three faults of recording a change (R143). -/
def FaultCode.OfLog (code : FaultCode) : Prop := code = .logPosition ∨ code = .logOrder ∨ code = .logOverflow

/-- `Raises c p r i`: the command `i` can raise `r` in the pipeline `p`. The fault of a word that is no command is not among
them. -/
inductive Raises (c : Config) (p : Pipeline) : Raise → Instr → Prop
  | bplcon0 (pix : Position) (val : Word16) {r : Raise} (hcode : r.code.OfLog) (ha : ¬ RecordAccepted c p pix.toNat) :
      Raises c p r (.pokeBplcon0 pix val)
  | bplcon1 (pix : Position) (val : Word16) {r : Raise} (hcode : r.code.OfLog) (ha : ¬ RecordAccepted c p pix.toNat) :
      Raises c p r (.pokeBplcon1 pix val)
  | bplcon2 (pix : Position) (val : Word16) {r : Raise} (hcode : r.code.OfLog) (ha : ¬ RecordAccepted c p pix.toNat) :
      Raises c p r (.pokeBplcon2 pix val)
  | priority (pix : Position) (val : Word16) (hv : ¬ PriorityAccepted c val) :
      Raises c p ⟨.priorityReserved, .value val⟩ (.pokeBplcon2 pix val)
  | draw (hires : Bool) (n : Position) (hfit : c.bufPixels < p.cursor + drawCells hires n) :
      Raises c p ⟨.drawOutOfBounds, .drawAt p.cursor n hires⟩ (.draw hires n)
  | beginLine (first vpos : Position) (hphase : p.phase = .inLine) :
      Raises c p ⟨.sequence, .sequence .beginLine p.phase⟩ (.beginLine first vpos)
  | endLine (vf hf : Bool) (hopen hclose vpos : Position) (hphase : p.phase = .idle) :
      Raises c p ⟨.sequence, .sequence .endLine p.phase⟩ (.endLine vf hf hopen hclose vpos)
  | insideEnd (vf hf : Bool) (hopen hclose vpos : Position) {r : Raise} (hinternal : r.Internal)
      (h : visibleEnd c vf hf hopen hclose vpos p = .error r) : Raises c p r (.endLine vf hf hopen hclose vpos)

theorem recordChange_raises {reg : LogReg} {val : Word16} {pos : Nat} (h : recordChange c reg val pos p = .error r) :
    r.code.OfLog ∧ ¬ RecordAccepted c p pos := by
  rcases recordChange_cases c reg val pos p with ⟨_, e⟩ | ⟨_, _, e⟩ | ⟨_, ha, r', e, hcode⟩
  · rw [e] at h
    cases h
  · rw [e] at h
    cases h
  · obtain rfl := Except.error.inj (h.symm.trans e)
    exact ⟨hcode, ha⟩

/-- A computation whose last step completes raises what comes before that step. -/
theorem bind_ok_eq_error_iff {α β : Type} {x : Except Raise α} {f : α → β} :
    (x >>= fun a => .ok (f a)) = .error r ↔ x = .error r := by
  simp [bind_eq_error_iff]

theorem pokePrimary_raises {pix : Position} {val : Word16} (h : pokePrimary pix val c p = .error r) :
    Raises c p r (.pokeBplcon0 pix val) := by
  obtain ⟨hcode, ha⟩ := recordChange_raises (bind_ok_eq_error_iff.1 h)
  exact .bplcon0 pix val hcode ha

theorem pokeSecondary_raises {pix : Position} {val : Word16} (h : pokeSecondary pix val c p = .error r) :
    Raises c p r (.pokeBplcon1 pix val) := by
  obtain ⟨hcode, ha⟩ := recordChange_raises (bind_ok_eq_error_iff.1 h)
  exact .bplcon1 pix val hcode ha

theorem pokeTertiary_raises {pix : Position} {val : Word16} (h : pokeTertiary pix val c p = .error r) :
    Raises c p r (.pokeBplcon2 pix val) := by
  rcases bind_eq_error_iff.1 h with hcheck | ⟨_, _, hrecord⟩
  · rcases checkPriority_cases c val with ⟨_, e⟩ | ⟨hv, e⟩
    · rw [e] at hcheck
      cases hcheck
    · obtain rfl := Except.error.inj (hcheck.symm.trans e)
      exact .priority pix val hv
  · obtain ⟨hcode, ha⟩ := recordChange_raises (bind_ok_eq_error_iff.1 hrecord)
    exact .bplcon2 pix val hcode ha

theorem drawPixels_raises {hires : Bool} {n : Position} (h : drawPixels hires n c p = .error r) :
    Raises c p r (.draw hires n) := by
  rcases Nat.lt_or_ge c.bufPixels (p.cursor + drawCells hires n) with hfit | hfit
  · obtain rfl := Except.error.inj (h.symm.trans (drawPixels_faults hfit))
    exact .draw hires n hfit
  · obtain ⟨q, hq, _⟩ := drawPixels_spec hfit
    rw [hq] at h
    cases h

theorem startLine_raises {first vpos : Position} (h : startLine first vpos c p = .error r) :
    Raises c p r (.beginLine first vpos) := by
  unfold startLine at h
  split at h
  · next hphase =>
    cases h
    exact .beginLine first vpos hphase
  · cases h

theorem finishLine_raises {vf hf : Bool} {hopen hclose vpos : Position}
    (h : finishLine vf hf hopen hclose vpos c p = .error r) : Raises c p r (.endLine vf hf hopen hclose vpos) := by
  unfold finishLine at h
  split at h
  · next hphase =>
    cases h
    exact .endLine vf hf hopen hclose vpos hphase
  · replace h := bind_ok_eq_error_iff.1 h
    split at h
    · exact .insideEnd vf hf hopen hclose vpos (visibleEnd_raises h) h
    · cases h

/-- What a command raises when it does not complete. -/
theorem commandOf_raises (h : commandOf i c p = .error r) : Raises c p r i := by
  cases i with
  | pokeBplcon0 => exact pokePrimary_raises h
  | pokeBplcon1 => exact pokeSecondary_raises h
  | pokeBplcon2 => exact pokeTertiary_raises h
  | draw => exact drawPixels_raises h
  | beginLine => exact startLine_raises h
  | endLine => exact finishLine_raises h
  | _ => cases h

/-- Only taking a fault writes `fault` (R263, R245): no completed command does. -/
theorem commandOf_fault (h : commandOf i c p = .ok (q, events)) : q.fault = p.fault := by
  cases i with
  | pokeBplcon0 | pokeBplcon1 =>
    simp only [commandOf, pokePrimary, pokeSecondary, bind_eq_ok_iff, pure_eq_ok, Except.ok.injEq, Prod.mk.injEq] at h
    obtain ⟨_, hr, rfl, _⟩ := h
    obtain ⟨_, _, rfl⟩ := recordChange_recorded hr
    rfl
  | pokeBplcon2 =>
    simp only [commandOf, pokeTertiary, bind_eq_ok_iff, pure_eq_ok, Except.ok.injEq, Prod.mk.injEq] at h
    obtain ⟨_, _, _, hr, rfl, _⟩ := h
    obtain ⟨_, _, rfl⟩ := recordChange_recorded hr
    rfl
  | draw => rw [(drawPixels_frame h).1]
  | beginLine =>
    simp only [commandOf, startLine] at h
    split at h
    · cases h
    · cases h
      rfl
  | endLine => rw [(finishLine_frame h).2.1.frame]
  | _ => cases h; rfl

/-- A running pipeline that is faulted after a command is so by a fault which the command raised. -/
theorem exec_raises {code : FaultCode} (hr : Running s) (h : exec i s = .next t) (hcode : t.pipe.fault = some code) :
    ∃ r, r.code = code ∧ t = takeFault r s ∧ Raises s.config s.pipe r i := by
  rw [exec_eq] at h
  rcases runCommand_cases h with ⟨hf, _⟩ | ⟨_, q, events, hc, rfl⟩ | ⟨_, r, hc, rfl⟩
  · exact absurd hr hf
  · rw [commit_pipe, commandOf_fault hc, hr] at hcode
    cases hcode
  · exact ⟨r, Option.some.inj hcode, rfl, commandOf_raises hc⟩

/-! ### The sequence protocol (R222) -/

theorem exec_beginLine_inLine (first vpos : Position) (hr : Running s) (hp : s.pipe.phase = .inLine) :
    exec (.beginLine first vpos) s = .next (s.faultedWith .sequence (.sequence .beginLine .inLine)) :=
  exec_faults hr (by rw [commandOf, startLine, hp]; rfl)

theorem exec_endLine_idle (vf hf : Bool) (hopen hclose vpos : Position) (hr : Running s) (hp : s.pipe.phase = .idle) :
    exec (.endLine vf hf hopen hclose vpos) s = .next (s.faultedWith .sequence (.sequence .endLine .idle)) :=
  exec_faults hr (by rw [commandOf, finishLine, hp]; rfl)

/-- A command that raises `SEQUENCE` is a BEGIN in a line or an END outside one. -/
theorem Raises.sequence_source (h : Raises c p r i) (hcode : r.code = .sequence) :
    ((∃ first vpos, i = .beginLine first vpos) ∧ p.phase = .inLine)
      ∨ ((∃ vf hf hopen hclose vpos, i = .endLine vf hf hopen hclose vpos) ∧ p.phase = .idle) := by
  cases h with
  | beginLine first vpos hphase => exact .inl ⟨⟨first, vpos, rfl⟩, hphase⟩
  | endLine vf hf hopen hclose vpos hphase => exact .inr ⟨⟨vf, hf, hopen, hclose, vpos, rfl⟩, hphase⟩
  | bplcon0 _ _ hlog | bplcon1 _ _ hlog | bplcon2 _ _ hlog => simp [FaultCode.OfLog, hcode] at hlog
  | insideEnd _ _ _ _ _ hinternal => simp [Raise.Internal, hcode] at hinternal
  | priority | draw => cases hcode

/-- Settles O35: `startLine` in either phase. -/
theorem beginLine : Obligations.BeginLine :=
  fun _ first vpos hr => ⟨exec_beginLine_idle first vpos hr, exec_beginLine_inLine first vpos hr⟩

/-- Settles O36: of all that a command can raise only the two line commands' phase checks are `SEQUENCE`, and both checks come
first. -/
theorem sequenceProtocol : Obligations.SequenceProtocol := by
  refine ⟨fun s vf hf hopen hclose vpos hr hp => exec_endLine_idle vf hf hopen hclose vpos hr hp,
    fun s t i hr h => ⟨fun hfault => ?_, ?_⟩⟩
  · obtain ⟨_, hcode, _, hraises⟩ := exec_raises hr h hfault
    exact hraises.sequence_source hcode
  · rintro (⟨⟨first, vpos, rfl⟩, hp⟩ | ⟨⟨vf, hf, hopen, hclose, vpos, rfl⟩, hp⟩)
    · obtain rfl := Host.Outcome.next.inj (h.symm.trans (exec_beginLine_inLine first vpos hr hp))
      rfl
    · obtain rfl := Host.Outcome.next.inj (h.symm.trans (exec_endLine_idle vf hf hopen hclose vpos hr hp))
      rfl

end Sys2Proof.Machine
end

section
/-! SUPPORT. The frame of a visible END (45_scanline_orchestrator.md R226, R235), and the blank line (R234). -/

namespace Sys2Proof.Machine

variable {c : Config} {p : Pipeline} {s : State}

theorem anyArmed_iff : anyArmed p = true ↔ ∃ x : Fin 8, (p.spr[x]).armed = true := by
  simp [anyArmed, Pipeline.sprite]

theorem disarmAll_spr_eq_map (p : Pipeline) : p.disarmAll.spr = p.spr.map fun sp => { sp with armed := false } := by
  ext x hx
  simp [Pipeline.disarmAll, Pipeline.sprite]

section
variable {vf hf : Bool} {hopen hclose : Position} {q1 q2 q3 q4 : Pipeline}
variable (h : VisibleSteps c vf hf hopen hclose p q1 q2 q3 q4)
include h

/-- A visible END writes the pixel buffers, the sprites and the log, and no other field (R235). -/
theorem VisibleSteps.frame :
    q4 = { p with raw := q4.raw, cidx := q4.cidx, depth := q4.depth, spr := q4.spr, log := [] } := by
  obtain ⟨⟨hlog, hreplay⟩, hsprites, hborder, hwrap⟩ := h
  have h1 : q1 = { p with raw := q1.raw, cidx := q1.cidx, depth := q1.depth, log := [] } :=
    calc q1 = { { q1 with log := p.log } with log := q1.log } := rfl
      _ = _ := by rw [hreplay.frame, hlog]
  have h2 : q2 = { q1 with cidx := q2.cidx, depth := q2.depth, spr := q2.spr } := by
    rcases hsprites with ⟨_, _, r, rfl, hframe, _⟩ | ⟨_, rfl⟩
    · rw [hframe.frame]
      rfl
    · rfl
  have h3 := hborder.frame
  have h4 : q4 = { q3 with raw := q4.raw } := by
    rcases hwrap with ⟨_, hcopy⟩ | ⟨_, rfl⟩
    · exact hcopy.frame
    · rfl
  rw [h4, h3, h2, h1]

/-- The picture of a line that is border from end to end. -/
theorem VisibleSteps.cellsBelow_cidx_blank (hvf : vf = false) :
    cellsBelow q3.cidx c.linePixels = List.replicate c.linePixels 0#6 :=
  List.eq_replicate_iff.2 ⟨cellsBelow_length _ _, fun v hv => by
    obtain ⟨i, hi, rfl⟩ := List.mem_map.1 hv
    exact h.bordered.filled i ⟨List.mem_range.1 hi, .inl hvf⟩⟩

end

/-- The END of a visible line: the fields that change, and the two events in terms of the buffers it leaves. -/
theorem exec_endLine_visible_frame {vpos : Position} (hr : Running s) (hL : s.config.linePixels ≤ s.config.bufPixels)
    (hi : PipelineInv s.config s.pipe) (hphase : s.pipe.phase = .inLine) (hv : s.config.firstVisibleLine ≤ vpos.toNat)
    (vf hf : Bool) (hopen hclose : Position) :
    ∃ q1 q2 q3 q4, VisibleSteps s.config vf hf hopen hclose s.pipe q1 q2 q3 q4
      ∧ exec (.endLine vf hf hopen hclose vpos) s = .next { s with
        pipe := { s.pipe with
          raw := q4.raw, cidx := q4.cidx, depth := q4.depth, log := [], phase := .idle
          spr := if vf = true ∧ ∃ x : Fin 8, (s.pipe.spr[x]).armed = true
            then s.pipe.spr.map (fun sp => { sp with armed := false }) else s.pipe.spr }
        trace := s.trace ++ [.collisionHook (cellsBelow q4.depth s.config.linePixels) (cellsBelow q2.cidx s.config.linePixels),
          .colorize vpos (cellsBelow q4.cidx s.config.linePixels)] } := by
  obtain ⟨q1, q2, q3, q4, hend, hsteps⟩ := exec_endLine_visible hr hL hi hphase hv vf hf hopen hclose
  refine ⟨q1, q2, q3, q4, hsteps, ?_⟩
  have hspr := hsteps.spr
  simp only [anyArmed_iff, disarmAll_spr_eq_map] at hspr
  rw [hend, commit, ← hsteps.depth_composited, ← hsteps.cidx_wrapped, ← hspr]
  conv_lhs => rw [hsteps.frame]

/-- Settles O38: the fields are those of the frame of the steps, and past the line the invariant holds before and after. -/
theorem visibleEndFrame : Obligations.VisibleEndFrame := by
  intro s vf hf hopen hclose vpos hr hc hinv hphase hv
  obtain ⟨hL, _, _⟩ := hc
  obtain ⟨_, q2, _, q4, hsteps, hend⟩ := exec_endLine_visible_frame hr hL hinv hphase hv vf hf hopen hclose
  have hinv' := hinv.visibleSteps hL hsteps
  refine ⟨q4.raw, q4.cidx, q4.depth, cellsBelow q2.cidx s.config.linePixels, hend, cellsBelow_length _ _, fun i hi => ?_⟩
  exact ⟨(hinv'.cidxTail i hi).trans (hinv.cidxTail i hi).symm, (hinv'.depthTail i hi).trans (hinv.depthTail i hi).symm⟩

end Sys2Proof.Machine

/-! The theorems below stand in `Sys2Proof`: in `Machine` their names are those of the pseudo-instruction BLANKLINE and of the
non-visible END. -/

namespace Sys2Proof

open Machine

/-- Settles O37: the END of a line above the first visible one. -/
theorem nonVisibleEnd : Obligations.NonVisibleEnd :=
  fun _ vf hf hopen hclose _ hr hphase hv => exec_endLine_nonVisible vf hf hopen hclose hr hphase hv

/-- Settles O41: with the vertical display off the sprites take no part, and the border covers the whole line. -/
theorem blankLine : Obligations.BlankLine := by
  intro s hf hopen hclose vpos hr hc hinv hphase hv
  obtain ⟨hL, _, _⟩ := hc
  obtain ⟨_, q2, q3, q4, hsteps, hend⟩ := exec_endLine_visible_frame hr hL hinv hphase hv false hf hopen hclose
  refine ⟨q4.raw, q4.cidx, q4.depth, cellsBelow q2.cidx s.config.linePixels, ?_, fun i hi => ?_⟩
  · rw [hend, hsteps.cidx_wrapped, hsteps.cellsBelow_cidx_blank rfl, if_neg (by simp)]
  · have hpos : 0 < s.config.linePixels := Nat.zero_lt_of_lt hi
    simp only [hsteps.readCell_raw hL, hpos, hi, true_and, true_or, if_true]

end Sys2Proof
end

section
/-! SUPPORT. The interface commands: colour pokes, INSPECT, RESET, pokes of unmapped offsets and NOP (46_interface_misc.md). -/

namespace Sys2Proof.Machine

variable {s : State} {i : Instr} {events : List Event}

/-- A command that writes no field of the pipeline only appends what it emits. -/
theorem exec_emits_only (hr : Running s) (hc : commandOf i s.config s.pipe = .ok (s.pipe, events)) :
    exec i s = .next { s with trace := s.trace ++ events } :=
  exec_commits hr hc

/-- A faulted pipeline discards every command (60_exceptions.md R264). -/
theorem exec_discards (i : Instr) (hf : s.pipe.fault ≠ none) : exec i s = .next s := by
  rw [exec_eq, runCommand_discards hf]

/-- A command with no effect leaves the machine as it is, whether the pipeline runs or is faulted. -/
theorem exec_of_noEffect (hi : commandOf i = noEffect) (s : State) : exec i s = .next s := by
  by_cases hr : Running s
  · exact exec_silent hr (by rw [hi, noEffect])
  · exact exec_discards i hr

theorem commandOf_pokeColor (n : Fin 32) (pix : Position) (val : Word16) :
    commandOf (pokeColor n pix val) = forwardColour n pix val := by
  fin_cases n <;> rfl

/-- Settles O45: each of the 32 pokes forwards its own register, and that command writes no field of the pipeline. -/
theorem colourPoke : Obligations.ColourPoke := by
  intro s n pix val hr
  exact exec_emits_only hr (by rw [commandOf_pokeColor, forwardColour])

/-- Settles O46: INSPECT writes no field of the pipeline, and the slices of its snapshot are the fields the statement names. -/
theorem inspectSnapshot : Obligations.InspectSnapshot := by
  intro s hr
  have hc : commandOf .inspect s.config s.pipe = .ok (s.pipe, [.inspect (takeSnapshot s.config s.pipe)]) := rfl
  rw [exec_emits_only hr hc, takeSnapshot, pf1h, pf2h, dblpf]

/-- Settles O14: the one field RESET keeps, `fault`, is at its reset value while the pipeline runs. -/
theorem resetCommand : Obligations.ResetCommand := by
  refine fun s => ⟨fun hr => ?_, exec_discards .reset⟩
  have hc : commandOf .reset s.config s.pipe = .ok ({ Pipeline.powerOn with fault := s.pipe.fault }, []) := rfl
  rw [exec_silent hr hc, hr]
  rfl

/-- Settles O47: both kinds of command have no effect, and the all-zero word is the first of the worked encodings. -/
theorem unmappedPokeAndNop : Obligations.UnmappedPokeAndNop := by
  obtain ⟨hzero, _⟩ := workedEncodings
  exact ⟨fun s reg pix val => exec_of_noEffect (i := .pokeUnmapped reg pix val) rfl s, exec_of_noEffect (i := .nop) rfl, hzero⟩

end Sys2Proof.Machine
end

section
/-! SUPPORT. What a fault leaves and which commands raise none (60_exceptions.md R260 to R265, R276). -/

namespace Sys2Proof.Machine

variable {c : Config} {p q : Pipeline} {s t : State} {i : Instr} {r : Raise} {events : List Event} {code : FaultCode}

/-! ### The host's duties (R276) -/

/-- What is recorded is accepted (R143). -/
theorem Recorded.accepted {reg : LogReg} {val : Word16} {pos : Nat} {log : List LogEntry} (h : Recorded c p reg val pos log) :
    RecordAccepted c p pos := by
  cases h with
  | idle hidle => exact fun hline => absurd (hidle.symm.trans hline) (by decide)
  | appended _ ha => exact ha

/-- Under the invariant every step of a visible END completes, so nothing inside END faults. -/
theorem visibleEnd_ne_error (hc : c.Valid) (hi : PipelineInv c p) (vf hf : Bool) (hopen hclose vpos : Position) :
    visibleEnd c vf hf hopen hclose vpos p ≠ .error r := by
  obtain ⟨hL, _, _⟩ := hc
  obtain ⟨_, _, _, _, hend, _⟩ := visibleEnd_spec hL hi vf hf hopen hclose vpos
  simp [hend]

/-- Under the invariant a command that faults broke one of the host's duties. -/
theorem Raises.breaks_duties (h : Raises c p r i) (hc : c.Valid) (hi : PipelineInv c p) : ¬ KeepsDuties c p i := by
  cases h with
  | bplcon0 _ _ _ ha | bplcon1 _ _ _ ha => exact ha
  | bplcon2 _ _ _ ha => exact fun ⟨_, hrecord⟩ => ha hrecord
  | priority _ _ hv => exact fun ⟨hval, _⟩ => hv hval
  | draw _ _ hfit => exact Nat.not_le.2 hfit
  | beginLine _ _ hphase | endLine _ _ _ _ _ hphase =>
    exact fun hd => absurd (hphase.symm.trans hd) (by decide)
  | insideEnd vf hf hopen hclose vpos _ h => exact absurd h (visibleEnd_ne_error hc hi vf hf hopen hclose vpos)

/-- A command that completes kept the host's duties, in every state. -/
theorem keepsDuties_of_commandOf_ok (h : commandOf i c p = .ok (q, events)) : KeepsDuties c p i := by
  cases i with
  | pokeBplcon0 | pokeBplcon1 =>
    obtain ⟨_, hr, _⟩ := bind_eq_ok_iff.1 h
    obtain ⟨_, hrecorded, _⟩ := recordChange_recorded hr
    exact hrecorded.accepted
  | pokeBplcon2 _ val =>
    obtain ⟨_, hcheck, h⟩ := bind_eq_ok_iff.1 h
    obtain ⟨_, hr, _⟩ := bind_eq_ok_iff.1 h
    obtain ⟨_, hrecorded, _⟩ := recordChange_recorded hr
    rcases checkPriority_cases c val with ⟨hv, _⟩ | ⟨_, e⟩
    · exact ⟨hv, hrecorded.accepted⟩
    · rw [e] at hcheck
      cases hcheck
  | draw =>
    refine Nat.not_lt.1 fun hfit => ?_
    rw [commandOf, drawPixels_faults hfit] at h
    cases h
  | beginLine =>
    rw [commandOf, startLine] at h
    split at h
    · cases h
    · next hphase => exact hphase
  | endLine => exact (finishLine_frame h).1
  | _ => exact trivial

/-- Under the invariant the duties are exactly what makes a command complete. -/
theorem keepsDuties_iff_completes (hc : c.Valid) (hi : PipelineInv c p) :
    KeepsDuties c p i ↔ ∃ q events, commandOf i c p = .ok (q, events) := by
  refine ⟨fun hd => ?_, fun ⟨_, _, h⟩ => keepsDuties_of_commandOf_ok h⟩
  cases h : commandOf i c p with
  | ok result =>
    obtain ⟨q, events⟩ := result
    exact ⟨q, events, rfl⟩
  | error r => exact absurd hd ((commandOf_raises h).breaks_duties hc hi)

/-- A running pipeline still runs after a command exactly when the command completes. -/
theorem exec_running_iff_completes (hr : Running s) :
    (∃ t, exec i s = .next t ∧ Running t) ↔ ∃ q events, commandOf i s.config s.pipe = .ok (q, events) := by
  constructor
  · rintro ⟨t, h, ht⟩
    rw [exec_eq] at h
    rcases runCommand_cases h with ⟨hf, _⟩ | ⟨_, q, events, hok, _⟩ | ⟨_, r, _, rfl⟩
    · exact absurd hr hf
    · exact ⟨q, events, hok⟩
    · cases ht
  · rintro ⟨q, events, hok⟩
    exact ⟨commit q events s, exec_commits hr hok, (commandOf_fault hok).trans hr⟩

/-- Settles O12: both sides say that the command completes. -/
theorem dutiesKeepThePipelineRunning : Obligations.DutiesKeepThePipelineRunning :=
  fun _ _ hinv hr => (keepsDuties_iff_completes hinv.config hinv.pipe).trans (exec_running_iff_completes hr).symm

/-! ### The codes a step can raise (R261) -/

/-- A running pipeline that is faulted after a step is so by the fault of a word that is no command, or by one that a command
raised. -/
theorem step_raises (hr : Running s) (h : step s = .next t) (hcode : t.pipe.fault = some code) :
    ∃ r, r.code = code ∧ t = takeFault r { s with pending := s.pending.tail }
      ∧ (code = .illegalCommand ∨ ∃ i, Raises s.config s.pipe r i) := by
  have htaken : Running { s with pending := s.pending.tail } := hr
  rcases step_runs h with ⟨_, rfl⟩ | ⟨_, hrun, ⟨i, rfl⟩ | ⟨w, rfl⟩⟩
  · cases hr.symm.trans hcode
  · rw [← exec_eq] at hrun
    obtain ⟨r, hrcode, ht, hraises⟩ := exec_raises htaken hrun hcode
    exact ⟨r, hrcode, ht, .inr ⟨i, hraises⟩⟩
  · obtain rfl := Host.Outcome.next.inj (hrun.symm.trans (runCommand_illegalCommand w htaken))
    cases hcode
    exact ⟨⟨.illegalCommand, .word w⟩, rfl, rfl, .inl rfl⟩

/-- Under the invariant no command raises one of the two codes that are checked only inside END. -/
theorem Raises.not_internal (h : Raises c p r i) (hc : c.Valid) (hi : PipelineInv c p) : ¬ r.Internal := by
  cases h with
  | bplcon0 _ _ hcode | bplcon1 _ _ hcode | bplcon2 _ _ hcode =>
    rcases hcode with hcode | hcode | hcode <;> simp [Raise.Internal, hcode]
  | priority | draw | beginLine | endLine => simp [Raise.Internal]
  | insideEnd vf hf hopen hclose vpos _ h => exact absurd h (visibleEnd_ne_error hc hi vf hf hopen hclose vpos)

/-- Settles O11: the two codes are checked only inside END, whose steps complete under the invariant. -/
theorem unreachableFaultCodes : Obligations.UnreachableFaultCodes := by
  intro s t hinv hr h
  have hno : ∀ code, t.pipe.fault = some code → code ≠ .logBadTarget ∧ code ≠ .bufferIndex := by
    intro code hcode
    obtain ⟨r, rfl, _, hillegal | ⟨i, hraises⟩⟩ := step_raises hr h hcode
    · simp [hillegal]
    · obtain ⟨hindex, htarget⟩ := not_or.1 (hraises.not_internal hinv.config hinv.pipe)
      exact ⟨htarget, hindex⟩
  exact ⟨fun hcode => (hno _ hcode).1 rfl, fun hcode => (hno _ hcode).2 rfl⟩

/-! ### What a fault leaves (R262, R263) -/

theorem takeFault_eq_faultedWith (r : Raise) (s : State) : takeFault r s = s.faultedWith r.code r.info := rfl

/-- Settles O8: a command and a step that fault end in `takeFault`. -/
theorem faultsAreTransactional : Obligations.FaultsAreTransactional := by
  refine ⟨fun s t i code hr h hcode => ?_, fun s t code hr h hcode => ?_⟩
  · obtain ⟨r, rfl, ht, _⟩ := exec_raises hr h hcode
    exact ⟨r.info, ht.trans (takeFault_eq_faultedWith r s)⟩
  · obtain ⟨r, rfl, ht, _⟩ := step_raises hr h hcode
    exact ⟨r.info, ht.trans (takeFault_eq_faultedWith r _)⟩

/-! ### The faulted state and the trace (R264) -/

/-- A faulted pipeline discards every word (R264). -/
theorem step_discards (hf : s.pipe.fault ≠ none) : step s = .next { s with pending := s.pending.tail } := by
  rcases step_cases s with ⟨hp, e⟩ | ⟨w, rest, hp, ⟨i, _, e⟩ | ⟨_, _, e⟩⟩
  · rw [e, hp, List.tail_nil, ← hp]
  · rw [e, hp]
    exact exec_discards i hf
  · rw [e, hp]
    exact runCommand_discards hf

/-- An event that is no fault report and no snapshot of a fault. -/
def Event.ReportsNoFault (e : Event) : Prop := e.isFaulted = false ∧ ∀ snapshot, e = .inspect snapshot → snapshot.fault = none

/-- A snapshot is the one of the state in which the command runs (R243). -/
theorem Emits.eq_takeSnapshot {snapshot : Snapshot} (h : Emits s t events i) (he : .inspect snapshot ∈ events) :
    snapshot = takeSnapshot s.config s.pipe := by
  cases h with
  | inspect => simpa using he
  | _ => simp at he

/-- A completed command reports no fault: its report would need a fault to be set. -/
theorem reportsNoFault_of_commandOf_ok (h : commandOf i s.config s.pipe = .ok (q, events)) {e : Event} (he : e ∈ events) :
    e.ReportsNoFault := by
  have hem : Emits s s events i := commandOf_emits h
  cases e with
  | faulted =>
    obtain ⟨hnone, hsome⟩ := hem.faulted_source he
    cases hnone.symm.trans hsome
  | inspect snapshot =>
    refine ⟨rfl, fun _ hs => ?_⟩
    cases hs
    rw [hem.eq_takeSnapshot he]
    rfl
  | _ => exact ⟨rfl, by simp⟩

theorem TraceInv.powerOn (c : Config) : TraceInv (State.powerOn c) where
  running _ := by simp
  faulted _ h := by cases h
  snapshots _ := by simp

/-- Events that report no fault keep the trace's invariant while the pipeline runs on. -/
theorem TraceInv.commit (hi : TraceInv s) (hr : Running s) (hq : q.fault = none) (he : ∀ e ∈ events, e.ReportsNoFault) :
    TraceInv (commit q events s) where
  running _ e hmem := (List.mem_append.1 hmem).elim (hi.running hr e) fun hmem => (he e hmem).1
  faulted _ h := by cases hq.symm.trans h
  snapshots snapshot hmem := (List.mem_append.1 hmem).elim (hi.snapshots snapshot) fun hmem => (he _ hmem).2 snapshot rfl

/-- The first fault's report ends the trace. -/
theorem TraceInv.takeFault (hi : TraceInv s) (hr : Running s) (r : Raise) : TraceInv (takeFault r s) where
  running h := by cases h
  faulted code h := by
    cases h
    exact ⟨s.trace, r.info, rfl, hi.running hr⟩
  snapshots snapshot hmem := by
    rcases List.mem_append.1 hmem with hmem | hmem
    · exact hi.snapshots snapshot hmem
    · cases List.mem_singleton.1 hmem

/-- Running a command keeps the trace's invariant when the command, completed, sets no fault and reports none. -/
theorem TraceInv.runCommand {command : Command} (hi : TraceInv s)
    (hcommand : ∀ q events, command s.config s.pipe = .ok (q, events) →
      q.fault = s.pipe.fault ∧ ∀ e ∈ events, e.ReportsNoFault)
    (h : runCommand command s = .next t) : TraceInv t := by
  rcases runCommand_cases h with ⟨_, rfl⟩ | ⟨hr, q, events, hok, rfl⟩ | ⟨hr, r, _, rfl⟩
  · exact hi
  · obtain ⟨hq, he⟩ := hcommand q events hok
    exact hi.commit hr (hq.trans hr) he
  · exact hi.takeFault hr r

theorem TraceInv.step (hi : TraceInv s) (h : step s = .next t) : TraceInv t := by
  rcases step_runs h with ⟨_, rfl⟩ | ⟨command, hrun, hcommand⟩
  · exact hi
  · have htaken : TraceInv { s with pending := s.pending.tail } := ⟨hi.running, hi.faulted, hi.snapshots⟩
    refine htaken.runCommand (fun q events hok => ?_) hrun
    rcases hcommand with ⟨i, rfl⟩ | ⟨w, rfl⟩
    · exact ⟨commandOf_fault hok, fun _ => reportsNoFault_of_commandOf_ok hok⟩
    · cases hok

/-- Settles O7: a faulted pipeline discards, and a running one adds a report to the trace only as it faults. -/
theorem faultedStateIsTerminal : Obligations.FaultedStateIsTerminal :=
  ⟨fun _ hf => ⟨fun i => exec_discards i hf, step_discards hf⟩, TraceInv.powerOn, fun _ _ => TraceInv.step⟩

/-! ### No command stops the model -/

theorem exec_answers (i : Instr) (s : State) : ∃ t, exec i s = .next t := by
  rw [exec_eq]
  exact runCommand_answers (commandOf i) s

/-- Settles O9: a command, decoded or illegal, is discarded, committed or undone, and each of the three is a next state. -/
theorem everyCommandAnswers : Obligations.EveryCommandAnswers := by
  refine ⟨exec_answers, fun s => ?_⟩
  rcases step_cases s with ⟨_, e⟩ | ⟨w, rest, _, ⟨i, _, e⟩ | ⟨_, _, e⟩⟩
  · exact ⟨s, e⟩
  · rw [e]
    exact exec_answers i _
  · rw [e]
    exact runCommand_answers (illegalCommand w) _

end Sys2Proof.Machine
end

section
/-! SUPPORT. Power-on (70_reset_and_hazards.md R290). -/

namespace Sys2Proof.Machine

/-- No buffer of the power-on pipeline lists a cell, and an unlisted cell reads 0. -/
theorem Pipeline.readCell_powerOn (i : Nat) :
    readCell Pipeline.powerOn.raw i = 0#6 ∧ readCell Pipeline.powerOn.cidx i = 0#6
      ∧ readCell Pipeline.powerOn.depth i = 0#16 :=
  ⟨readCell_nil i, readCell_nil i, readCell_nil i⟩

/-- Settles O13: the planes, the cells and the sprites one by one, and every other field as the power-on record lists it. -/
theorem powerOnState : Obligations.PowerOnState :=
  fun _ => ⟨rfl, rfl, rfl, rfl, rfl, rfl, Pipeline.plane_powerOn, rfl, Pipeline.readCell_powerOn, Pipeline.sprite_powerOn,
    rfl, rfl, rfl, rfl, rfl, rfl, rfl⟩

/-- Settles O15: `State.reset` is the power-on machine of the test configuration, whose parameters are legal (R8). -/
theorem powerOnMeetsTheInvariants : Obligations.PowerOnMeetsTheInvariants := by
  have hall : ∀ c : Config, c.Valid → Inv (State.powerOn c) ∧ TraceInv (State.powerOn c) :=
    fun c hc => ⟨.powerOn hc [], .powerOn c⟩
  have htest : Config.testConfiguration.Valid := by decide
  exact ⟨hall, hall _ htest⟩

end Sys2Proof.Machine
end
